-- ==== Sys2Proof/Word.lean ====
section
/-!
DEFINITION. The words of the engine and the eight bytes of one memory answer.
Bits are numbered from 0 at the least significant end and every value is unsigned (R10).
-/
namespace Sys2Proof

/-- One byte. -/
abbrev Byte := BitVec 8

/-- A `u64`: virtual addresses, TTBR values, raw descriptors, packed descriptors, operand words. -/
abbrev Word := BitVec 64

/-- A physical address the engine can form: 48 bits (`PA_BITS`, R8). -/
abbrev PA := BitVec 48

/-- The command word of a packet (R111). -/
abbrev Cmdw := BitVec 32

/-- The 8 bytes of one `Ok` answer on the MEM channel, `b0` at the lowest address (R61). -/
structure Bytes8 where
  b0 : Byte
  b1 : Byte
  b2 : Byte
  b3 : Byte
  b4 : Byte
  b5 : Byte
  b6 : Byte
  b7 : Byte
deriving DecidableEq, Repr

end Sys2Proof
end

