-- ==== Sys2Proof/Syntax.lean ====
section
/-!
DEFINITION. What the engine is told to do: command packets (R110), the descriptor words it consumes (R93), and `Instr`, one
constructor per row of spec/opcode_table.json.
-/
namespace Sys2Proof

/-- A lookup level, 0 to 3 (R2). -/
inductive Level where
  | l0
  | l1
  | l2
  | l3
deriving DecidableEq, Repr

/-- A command packet: four words delivered together on the CMD channel (R110). -/
structure Packet where
  cmdw : Cmdw
  a0 : Word
  a1 : Word
  a2 : Word
deriving DecidableEq, Repr

/-- The three operand words of a packet. Every command carries all three; R113 says which of them it uses. -/
structure Operands where
  a0 : Word
  a1 : Word
  a2 : Word
deriving DecidableEq, Repr

/-- The rows of the opcode table. The first nine are the commands (R112), with the fields of `CMDW` each may carry. The last
six are the kinds of descriptor word (R94): the engine meets one when the answer to its MEM request arrives, at the level it
is looking up, and acts on it (notes/assumptions/2.md). -/
inductive Instr where
  /-- `DECOMPOSE va` (R133): `A0 = va`. -/
  | decompose (x : Operands)
  /-- `SELROOT va, ttbr0, ttbr1` (R136). -/
  | selroot (x : Operands)
  /-- `DECODE raw, level` (R157): `A0 = raw`, `LVL = level`. -/
  | decode (level : Level) (x : Operands)
  /-- `WALK va, ttbr0, ttbr1` (R176). -/
  | walk (x : Operands)
  /-- `WALKR va` (R177). -/
  | walkr (x : Operands)
  /-- `WALKPC` (R178). -/
  | walkpc (x : Operands)
  /-- `ENUM tableBase, virtualPrefix, level, cap` (R210). -/
  | enum (level : Level) (cap : BitVec 10) (x : Operands)
  /-- `ENUMT tableBase, virtualPrefix, level, target` (R211): `cap` is carried and ignored. -/
  | enumt (level : Level) (cap : BitVec 10) (x : Operands)
  /-- `DESCRIBE dd` (R238). -/
  | describe (x : Operands)
  /-- An Invalid descriptor, at any level (R151). -/
  | descInvalid (level : Level) (raw : Word)
  /-- A Table descriptor at level 0, whatever its type bit (R152, R155). -/
  | descTableL0 (raw : Word)
  /-- A Table descriptor at level 1 or 2 (R152). -/
  | descTableL1L2 (level : Level) (raw : Word)
  /-- A 1 GiB Block descriptor, level 1 (R152, R153). -/
  | descBlockL1 (raw : Word)
  /-- A 2 MiB Block descriptor, level 2 (R152, R153). -/
  | descBlockL2 (raw : Word)
  /-- A Page descriptor, level 3, whatever its type bit (R152). -/
  | descPageL3 (raw : Word)
deriving DecidableEq, Repr

/-- What the engine decodes: a packet taken from the CMD channel, or a descriptor word received at a level. -/
inductive Fetched where
  | command (p : Packet)
  | descriptor (level : Level) (raw : Word)
deriving DecidableEq, Repr

end Sys2Proof
end

