-- ==== Sys2Proof/Config.lean ====
section
/-!
DEFINITION. The fixed parameters of the hardware (R8) the one parameter the spec leaves open (R9, D16), and the free
value.
-/
namespace Sys2Proof.Config

/-- `TP_MASK`, bits [47:12] (R8): a table base, and the output address of a Table or Page. -/
def tpMask : Word := 0x0000FFFFFFFFF000#64

/-- `BLK1_MASK`, bits [47:30] (R8): the output address of a level-1 Block. -/
def blk1Mask : Word := 0x0000FFFFC0000000#64

/-- `BLK2_MASK`, bits [47:21] (R8): the output address of a level-2 Block. -/
def blk2Mask : Word := 0x0000FFFFFFE00000#64

/-- `SIGN_EXT`, OR-ed into a recorded address whose bit 47 is set (R8, R206). -/
def signExt : Word := 0xFFFF000000000000#64

/-- `VA48_MASK`, the bits of a virtual address that indices and offset cover (R8). -/
def va48Mask : Word := 0x0000FFFFFFFFFFFF#64

/-- Bits {54, 53, 10, 9, 8, 7, 6, 4, 3, 2, 0}: what a packed descriptor keeps of the raw word in place (R108). -/
def ddKeepMask : Word := 0x00600000000007DD#64

/-- `KSEL_BIT`, the kernel-selector bit of a virtual address (R8, R131). -/
def kselBit : Nat := 55

/-- `ENTRIES`: descriptors in one table (R8). -/
def entries : Nat := 512

/-- `READ_LEN`: every physical read asks for 8 bytes (R9, R61). -/
def readLen : BitVec 8 := 8#8

/-- `shift(L)` (R8): where level `L`'s 9 index bits start. -/
def shift : Level → Nat
  | .l0 => 39
  | .l1 => 30
  | .l2 => 21
  | .l3 => 12

/-- `DEFAULT_CAP`: a parameter of the CALLER, left open by the spec (R9, D16, U13); the engine has no default and never reads
it. Only `Sys2Proof.enumWithDefaultCap` mentions it (notes/assumptions/20.md). -/
opaque defaultCap : BitVec 10

/-- A free value: what the working registers hold while the engine is idle, which the spec leaves unspecified (R20, R42, U8). `draw`
numbers the operations ended so far and `which` the place within one draw. No body: nothing can be proved of its value
(notes/assumptions/6.md). -/
opaque unspecified (draw which : Nat) : Word

end Sys2Proof.Config
end

