-- ==== Sys2Proof/Machine/DataModel.lean ====
section
/-!
DEFINITION. The engine's data model (10_state.md part 1, R21 to R30), the records of the RPT channel (R117) and the result
values of a walk and an enumeration (R27, R28). Types only.
-/
namespace Sys2Proof.Machine

/-- The permission and attribute fields of a valid descriptor (R24, R96). -/
structure Perm where
  ap : BitVec 2
  xn : Bool
  pxn : Bool
  af : Bool
  sh : BitVec 2
  attrIndex : BitVec 3
deriving DecidableEq, Repr

/-- A decoded descriptor (R24). An Invalid one has no other field (U1); `l0TypeWarn` is the level-0 warning (R155). -/
inductive Descriptor where
  | invalid
  | table (outputAddress : PA) (perm : Perm) (l0TypeWarn : Bool)
  | block (outputAddress : PA) (perm : Perm)
  | page (outputAddress : PA) (perm : Perm)
deriving DecidableEq, Repr

/-- `kind` of a descriptor (R24, R114). -/
inductive Kind where
  | invalid
  | table
  | block
  | page
deriving DecidableEq, Repr

/-- Why an operation did not succeed (R250). `registerUnavailable` is the reason of an abort only (R255). -/
inductive Reason where
  | invalidEntry
  | unreadableMemory
  | registerUnavailable
deriving DecidableEq, Repr

/-- The five register names of the REG channel (R75). `tcrEl1` and `sctlrEl1` are never requested (R38). -/
inductive RegSel where
  | ttbr0El1
  | ttbr1El1
  | tcrEl1
  | sctlrEl1
  | pc
deriving DecidableEq, Repr

/-- `accessClass` (R231). `unknown` is the source's marker for an unmapped code (R237). -/
inductive AccessClass where
  | rwPrivOnly
  | rwAll
  | roPrivOnly
  | roAll
  | unknown
deriving DecidableEq, Repr

/-- `shareability` (R232). `unknown` is the source's marker for an unmapped code (R237). -/
inductive Shareability where
  | nonShareable
  | reserved
  | outerShareable
  | innerShareable
  | unknown
deriving DecidableEq, Repr

/-- `executability` and `kernelExecutability` (R233, R234). -/
inductive Executability where
  | executable
  | notExecutable
deriving DecidableEq, Repr

/-- The result of the PermissionFormatter (R30). -/
structure PermissionDescription where
  accessClass : AccessClass
  executability : Executability
  kernelExecutability : Executability
  accessed : Bool
  shareability : Shareability
  memoryTypeIndex : BitVec 3
deriving DecidableEq, Repr

/-- Four 9-bit table indices (R21). -/
structure Indices where
  i0 : BitVec 9
  i1 : BitVec 9
  i2 : BitVec 9
  i3 : BitVec 9
deriving DecidableEq, Repr

/-- A decomposed virtual address (R130). -/
structure Decomposed where
  idx : Indices
  off : BitVec 12
  isKernel : Bool
deriving DecidableEq, Repr

/-- A record of the RPT channel, fields as in R117. A descriptor travels in packed form (R108). -/
inductive Record where
  /-- `W_ENTRY`: one descriptor read by a walk. -/
  | wEntry (level : Level) (index : BitVec 9) (tableBase entryAddress : PA) (raw dd : Word)
  /-- `E_ENTRY`: one node emitted by an enumeration. -/
  | eEntry (level : Level) (index : BitVec 9) (tableBase entryAddress : PA) (raw virtualAddressPrefix dd : Word)
  /-- `E_UNREAD`: one index of an enumeration whose read failed. -/
  | eUnread (level : Level) (index : BitVec 9) (tableBase entryAddress : PA)
  /-- `E_TABLE_END`: one table of an enumeration closed. -/
  | eTableEnd (level : Level) (tableBase : PA) (emitted : BitVec 10) (truncated : Bool)
  /-- `R_DECOMP`: terminal, of DECOMPOSE. -/
  | rDecomp (x : Decomposed)
  /-- `R_ROOT`: terminal, of SELROOT. -/
  | rRoot (tableBase : PA)
  /-- `R_DESC`: terminal, of DECODE. -/
  | rDesc (dd : Word)
  /-- `R_PERM`: terminal, of DESCRIBE. -/
  | rPerm (x : PermissionDescription)
  /-- `R_MAPPED`: terminal, a walk that mapped. -/
  | rMapped (finalPhysicalAddress : PA) (level : Level) (kind : Kind)
  /-- `R_FAULT`: terminal, a walk that faulted. -/
  | rFault (atLevel : Level) (reason : Reason) (entryAddress : PA)
  /-- `R_ABORT`: terminal, a register that could not be read. -/
  | rAbort (reason : Reason) (register : RegSel)
  /-- `R_ENUM_DONE`: terminal, of an enumeration. -/
  | rEnumDone
  /-- `R_ILLEGAL`: terminal, of an illegal packet. -/
  | rIllegal (cmdw : Cmdw)
deriving DecidableEq, Repr

/-- An externally visible event of an operation (R12): a MEM request, a REG request, or a record the sink took. -/
inductive Event where
  | mem (address : Word) (length : BitVec 8)
  | reg (sel : RegSel)
  | record (r : Record)
deriving DecidableEq, Repr

/-- One visited level of a walk (R26). -/
structure PathEntry where
  level : Level
  index : BitVec 9
  tableBase : PA
  entryAddress : PA
  raw : Word
  descriptor : Descriptor
deriving DecidableEq, Repr

/-- The result of a walk (R27). -/
inductive WalkResult where
  | mapped (finalPhysicalAddress : PA) (path : List PathEntry)
  | fault (atLevel : Level) (reason : Reason) (entryAddress : PA) (path : List PathEntry)
  | aborted (register : RegSel)
deriving DecidableEq, Repr

mutual

/-- A table of an enumeration's result (R28). -/
inductive TableNode where
  | node (level : Level) (tableBase : PA) (children : List Child) (emitted : Nat) (truncated : Bool)

/-- A child of a table (R28): an index whose read failed, or an emitted entry, with the table below it where its kind is Table. -/
inductive Child where
  | unread (level : Level) (tableBase : PA) (index : BitVec 9) (entryAddress : PA)
  | entry (level : Level) (tableBase : PA) (index : BitVec 9) (entryAddress : PA) (raw virtualAddressPrefix : Word)
      (descriptor : Descriptor) (sub : Option TableNode)

end

end Sys2Proof.Machine
end

