-- ==== Sys2Proof/Machine/State.lean ====
section
/-!
DEFINITION. The state of the engine and of the outside world it works in, the reasons a step can stop, and the state after
reset. INVENTORY.md lists every field with its rule.
-/
namespace Sys2Proof.Machine

/-- One frame of the enumeration stack (R33): an open table, the address prefix it stands under, the next index, how many
entries it has emitted, and whether the cap stopped it. `index` is 512 when no index is left. -/
structure Frame where
  base : PA
  vprefix : Word
  index : Nat
  emitted : Nat
  truncated : Bool
deriving DecidableEq, Repr

/-- `FR[0..3]` (R33). -/
structure Frames where
  f0 : Frame
  f1 : Frame
  f2 : Frame
  f3 : Frame
deriving DecidableEq, Repr

/-- A request on the MEM channel (R61). `tag` numbers the engine's requests, so that an answer to an abandoned one is known
(R281; notes/assumptions/11.md). -/
structure MemReq where
  address : Word
  length : BitVec 8
  tag : Nat
deriving DecidableEq, Repr

/-- A request on the REG channel (R75), tagged likewise. -/
structure RegReq where
  sel : RegSel
  tag : Nat
deriving DecidableEq, Repr

/-- Which blocking primitive the engine waits in (R35). The engine is `IDLE` exactly in `idle` (R34); at most one request is
outstanding (R71), and it is the one the constructor holds. -/
inductive Wait where
  | idle
  | mem (q : MemReq)
  | reg (q : RegReq)
  | rpt (r : Record)
deriving DecidableEq, Repr

/-- `ST` (R34). -/
inductive Status where
  | idle
  | busy
deriving DecidableEq, Repr

/-- The inspected system's physical memory, as the MemoryReader answers for it (R61, R77). `cells` lists bytes in rising order of
address and none equal to `fill`; `fill` is what an unlisted byte answers, `none` where it is not backed; a read at an address of
`failing` fails whatever is there (R62). -/
structure Memory where
  cells : List Host.Cell
  fill : Option Byte
  failing : List Nat
deriving DecidableEq, Repr

/-- The inspected system's named registers (R75); `none` is `Unavailable`, an answer of the spec's own. -/
structure SysRegs where
  ttbr0El1 : Option Word
  ttbr1El1 : Option Word
  tcrEl1 : Option Word
  sctlrEl1 : Option Word
  pc : Option Word
deriving DecidableEq, Repr

/-- Something the outside world does (notes/assumptions/10.md). -/
inductive Input where
  /-- The outside does nothing while the engine makes its next move, if it can: what stands before this input happened before the
  move, what stands after it happens after. -/
  | turn
  /-- The host offers a packet on the CMD channel (R110). -/
  | command (p : Packet)
  /-- The engine is reset (R281). -/
  | reset
  /-- The engine is reset inside its next move (R281): after the first transaction of that move, the packet accepted, the answer
  received or the record taken, and before anything that would follow. -/
  | resetMidway
  /-- The MemoryReader answers the MEM request of that tag, `none` for `Fail` (R61). -/
  | memAnswer (tag : Nat) (answer : Option Bytes8)
  /-- The MemoryReader answers the REG request of that tag, `none` for `Unavailable` (R75). -/
  | regAnswer (tag : Nat) (answer : Option Word)
  /-- The sink takes the one record that is pending (R287). -/
  | sinkTake
  /-- From now on the sink takes records at once, or it takes none of itself (R282, R287). -/
  | setSink (ready : Bool)
  /-- From now on the MemoryReader answers at once from the inspected system, or it does not answer of itself (R282, R286). -/
  | setReader (live : Bool)
  /-- The inspected system's memory changes at one byte (R284). -/
  | memoryChange (address : Word) (value : Byte)
  /-- Reads at an address begin to fail, or cease to (R62). -/
  | memoryFails (address : Word) (fails : Bool)
  /-- A named register of the inspected system changes, or ceases to be readable (R284, R75). -/
  | registerChange (sel : RegSel) (value : Option Word)
deriving DecidableEq, Repr

/-- The whole state. The engine's own registers hold values the spec calls unspecified while it is idle (U8). -/
structure State where
  /-- The sequencing position (R35), with the outstanding request or pending record; `ST` is read off it (R34). -/
  wait : Wait
  /-- Packets waiting on the CMD channel, the first to be accepted first (R110). -/
  cmd : List Packet
  /-- `OP` (R31). -/
  op : BitVec 4
  /-- `LVL` (R31). -/
  lvl : BitVec 2
  /-- `CAP` (R31). -/
  cap : BitVec 10
  /-- `A0` (R31). -/
  a0 : Word
  /-- `A1` (R31). -/
  a1 : Word
  /-- `A2` (R31). -/
  a2 : Word
  /-- `VA` (R32). -/
  va : Word
  /-- `IDX[0..3]` (R32). -/
  idx : Indices
  /-- `OFF` (R32). -/
  off : BitVec 12
  /-- `BASE` (R32). -/
  base : PA
  /-- `L` (R32). -/
  level : Level
  /-- `EA` (R32); an enumeration's entry address too (notes/assumptions/27.md). -/
  ea : PA
  /-- `RAW` (R32); an enumeration's descriptor word too (notes/assumptions/27.md). -/
  raw : Word
  /-- `D` (R32); an enumeration's descriptor too (notes/assumptions/27.md). -/
  desc : Descriptor
  /-- `T0` (R32). -/
  t0 : Word
  /-- `T1` (R32). -/
  t1 : Word
  /-- `PATHLEN` (R32). -/
  pathLen : Nat
  /-- `FR[0..3]` (R33). -/
  frames : Frames
  /-- `TOP` (R33). -/
  top : Level
  /-- `START` (R33). -/
  start : Level
  /-- `FILT` (R33). -/
  filt : Bool
  /-- `TARGET` (R33). -/
  target : Word
  /-- The inspected system's physical memory. -/
  mem : Memory
  /-- The inspected system's named registers. -/
  regs : SysRegs
  /-- Whether the MemoryReader answers at once from `mem` and `regs`. -/
  readerLive : Bool
  /-- Whether the sink takes records at once. -/
  sinkReady : Bool
  /-- What the outside world does next, in order, and the engine's turns in between. The model's own field. -/
  inputs : List Input
  /-- How many times the registers became unspecified: the counter of the free values. The model's own field. -/
  draws : Nat
  /-- How many requests the engine has issued. The model's own field. -/
  txn : Nat
  /-- The requests and records so far, oldest first. The model's own field. -/
  trace : List Event
deriving DecidableEq, Repr

/-- Why the machine has no next state. Each is the spec's hang (R286, R287; U11, treatment "stuck"): the engine is BUSY in a
blocking primitive, and no input is left that could end the wait. Safe: the engine has no step there except reset. -/
inductive Fault where
  /-- Raised by `advance` when a MEM request stays unanswered (R286). Safe. -/
  | memoryUnanswered
  /-- Raised by `advance` when a REG request stays unanswered (R286). Safe. -/
  | registerUnanswered
  /-- Raised by `advance` when the sink does not take the pending record (R287). Safe. -/
  | sinkStalled
deriving DecidableEq, Repr

/-- Why a step has no meaning. No arm of `exec` refuses and no meaning does. -/
inductive Refusal where
  /-- Raised by an arm of `exec` whose instruction has no meaning yet; there is none. Safe. -/
  | notModelled (mnemonic : String)
deriving DecidableEq, Repr

/-- An empty enumeration frame, a value named for reset (notes/assumptions/5.md). -/
def Frame.zero : Frame := { base := 0, vprefix := 0, index := 0, emitted := 0, truncated := false }

/-- The machine right after reset (R42, R280): idle, nothing outstanding, nothing pending, ready for a packet. The working
registers, which the spec leaves unspecified, hold 0 (notes/assumptions/5.md); the outside world, which reset does not touch, is
the one notes/assumptions/7.md, 8.md and 9.md name. -/
def State.reset : State :=
  { wait := .idle
    cmd := []
    op := 0
    lvl := 0
    cap := 0
    a0 := 0
    a1 := 0
    a2 := 0
    va := 0
    idx := { i0 := 0, i1 := 0, i2 := 0, i3 := 0 }
    off := 0
    base := 0
    level := .l0
    ea := 0
    raw := 0
    desc := .invalid
    t0 := 0
    t1 := 0
    pathLen := 0
    frames := { f0 := .zero, f1 := .zero, f2 := .zero, f3 := .zero }
    top := .l0
    start := .l0
    filt := false
    target := 0
    mem := { cells := [], fill := some 0, failing := [] }
    regs := { ttbr0El1 := some 0, ttbr1El1 := some 0, tcrEl1 := some 0, sctlrEl1 := some 0, pc := some 0 }
    readerLive := true
    sinkReady := true
    inputs := []
    draws := 0
    txn := 0
    trace := [] }

end Sys2Proof.Machine
end

