-- ==== Sys2Proof/Machine/Memory.lean ====
section
/-!
DEFINITION. The inspected system as the MemoryReader answers for it: bytes, the 8-byte read (R61), byte order (R63), and the
changes the outside makes. The engine writes nothing (R67); only inputs call the writing operations.
-/
namespace Sys2Proof.Machine

/-- `le64` (R63): the byte at the lowest address is the least significant. -/
def le64 (b : Bytes8) : Word := b.b7 ++ b.b6 ++ b.b5 ++ b.b4 ++ b.b3 ++ b.b2 ++ b.b1 ++ b.b0

/-- The bytes of a word in the order of R63. -/
def bytesOf (w : Word) : Bytes8 :=
  { b0 := w.extractLsb' 0 8
    b1 := w.extractLsb' 8 8
    b2 := w.extractLsb' 16 8
    b3 := w.extractLsb' 24 8
    b4 := w.extractLsb' 32 8
    b5 := w.extractLsb' 40 8
    b6 := w.extractLsb' 48 8
    b7 := w.extractLsb' 56 8 }

/-- The listed byte at an address. -/
def lookupCell (a : Nat) : List Host.Cell → Option Byte
  | [] => none
  | (x, v) :: rest => if x = a then some v else lookupCell a rest

/-- The list with the byte at `a` set, kept in rising order and without an entry equal to `fill`. -/
def setCell (fill : Option Byte) (a : Nat) (b : Byte) : List Host.Cell → List Host.Cell
  | [] => if fill = some b then [] else [(a, b)]
  | (x, v) :: rest =>
    if a < x then (if fill = some b then (x, v) :: rest else (a, b) :: (x, v) :: rest)
    else if a = x then (if fill = some b then rest else (a, b) :: rest)
    else (x, v) :: setCell fill a b rest

/-- A rising list of addresses with one more. -/
def insertAddress (a : Nat) : List Nat → List Nat
  | [] => [a]
  | x :: rest => if a < x then a :: x :: rest else if a = x then x :: rest else x :: insertAddress a rest

/-- A list of addresses without one of them. -/
def removeAddress (a : Nat) : List Nat → List Nat
  | [] => []
  | x :: rest => if a = x then removeAddress a rest else x :: removeAddress a rest

/-- The byte the inspected system holds at an address: the listed one, else what an unlisted byte answers. There is no address at
or above `2^64` (R60). -/
def Memory.byteAt (m : Memory) (a : Nat) : Option Byte :=
  if 2 ^ 64 ≤ a then none else (lookupCell a m.cells).or m.fill

/-- `MemRead(addr, 8)` answered from the inspected system (R61): 8 bytes, or `Fail` when the transport fails there or a byte is not
backed (R62). -/
def Memory.read8 (m : Memory) (address : Word) : Option Bytes8 :=
  let a := address.toNat
  if m.failing.contains a then none
  else
    match m.byteAt a, m.byteAt (a + 1), m.byteAt (a + 2), m.byteAt (a + 3), m.byteAt (a + 4), m.byteAt (a + 5),
      m.byteAt (a + 6), m.byteAt (a + 7) with
    | some b0, some b1, some b2, some b3, some b4, some b5, some b6, some b7 => some ⟨b0, b1, b2, b3, b4, b5, b6, b7⟩
    | _, _, _, _, _, _, _, _ => none

/-- The inspected system changes one of its bytes. -/
def Memory.setByte (m : Memory) (address : Word) (b : Byte) : Memory :=
  { m with cells := setCell m.fill address.toNat b m.cells }

/-- Eight bytes at and above an address set, in the order of R63; addresses wrap at `2^64`. -/
def Memory.setWord (m : Memory) (address w : Word) : Memory :=
  let b := bytesOf w
  (((((((m.setByte address b.b0).setByte (address + 1) b.b1).setByte (address + 2) b.b2).setByte (address + 3) b.b3).setByte
    (address + 4) b.b4).setByte (address + 5) b.b5).setByte (address + 6) b.b6).setByte (address + 7) b.b7

/-- Reads at an address begin to fail, or cease to (R62). -/
def Memory.setFailing (m : Memory) (address : Word) (fails : Bool) : Memory :=
  { m with
    failing := if fails then insertAddress address.toNat m.failing else removeAddress address.toNat m.failing }

/-- Whether addresses rise strictly and stay above a bound. -/
def risesFrom (bound : Nat) : List Nat → Bool
  | [] => true
  | x :: rest => decide (bound ≤ x) && risesFrom (x + 1) rest

/-- The canonical form: listed and failing addresses rise strictly below `2^64`, and no entry equals what an unlisted byte answers. -/
def Memory.wf (m : Memory) : Bool :=
  risesFrom 0 (m.cells.map Prod.fst) && risesFrom 0 m.failing && m.cells.all (fun c => decide (c.1 < 2 ^ 64)) &&
    m.failing.all (fun a => decide (a < 2 ^ 64)) && m.cells.all (fun c => decide (m.fill ≠ some c.2))

/-- `RegRead(sel)` answered from the inspected system (R75). -/
def SysRegs.get (r : SysRegs) : RegSel → Option Word
  | .ttbr0El1 => r.ttbr0El1
  | .ttbr1El1 => r.ttbr1El1
  | .tcrEl1 => r.tcrEl1
  | .sctlrEl1 => r.sctlrEl1
  | .pc => r.pc

/-- A named register of the inspected system changes. -/
def SysRegs.set (r : SysRegs) (sel : RegSel) (v : Option Word) : SysRegs :=
  match sel with
  | .ttbr0El1 => { r with ttbr0El1 := v }
  | .ttbr1El1 => { r with ttbr1El1 := v }
  | .tcrEl1 => { r with tcrEl1 := v }
  | .sctlrEl1 => { r with sctlrEl1 := v }
  | .pc => { r with pc := v }

end Sys2Proof.Machine
end

