-- ==== Sys2Proof/Decode.lean ====
section
/-!
DEFINITION. From bits to `Instr` and back: the command word (R111, R112, R115), the kind table of a descriptor word (R94), and
the encoder. Decoding is total; a packet that is no operation is answered `none`, and the engine reports it (R256).
-/
namespace Sys2Proof

/-- A level from the two bits of `LVL` (R111). -/
def Level.ofBits (b : BitVec 2) : Level :=
  if b = 0#2 then .l0 else if b = 1#2 then .l1 else if b = 2#2 then .l2 else .l3

/-- A level as a `u2` (R111, R117). -/
def Level.bits : Level → BitVec 2
  | .l0 => 0#2
  | .l1 => 1#2
  | .l2 => 2#2
  | .l3 => 3#2

/-- The level one below in the hierarchy. Level 3 has none: no Table occurs there (R152), and the value is then never used
(notes/assumptions/19.md). -/
def Level.succ : Level → Level
  | .l0 => .l1
  | .l1 => .l2
  | .l2 => .l3
  | .l3 => .l3

/-- The level one above in the hierarchy; level 0 has none, and the value is then never used (notes/assumptions/19.md). -/
def Level.pred : Level → Level
  | .l0 => .l0
  | .l1 => .l0
  | .l2 => .l1
  | .l3 => .l2

/-- A level as a number. -/
def Level.toNat : Level → Nat
  | .l0 => 0
  | .l1 => 1
  | .l2 => 2
  | .l3 => 3

/-- `OP`, bits [3:0] of `CMDW` (R111). -/
def cmdOp (c : Cmdw) : BitVec 4 := c.extractLsb' 0 4

/-- `LVL`, bits [5:4] of `CMDW` (R111). -/
def cmdLvl (c : Cmdw) : BitVec 2 := c.extractLsb' 4 2

/-- `CAP`, bits [17:8] of `CMDW` (R111). -/
def cmdCap (c : Cmdw) : BitVec 10 := c.extractLsb' 8 10

/-- The operand words of a packet. -/
def Packet.operands (p : Packet) : Operands := ⟨p.a0, p.a1, p.a2⟩

/-- A command word is a row's operation iff `CMDW & mask == match` (R112). -/
def cmdMatches (c mask pattern : Cmdw) : Bool := c &&& mask == pattern

/-- The operation of a packet, row by row of R112; `none` for an illegal packet (R115). -/
def decodePacket (p : Packet) : Option Instr :=
  let level := Level.ofBits (cmdLvl p.cmdw)
  let cap := cmdCap p.cmdw
  let x := p.operands
  if cmdMatches p.cmdw 0xFFFFFFFF#32 0x00000001#32 then some (.decompose x)
  else if cmdMatches p.cmdw 0xFFFFFFFF#32 0x00000002#32 then some (.selroot x)
  else if cmdMatches p.cmdw 0xFFFFFFCF#32 0x00000003#32 then some (.decode level x)
  else if cmdMatches p.cmdw 0xFFFFFFFF#32 0x00000004#32 then some (.walk x)
  else if cmdMatches p.cmdw 0xFFFFFFFF#32 0x00000005#32 then some (.walkr x)
  else if cmdMatches p.cmdw 0xFFFFFFFF#32 0x00000006#32 then some (.walkpc x)
  else if cmdMatches p.cmdw 0xFFFC00CF#32 0x00000007#32 then some (.enum level cap x)
  else if cmdMatches p.cmdw 0xFFFC00CF#32 0x00000008#32 then some (.enumt level cap x)
  else if cmdMatches p.cmdw 0xFFFFFFFF#32 0x00000009#32 then some (.describe x)
  else none

/-- The row of the kind table a descriptor word falls in at a level (R94). Every word falls in exactly one. -/
def decodeRow (level : Level) (raw : Word) : Instr :=
  if raw.getLsbD 0 then
    match level with
    | .l0 => .descTableL0 raw
    | .l1 => if raw.getLsbD 1 then .descTableL1L2 .l1 raw else .descBlockL1 raw
    | .l2 => if raw.getLsbD 1 then .descTableL1L2 .l2 raw else .descBlockL2 raw
    | .l3 => .descPageL3 raw
  else .descInvalid level raw

/-- The decoder over everything the engine fetches. -/
def decode : Fetched → Option Instr
  | .command p => decodePacket p
  | .descriptor level raw => some (decodeRow level raw)

/-- A packet from its fields (R111): `OP` [3:0], `LVL` [5:4], `CAP` [17:8], all other bits 0. -/
def commandPacket (op : BitVec 4) (lvl : BitVec 2) (cap : BitVec 10) (x : Operands) : Packet :=
  { cmdw := op.setWidth 32 ||| (lvl.setWidth 32 <<< 4) ||| (cap.setWidth 32 <<< 8)
    a0 := x.a0
    a1 := x.a1
    a2 := x.a2 }

/-- The encoder: the packet of a command (R112), or the word of a descriptor row with its level. -/
def encode : Instr → Fetched
  | .decompose x => .command (commandPacket 1#4 0#2 0#10 x)
  | .selroot x => .command (commandPacket 2#4 0#2 0#10 x)
  | .decode level x => .command (commandPacket 3#4 level.bits 0#10 x)
  | .walk x => .command (commandPacket 4#4 0#2 0#10 x)
  | .walkr x => .command (commandPacket 5#4 0#2 0#10 x)
  | .walkpc x => .command (commandPacket 6#4 0#2 0#10 x)
  | .enum level cap x => .command (commandPacket 7#4 level.bits cap x)
  | .enumt level cap x => .command (commandPacket 8#4 level.bits cap x)
  | .describe x => .command (commandPacket 9#4 0#2 0#10 x)
  | .descInvalid level raw => .descriptor level raw
  | .descTableL0 raw => .descriptor .l0 raw
  | .descTableL1L2 level raw => .descriptor level raw
  | .descBlockL1 raw => .descriptor .l1 raw
  | .descBlockL2 raw => .descriptor .l2 raw
  | .descPageL3 raw => .descriptor .l3 raw

/-- `ENUM` as a caller issues it who wants the default cap, a parameter of the caller (D16). -/
def enumWithDefaultCap (level : Level) (x : Operands) : Instr := .enum level Config.defaultCap x

/-- The level at which a descriptor word that stands alone is read: the table gives its descriptor rows a level in words, not in
bits, so a word alone does not fix it. DESIGN CHOICE, level 1, where the word reaches three of the six rows
(notes/assumptions/3.md). -/
def loneDescriptorLevel : Level := .l1

/-- What an opcode-table word of `nbits` bits is to the engine: a 64-bit row is a descriptor word, any other a packet whose
`CMDW` is the low 32 bits and whose operand words are the bits above. -/
def fetchedOfTableWord (nbits w : Nat) : Fetched :=
  if nbits = 64 then .descriptor loneDescriptorLevel (BitVec.ofNat 64 w)
  else
    .command
      { cmdw := BitVec.ofNat 32 w
        a0 := BitVec.ofNat 64 (w / 2 ^ 32)
        a1 := BitVec.ofNat 64 (w / 2 ^ 96)
        a2 := BitVec.ofNat 64 (w / 2 ^ 160) }

/-- The instruction the decoder reads from an opcode-table word. -/
def decodeTableWord (nbits w : Nat) : Option Instr := decode (fetchedOfTableWord nbits w)

end Sys2Proof
end

