-- ==== Sys2Proof/Machine/Codes.lean ====
section
/-!
DEFINITION. The numeric codes of the enumerations on the ports (R114), and which records are terminal (R117).
-/
namespace Sys2Proof.Machine

/-- The kind of a descriptor (R24). -/
def Descriptor.kind : Descriptor → Kind
  | .invalid => .invalid
  | .table _ _ _ => .table
  | .block _ _ => .block
  | .page _ _ => .page

/-- `kind` code (R114). -/
def Kind.code : Kind → BitVec 2
  | .invalid => 0#2
  | .table => 1#2
  | .block => 2#2
  | .page => 3#2

/-- `reason` code (R114). -/
def Reason.code : Reason → BitVec 2
  | .invalidEntry => 1#2
  | .unreadableMemory => 2#2
  | .registerUnavailable => 3#2

/-- `RegSel` code (R114). -/
def RegSel.code : RegSel → BitVec 3
  | .ttbr0El1 => 0#3
  | .ttbr1El1 => 1#3
  | .tcrEl1 => 2#3
  | .sctlrEl1 => 3#3
  | .pc => 4#3

/-- `accessClass` code (R114). -/
def AccessClass.code : AccessClass → BitVec 3
  | .rwPrivOnly => 0#3
  | .rwAll => 1#3
  | .roPrivOnly => 2#3
  | .roAll => 3#3
  | .unknown => 7#3

/-- `shareability` code (R114). -/
def Shareability.code : Shareability → BitVec 3
  | .nonShareable => 0#3
  | .reserved => 1#3
  | .outerShareable => 2#3
  | .innerShareable => 3#3
  | .unknown => 7#3

/-- `executability` code (R114). -/
def Executability.code : Executability → BitVec 1
  | .executable => 0#1
  | .notExecutable => 1#1

/-- Record type code (R114). -/
def Record.typeCode : Record → BitVec 4
  | .wEntry _ _ _ _ _ _ => 1#4
  | .eEntry _ _ _ _ _ _ _ => 2#4
  | .eUnread _ _ _ _ => 3#4
  | .eTableEnd _ _ _ _ => 4#4
  | .rDecomp _ => 8#4
  | .rRoot _ => 9#4
  | .rDesc _ => 10#4
  | .rPerm _ => 11#4
  | .rMapped _ _ _ => 12#4
  | .rFault _ _ _ => 13#4
  | .rAbort _ _ => 14#4
  | .rEnumDone => 15#4
  | .rIllegal _ => 0#4

/-- Whether a record ends its operation (R117). -/
def Record.terminal : Record → Bool
  | .wEntry _ _ _ _ _ _ => false
  | .eEntry _ _ _ _ _ _ _ => false
  | .eUnread _ _ _ _ => false
  | .eTableEnd _ _ _ _ => false
  | .rDecomp _ => true
  | .rRoot _ => true
  | .rDesc _ => true
  | .rPerm _ => true
  | .rMapped _ _ _ => true
  | .rFault _ _ _ => true
  | .rAbort _ _ => true
  | .rEnumDone => true
  | .rIllegal _ => true

end Sys2Proof.Machine
end

