-- ==== Sys2Proof/Machine/Flags.lean ====
section
/-!
DEFINITION. The engine has no flags and no condition codes (R40). What R40 names in their place are two diagnostic bits that travel
in records: the level-0 warning of a descriptor (R155) and the truncation mark of a table (R204). They are computed here.
-/
namespace Sys2Proof.Machine

/-- `valid` (R151). -/
def validBit (raw : Word) : Bool := raw.getLsbD 0

/-- `typeBit` (R152). -/
def typeBit (raw : Word) : Bool := raw.getLsbD 1

/-- `l0TypeWarn` (R155): a valid level-0 entry whose type bit is 0. -/
def l0TypeWarn (raw : Word) (level : Level) : Bool := (level == .l0) && validBit raw && !typeBit raw

/-- Whether a table is cut off before its next index (R204): only without a filter, once the cap is reached. -/
def capReached (filt : Bool) (cap : Nat) (emitted : Nat) : Bool := !filt && decide (cap ≤ emitted)

end Sys2Proof.Machine
end

