-- ==== Sys2Proof/Machine/Operands.lean ====
section
/-!
DEFINITION. How the operand words and fields of a command are read (R113), the AddressDecomposer (R130 to R136), entry addresses
(R66, R121), block and page offsets (R173, R174), enumeration prefixes (R206), and the registers indexed by level.
-/
namespace Sys2Proof.Machine

/-- `IDX[L]`. -/
def Indices.get (x : Indices) : Level → BitVec 9
  | .l0 => x.i0
  | .l1 => x.i1
  | .l2 => x.i2
  | .l3 => x.i3

/-- `FR[L]`. -/
def Frames.get (f : Frames) : Level → Frame
  | .l0 => f.f0
  | .l1 => f.f1
  | .l2 => f.f2
  | .l3 => f.f3

/-- `FR[L] <- x`. -/
def Frames.set (f : Frames) (level : Level) (x : Frame) : Frames :=
  match level with
  | .l0 => { f with f0 := x }
  | .l1 => { f with f1 := x }
  | .l2 => { f with f2 := x }
  | .l3 => { f with f3 := x }

/-- `idx(va, L)` (R130). -/
def indexAt (va : Word) (level : Level) : BitVec 9 := va.extractLsb' (Config.shift level) 9

/-- `isKernel(va)`, the one bit 55 (R131). -/
def isKernel (va : Word) : Bool := va.getLsbD Config.kselBit

/-- `Decompose(va)` (R130). -/
def decompose (va : Word) : Decomposed :=
  { idx := { i0 := indexAt va .l0, i1 := indexAt va .l1, i2 := indexAt va .l2, i3 := indexAt va .l3 }
    off := va.extractLsb' 0 12
    isKernel := isKernel va }

/-- Indices and offset put together again (R132). -/
def reconstruct (d : Decomposed) : Word :=
  (d.idx.i0.setWidth 64 <<< 39) ||| (d.idx.i1.setWidth 64 <<< 30) ||| (d.idx.i2.setWidth 64 <<< 21) |||
    (d.idx.i3.setWidth 64 <<< 12) ||| d.off.setWidth 64

/-- A table base from any value in TTBR format (R22, R92): bits [47:12], in place. -/
def tableBaseOf (v : Word) : PA := (v &&& Config.tpMask).setWidth 48

/-- `SelectRoot(va, ttbr0, ttbr1)` (R134). -/
def selectRoot (va ttbr0 ttbr1 : Word) : PA := if isKernel va then tableBaseOf ttbr1 else tableBaseOf ttbr0

/-- The entry address of an index of a table (R66). -/
def entryAddress (base : PA) (index : BitVec 9) : PA := base + (index.setWidth 48 <<< 3)

/-- `(1 << shift(L)) - 1` (R121, R173). -/
def blockOffsetMask (level : Level) : Word := (1#64 <<< Config.shift level) - 1#64

/-- The final address of a block (R173). -/
def blockAddress (outputAddress : PA) (va : Word) (level : Level) : PA :=
  outputAddress ||| (va &&& blockOffsetMask level).setWidth 48

/-- The final address of a page (R174). -/
def pageAddress (outputAddress : PA) (off : BitVec 12) : PA := outputAddress ||| off.setWidth 48

/-- `cp` (R206): the address prefix under an index. -/
def childPrefix (vprefix : Word) (index : BitVec 9) (level : Level) : Word :=
  vprefix ||| (index.setWidth 64 <<< Config.shift level)

/-- `rec` (R206): the recorded form of a prefix, sign-extended when its bit 47 is set. -/
def recordedPrefix (cp : Word) : Word := if cp.getLsbD 47 then cp ||| Config.signExt else cp

/-- The first index a table's loop visits (R201): 0, or the target's index when there is a filter. -/
def firstIndex (filt : Bool) (target : Word) (level : Level) : Nat := if filt then (indexAt target level).toNat else 0

/-- The index after one that was visited (R201): the next one, or none (512) when there is a filter. -/
def nextIndex (filt : Bool) (index : Nat) : Nat := if filt then Config.entries else index + 1

/-- Whether the running operation is an enumeration, ENUM or ENUMT (R112). -/
def isEnumeration (op : BitVec 4) : Bool := op == 7#4 || op == 8#4

end Sys2Proof.Machine
end

