-- ==== Sys2Proof/Machine/DescriptorDecoder.lean ====
section
/-!
DEFINITION. The DescriptorDecoder (R150 to R157) and the packed form of its result (R108).
-/
namespace Sys2Proof.Machine

/-- `Perm(raw)` (R96, R154). -/
def permOf (raw : Word) : Perm :=
  { ap := raw.extractLsb' 6 2
    xn := raw.getLsbD 54
    pxn := raw.getLsbD 53
    af := raw.getLsbD 10
    sh := raw.extractLsb' 8 2
    attrIndex := raw.extractLsb' 2 3 }

/-- `Kind(raw, level)` of a valid descriptor (R152). -/
def kindOf (raw : Word) (level : Level) : Kind :=
  match level with
  | .l0 => .table
  | .l1 => if typeBit raw then .table else .block
  | .l2 => if typeBit raw then .table else .block
  | .l3 => .page

/-- Output address of a Table or a Page: bits [47:12] (R153). -/
def tableOrPageAddress (raw : Word) : PA := (raw &&& Config.tpMask).setWidth 48

/-- Output address of a level-1 Block: bits [47:30] (R153). -/
def block1Address (raw : Word) : PA := (raw &&& Config.blk1Mask).setWidth 48

/-- Output address of a level-2 Block: bits [47:21] (R153). -/
def block2Address (raw : Word) : PA := (raw &&& Config.blk2Mask).setWidth 48

/-- Output address of a Block by level (R153); a Block occurs at levels 1 and 2 only. -/
def blockOutputAddress (raw : Word) (level : Level) : PA :=
  match level with
  | .l0 => block1Address raw
  | .l1 => block1Address raw
  | .l2 => block2Address raw
  | .l3 => block2Address raw

/-- `Decode(raw, level)` (R150). -/
def decodeDescriptor (raw : Word) (level : Level) : Descriptor :=
  if validBit raw then
    match kindOf raw level with
    | .invalid => .invalid
    | .table => .table (tableOrPageAddress raw) (permOf raw) (l0TypeWarn raw level)
    | .block => .block (blockOutputAddress raw level) (permOf raw)
    | .page => .page (tableOrPageAddress raw) (permOf raw)
  else .invalid

/-- One bit at a position of a word. -/
def bitAt (b : Bool) (n : Nat) : Word := if b then 1#64 <<< n else 0#64

/-- The permission slices at their raw positions (R108). -/
def packPerm (p : Perm) : Word :=
  (p.attrIndex.setWidth 64 <<< 2) ||| (p.ap.setWidth 64 <<< 6) ||| (p.sh.setWidth 64 <<< 8) ||| bitAt p.af 10 |||
    bitAt p.pxn 53 ||| bitAt p.xn 54

/-- A valid descriptor's DD from its fields (R108): `valid`, output address, permissions, `kind` in [56:55], warning in [57]. -/
def packValid (outputAddress : PA) (p : Perm) (kind : Kind) (warn : Bool) : Word :=
  1#64 ||| outputAddress.setWidth 64 ||| packPerm p ||| (kind.code.setWidth 64 <<< 55) ||| bitAt warn 57

/-- `pack(d)`, the DD of a descriptor (R108). -/
def pack (d : Descriptor) : Word :=
  match d with
  | .invalid => 0#64
  | .table oa p w => packValid oa p .table w
  | .block oa p => packValid oa p .block false
  | .page oa p => packValid oa p .page false

end Sys2Proof.Machine
end

