-- ==== Sys2Proof/Machine/PermissionFormatter.lean ====
section
/-!
DEFINITION. The PermissionFormatter (R230 to R239).
-/
namespace Sys2Proof.Machine

/-- `accessClass` from `ap` (R231); any other code would be `unknown` (R237). -/
def apClass (ap : BitVec 2) : AccessClass :=
  if ap = 0#2 then .rwPrivOnly
  else if ap = 1#2 then .rwAll
  else if ap = 2#2 then .roPrivOnly
  else if ap = 3#2 then .roAll
  else .unknown

/-- `shareability` from `sh` (R232); any other code would be `unknown` (R237). -/
def shClass (sh : BitVec 2) : Shareability :=
  if sh = 0#2 then .nonShareable
  else if sh = 1#2 then .reserved
  else if sh = 2#2 then .outerShareable
  else if sh = 3#2 then .innerShareable
  else .unknown

/-- `executability` from `xn`, and `kernelExecutability` from `pxn` (R233, R234). -/
def xnClass (xn : Bool) : Executability := if xn then .notExecutable else .executable

/-- `Describe(perm)` (R230). -/
def describe (p : Perm) : PermissionDescription :=
  { accessClass := apClass p.ap
    executability := xnClass p.xn
    kernelExecutability := xnClass p.pxn
    accessed := p.af
    shareability := shClass p.sh
    memoryTypeIndex := p.attrIndex }

/-- The permission fields DESCRIBE reads from a DD (R109, R238): the same slices as of a raw word. -/
def permOfDD (dd : Word) : Perm :=
  { ap := dd.extractLsb' 6 2
    xn := dd.getLsbD 54
    pxn := dd.getLsbD 53
    af := dd.getLsbD 10
    sh := dd.extractLsb' 8 2
    attrIndex := dd.extractLsb' 2 3 }

end Sys2Proof.Machine
end

