-- ==== Sys2Proof/Machine/Ops.lean ====
section
/-!
DEFINITION. The operations every command shares: status, latching, the three blocking primitives (R11), the ways an operation can
end other than in success (60_exceptions.md), and reset.
-/
namespace Sys2Proof.Machine

/-- `ST` (R34): busy exactly while an operation waits in a primitive. -/
def State.status (s : State) : Status :=
  match s.wait with
  | .idle => .idle
  | .mem _ => .busy
  | .reg _ => .busy
  | .rpt _ => .busy

/-- The operand latches written when a packet is accepted (R31). -/
def latch (p : Packet) (s : State) : State :=
  { s with op := cmdOp p.cmdw, lvl := cmdLvl p.cmdw, cap := cmdCap p.cmdw, a0 := p.a0, a1 := p.a1, a2 := p.a2 }

/-- `Report(rec)` begins (R11, R116): the record is offered, and the engine waits until the sink takes it. -/
def offer (r : Record) (s : State) : State := { s with wait := .rpt r }

/-- The sink takes a record. -/
def logRecord (r : Record) (s : State) : State := { s with trace := s.trace ++ [.record r] }

/-- `MemRead(EA, 8)` begins (R61, R64): `EA` is written and the request issued. R32 gives `EA` to the walks; that an enumeration keeps
its entry address there too is a DESIGN CHOICE (notes/assumptions/27.md). -/
def requestMem (ea : PA) (s : State) : State :=
  { s with
    ea := ea
    wait := .mem { address := ea.setWidth 64, length := Config.readLen, tag := s.txn }
    txn := s.txn + 1
    trace := s.trace ++ [.mem (ea.setWidth 64) Config.readLen] }

/-- `RegRead(sel)` begins (R75). -/
def requestReg (sel : RegSel) (s : State) : State :=
  { s with
    wait := .reg { sel := sel, tag := s.txn }
    txn := s.txn + 1
    trace := s.trace ++ [.reg sel] }

/-- `raise Fault(L, reason, ea)` (R259): the terminal record of a faulting walk. Nothing is saved, and there is no way back. -/
def raiseFault (level : Level) (reason : Reason) (ea : PA) (s : State) : State := offer (.rFault level reason ea) s

/-- `raise Abort(reg)` (R255). -/
def raiseAbort (sel : RegSel) (s : State) : State := offer (.rAbort .registerUnavailable sel) s

/-- The end of an illegal packet (R256). -/
def raiseIllegal (cmdw : Cmdw) (s : State) : State := offer (.rIllegal cmdw) s

/-- A frame of free values, from the `n`-th on; what R22 and R33 say of a frame's fields holds of it. -/
def unspecifiedFrame (w : Nat → Word) (n : Nat) : Frame :=
  { base := tableBaseOf (w n)
    vprefix := w (n + 1)
    index := (w (n + 2)).toNat % 513
    emitted := (w (n + 3)).toNat % 513
    truncated := (w (n + 4)).getLsbD 0 }

/-- Every working register at a free value of its type: the values of R31, R32 and R33 are dead once an operation is over (R20) and
unspecified while the engine is idle (R42, U8; notes/assumptions/6.md). -/
def unspecifiedRegisters (s : State) : State :=
  let w : Nat → Word := Config.unspecified s.draws
  { s with
    op := (w 0).setWidth 4
    lvl := (w 1).setWidth 2
    cap := (w 2).setWidth 10
    a0 := w 3
    a1 := w 4
    a2 := w 5
    va := w 6
    idx := { i0 := (w 7).setWidth 9, i1 := (w 8).setWidth 9, i2 := (w 9).setWidth 9, i3 := (w 10).setWidth 9 }
    off := (w 11).setWidth 12
    base := tableBaseOf (w 12)
    level := Level.ofBits ((w 13).setWidth 2)
    ea := (w 14).setWidth 48
    raw := w 15
    desc := decodeDescriptor (w 16) (Level.ofBits ((w 17).setWidth 2))
    t0 := w 18
    t1 := w 19
    pathLen := (w 20).toNat % 5
    frames :=
      { f0 := unspecifiedFrame w 21, f1 := unspecifiedFrame w 26, f2 := unspecifiedFrame w 31, f3 := unspecifiedFrame w 36 }
    top := Level.ofBits ((w 41).setWidth 2)
    start := Level.ofBits ((w 42).setWidth 2)
    filt := (w 43).getLsbD 0
    target := w 44
    draws := s.draws + 1 }

/-- After a terminal record the engine is idle (R34, R261), which is the only return there is, and its registers are unspecified. -/
def finish (s : State) : State := { unspecifiedRegisters s with wait := .idle }

/-- A packet offered while the engine is busy waits at the port, unchanged, behind those already there (R110, R283). -/
def hold (p : Packet) (s : State) : State := { s with cmd := s.cmd ++ [p] }

/-- Reset of the engine (R281): the running operation is abandoned and its registers are unspecified (R280). Packets waiting at the
port (notes/assumptions/12.md), the outside world and what the sink already has are untouched. -/
def engineReset (s : State) : State := { unspecifiedRegisters s with wait := .idle }

/-- Reset inside the engine's next move, right after the move's first transaction (R281): a packet at the port was accepted, or the
pending record was taken; an answer that was received leaves no mark. -/
def resetMidway (s : State) : State :=
  match s.wait with
  | .idle => engineReset { s with cmd := s.cmd.tail }
  | .mem _ => engineReset s
  | .reg _ => engineReset s
  | .rpt r => engineReset (logRecord r s)

end Sys2Proof.Machine
end

