-- ==== Sys2Proof/Machine/Enumerator.lean ====
section
/-!
DEFINITION. The bounded enumeration (R200), cut at its blocking primitives: the recursion is the frame stack `FR`, `TOP` the
innermost open table (R33).
-/
namespace Sys2Proof.Machine

/-- `FR[TOP]`. -/
def topFrame (s : State) : Frame := s.frames.get s.top

/-- `FR[TOP] <- f`. -/
def setTopFrame (f : Frame) (s : State) : State := { s with frames := s.frames.set s.top f }

/-- The index the innermost table is at, as a `u9`. -/
def topIndex (s : State) : BitVec 9 := BitVec.ofNat 9 (topFrame s).index

/-- `cp` of the index the innermost table is at (R206). -/
def topChildPrefix (s : State) : Word := childPrefix (topFrame s).vprefix (topIndex s) s.top

/-- The innermost table is finished (R200): its `E_TABLE_END` is offered. -/
def closeTable (s : State) : State :=
  offer (.eTableEnd s.top (topFrame s).base (BitVec.ofNat 10 (topFrame s).emitted) (topFrame s).truncated) s

/-- The head of the loop over indices (R200): no index left, the cap reached (R204), or one more read. -/
def enumVisit (s : State) : State :=
  if Config.entries ≤ (topFrame s).index then closeTable s
  else if capReached s.filt s.cap.toNat (topFrame s).emitted then
    closeTable (setTopFrame { topFrame s with truncated := true } s)
  else requestMem (entryAddress (topFrame s).base (topIndex s)) s

/-- `EnumTable(base, prefix, L, filter, cap)` begins (R200). -/
def openTable (base : PA) (vprefix : Word) (level : Level) (s : State) : State :=
  enumVisit
    { s with
      frames :=
        s.frames.set level
          { base := base, vprefix := vprefix, index := firstIndex s.filt s.target level, emitted := 0, truncated := false }
      top := level }

/-- `Enumerate(tableBase, virtualPrefix, level, filter, cap)` begins (R200); the base is masked as every root is. -/
def enumBegin (base vprefix : Word) (level : Level) (s : State) : State :=
  openTable (tableBaseOf base) vprefix level { s with start := level }

/-- The loop goes on to the next index of the innermost table (R201). -/
def enumAdvance (s : State) : State :=
  enumVisit (setTopFrame { topFrame s with index := nextIndex s.filt (topFrame s).index } s)

/-- A descriptor word arrives in an enumeration: an invalid one is skipped (R202), any other is offered as `E_ENTRY` (R200).
DESIGN CHOICE: R33 names no register for the word and its descriptor; they are kept in `RAW` and `D`, as the entry address is in `EA`
(notes/assumptions/27.md). -/
def enumReceive (raw : Word) (d : Descriptor) (s : State) : State :=
  match d with
  | .invalid => enumAdvance { s with raw := raw, desc := d }
  | .table _ _ _ | .block _ _ | .page _ _ =>
    offer
      (.eEntry s.top (topIndex s) (topFrame s).base s.ea raw (recordedPrefix (topChildPrefix s)) (pack d))
      { s with raw := raw, desc := d }

/-- A read fails in an enumeration (R203): the entry is flagged, its address taken from `EA` (notes/assumptions/27.md). -/
def enumUnreadable (s : State) : State := offer (.eUnread s.top (topIndex s) (topFrame s).base s.ea) s

/-- The enumeration after an `E_ENTRY` was taken (R200, R205): the entry is counted; a Table's table is opened at once. The entry's
descriptor is read from `D` (notes/assumptions/27.md). -/
def afterEEntry (s : State) : State :=
  let s1 := setTopFrame { topFrame s with emitted := (topFrame s).emitted + 1 } s
  match s.desc with
  | .table oa _ _ => openTable oa (topChildPrefix s) s.top.succ s1
  | .invalid => enumAdvance s1
  | .block _ _ => enumAdvance s1
  | .page _ _ => enumAdvance s1

/-- The enumeration after an `E_TABLE_END` was taken: the root's ends it (R200), any other returns to the parent's loop. -/
def afterTableEnd (s : State) : State :=
  if s.top = s.start then offer .rEnumDone s else enumAdvance { s with top := s.top.pred }

end Sys2Proof.Machine
end

