-- ==== Sys2Proof/Machine/Walker.lean ====
section
/-!
DEFINITION. The single-target walk (R170), cut at its blocking primitives.
-/
namespace Sys2Proof.Machine

/-- The read of level `L`'s descriptor (R170, step 2). -/
def walkFetch (s : State) : State := requestMem (entryAddress s.base (s.idx.get s.level)) s

/-- `Walk(va, T0, T1)` up to its first read (R170, steps 1 and 2). -/
def walkBegin (va : Word) (s : State) : State :=
  walkFetch
    { s with
      va := va
      base := selectRoot va s.t0 s.t1
      idx := (decompose va).idx
      off := (decompose va).off
      level := .l0
      pathLen := 0 }

/-- A descriptor word arrives in a walk (R170, step 3): it is decoded and its `W_ENTRY` offered. -/
def walkReceive (raw : Word) (d : Descriptor) (s : State) : State :=
  offer (.wEntry s.level (s.idx.get s.level) s.base s.ea raw (pack d)) { s with raw := raw, desc := d }

/-- A read fails in a walk (R253): no `W_ENTRY`, and the walk ends. -/
def walkUnreadable (s : State) : State := raiseFault s.level .unreadableMemory s.ea s

/-- The walk after the `W_ENTRY` of its level was taken (R170, steps 3 to 6). -/
def afterWEntry (s : State) : State :=
  match s.desc with
  | .invalid => raiseFault s.level .invalidEntry s.ea { s with pathLen := s.pathLen + 1 }
  | .table oa _ _ => walkFetch { s with pathLen := s.pathLen + 1, base := oa, level := s.level.succ }
  | .block oa _ =>
    offer (.rMapped (blockAddress oa s.va s.level) s.level .block) { s with pathLen := s.pathLen + 1 }
  | .page oa _ => offer (.rMapped (pageAddress oa s.off) .l3 .page) { s with pathLen := s.pathLen + 1 }

/-- A register value arrives in WALKR or WALKPC (R177, R178): the next register is read, or the walk begins. DESIGN CHOICE: until then
the PC's value is kept in `VA`, and `T0` is written as its answer arrives (notes/assumptions/28.md). The other two names are
never requested (R38). -/
def regReceive (sel : RegSel) (v : Word) (s : State) : State :=
  match sel with
  | .pc => requestReg .ttbr0El1 { s with va := v }
  | .ttbr0El1 => requestReg .ttbr1El1 { s with t0 := v }
  | .ttbr1El1 => walkBegin (if s.op = 5#4 then s.a0 else s.va) { s with t1 := v }
  | .tcrEl1 => s
  | .sctlrEl1 => s

end Sys2Proof.Machine
end

