-- ==== Sys2Proof/Machine/Sequencer.lean ====
section
/-!
DEFINITION. What joins the pieces of an operation: what follows a record, the sink taking records, acceptance of a packet, and the
arrival of an answer.
-/
namespace Sys2Proof.Machine

/-- What the running operation does once a record was taken (R35): the record tells where in its pseudocode it stands. After a
terminal record it is over (R261). -/
def afterRecord (r : Record) (s : State) : State :=
  match r with
  | .wEntry _ _ _ _ _ _ => afterWEntry s
  | .eEntry _ _ _ _ _ _ _ => afterEEntry s
  | .eUnread _ _ _ _ => enumAdvance s
  | .eTableEnd _ _ _ _ => afterTableEnd s
  | .rDecomp _ => finish s
  | .rRoot _ => finish s
  | .rDesc _ => finish s
  | .rPerm _ => finish s
  | .rMapped _ _ _ => finish s
  | .rFault _ _ _ => finish s
  | .rAbort _ _ => finish s
  | .rEnumDone => finish s
  | .rIllegal _ => finish s

/-- The sink takes the pending record and the operation goes on to its next primitive. -/
def takeRecord (r : Record) (s : State) : State := afterRecord r (logRecord r s)

/-- A ready sink takes up to `n` records, one after the other, until the engine waits for something else. -/
def drain : Nat → State → State
  | 0, s => s
  | n + 1, s =>
    match s.wait with
    | .rpt r => if s.sinkReady then drain n (takeRecord r s) else s
    | .idle => s
    | .mem _ => s
    | .reg _ => s

/-- A ready sink takes every record offered before the next request. An operation offers at most six in a row: an entry, the ends of
four tables, and `R_ENUM_DONE` (notes/assumptions/4.md). -/
def settle (s : State) : State := drain 6 s

/-- A packet is accepted when the engine is idle: latched, and its operation begun (R31, R110); otherwise it waits (R283). -/
def accept (p : Packet) (begin : State → State) (s : State) : State :=
  match s.wait with
  | .idle => settle (begin (latch p s))
  | .mem _ => hold p s
  | .reg _ => hold p s
  | .rpt _ => hold p s

/-- The level of the descriptor being looked up (R35): `L` of a walk, `TOP` of an enumeration. -/
def currentLevel (s : State) : Level := if isEnumeration s.op then s.top else s.level

/-- A descriptor word, already classified, arrives as the answer to the outstanding MEM request at a level. When no such request is
outstanding the word is nobody's answer and is discarded (R281; notes/assumptions/17.md). -/
def deliver (level : Level) (raw : Word) (d : Descriptor) (s : State) : State :=
  match s.wait with
  | .mem _ =>
    if currentLevel s = level then
      settle (if isEnumeration s.op then enumReceive raw d s else walkReceive raw d s)
    else s
  | .idle => s
  | .reg _ => s
  | .rpt _ => s

/-- `Fail` arrives as the answer to the outstanding MEM request (R253, R254). -/
def memoryFailed (s : State) : State := settle (if isEnumeration s.op then enumUnreadable s else walkUnreadable s)

/-- A REG answer arrives for the outstanding request of a name (R177, R178, R255). -/
def registerAnswered (sel : RegSel) (answer : Option Word) (s : State) : State :=
  match answer with
  | none => settle (raiseAbort sel s)
  | some v => settle (regReceive sel v s)

/-- An illegal packet is accepted and ends in `R_ILLEGAL`, with no request of any kind (R115, R256). -/
def execIllegal (p : Packet) (s : State) : State := accept p (raiseIllegal p.cmdw) s

end Sys2Proof.Machine
end

