-- ==== Sys2Proof/Machine/Descriptors.lean ====
section
/-!
DEFINITION. The six descriptor rows (R94, R95): what the engine does with a descriptor word of that kind when it arrives as the
answer to the MEM request at its level, in a walk (R170) and in an enumeration (R200).
-/
namespace Sys2Proof.Machine

/-- DESC.INVALID (R151): a walk ends in `InvalidEntry` (R252); an enumeration skips the entry (R202). -/
def execDescInvalid (level : Level) (raw : Word) (s : State) : Host.Outcome State Fault Refusal :=
  .next (deliver level raw .invalid s)

/-- DESC.TABLE.L0 (R152): a Table whatever its type bit, with the warning when that bit is 0 (R155). -/
def execDescTableL0 (raw : Word) (s : State) : Host.Outcome State Fault Refusal :=
  .next (deliver .l0 raw (.table (tableOrPageAddress raw) (permOf raw) (!typeBit raw)) s)

/-- DESC.TABLE.L1L2 (R152): the walk or enumeration descends. -/
def execDescTableL1L2 (level : Level) (raw : Word) (s : State) : Host.Outcome State Fault Refusal :=
  .next (deliver level raw (.table (tableOrPageAddress raw) (permOf raw) false) s)

/-- DESC.BLOCK.L1 (R152, R153): a 1 GiB block. -/
def execDescBlockL1 (raw : Word) (s : State) : Host.Outcome State Fault Refusal :=
  .next (deliver .l1 raw (.block (block1Address raw) (permOf raw)) s)

/-- DESC.BLOCK.L2 (R152, R153): a 2 MiB block. -/
def execDescBlockL2 (raw : Word) (s : State) : Host.Outcome State Fault Refusal :=
  .next (deliver .l2 raw (.block (block2Address raw) (permOf raw)) s)

/-- DESC.PAGE.L3 (R152): a 4 KiB page, whatever its type bit. -/
def execDescPageL3 (raw : Word) (s : State) : Host.Outcome State Fault Refusal :=
  .next (deliver .l3 raw (.page (tableOrPageAddress raw) (permOf raw)) s)

end Sys2Proof.Machine
end

