-- ==== Sys2Proof/Machine/EnumCommands.lean ====
section
/-!
DEFINITION. ENUM and ENUMT (R210, R211).
-/
namespace Sys2Proof.Machine

/-- ENUM (R210): no filter; `A2` is ignored. -/
def execEnum (level : Level) (cap : BitVec 10) (x : Operands) (s : State) : Host.Outcome State Fault Refusal :=
  .next (accept (commandPacket 7#4 level.bits cap x) (fun s1 => enumBegin x.a0 x.a1 level { s1 with filt := false }) s)

/-- ENUMT (R211): the filter is `A2`; `CAP` is carried and ignored. -/
def execEnumt (level : Level) (cap : BitVec 10) (x : Operands) (s : State) : Host.Outcome State Fault Refusal :=
  .next
    (accept (commandPacket 8#4 level.bits cap x)
      (fun s1 => enumBegin x.a0 x.a1 level { s1 with filt := true, target := x.a2 }) s)

end Sys2Proof.Machine
end

