-- ==== Sys2Proof/Machine/PureCommands.lean ====
section
/-!
DEFINITION. DECOMPOSE, SELROOT, DECODE and DESCRIBE: no request, no failure, one terminal record (R60, R133, R136, R157, R238).
-/
namespace Sys2Proof.Machine

/-- DECOMPOSE (R133). -/
def execDecompose (x : Operands) (s : State) : Host.Outcome State Fault Refusal :=
  .next (accept (commandPacket 1#4 0#2 0#10 x) (offer (.rDecomp (decompose x.a0))) s)

/-- SELROOT (R136). -/
def execSelroot (x : Operands) (s : State) : Host.Outcome State Fault Refusal :=
  .next (accept (commandPacket 2#4 0#2 0#10 x) (offer (.rRoot (selectRoot x.a0 x.a1 x.a2))) s)

/-- DECODE (R157). -/
def execDecode (level : Level) (x : Operands) (s : State) : Host.Outcome State Fault Refusal :=
  .next (accept (commandPacket 3#4 level.bits 0#10 x) (offer (.rDesc (pack (decodeDescriptor x.a0 level)))) s)

/-- DESCRIBE (R238). -/
def execDescribe (x : Operands) (s : State) : Host.Outcome State Fault Refusal :=
  .next (accept (commandPacket 9#4 0#2 0#10 x) (offer (.rPerm (describe (permOfDD x.a0)))) s)

end Sys2Proof.Machine
end

