-- ==== Sys2Proof/Machine/WalkCommands.lean ====
section
/-!
DEFINITION. WALK, WALKR and WALKPC (R176 to R178): each begins, up to its first request; the answers carry it on.
-/
namespace Sys2Proof.Machine

/-- WALK (R176): the two TTBR values are operands. -/
def execWalk (x : Operands) (s : State) : Host.Outcome State Fault Refusal :=
  .next (accept (commandPacket 4#4 0#2 0#10 x) (fun s1 => walkBegin x.a0 { s1 with t0 := x.a1, t1 := x.a2 }) s)

/-- WALKR (R177): `TTBR0_EL1` is read first. -/
def execWalkr (x : Operands) (s : State) : Host.Outcome State Fault Refusal :=
  .next (accept (commandPacket 5#4 0#2 0#10 x) (requestReg .ttbr0El1) s)

/-- WALKPC (R178): `PC` is read first. -/
def execWalkpc (x : Operands) (s : State) : Host.Outcome State Fault Refusal :=
  .next (accept (commandPacket 6#4 0#2 0#10 x) (requestReg .pc) s)

end Sys2Proof.Machine
end

