-- ==== Sys2Proof/Machine/Dispatch.lean ====
section
/-!
DEFINITION. One arm per constructor of `Instr`.
-/
namespace Sys2Proof.Machine

/-- The meaning of an instruction. -/
def exec (i : Instr) (s : State) : Host.Outcome State Fault Refusal :=
  match i with
  | .decompose x => Sys2Proof.Machine.execDecompose x s
  | .selroot x => Sys2Proof.Machine.execSelroot x s
  | .decode level x => Sys2Proof.Machine.execDecode level x s
  | .walk x => Sys2Proof.Machine.execWalk x s
  | .walkr x => Sys2Proof.Machine.execWalkr x s
  | .walkpc x => Sys2Proof.Machine.execWalkpc x s
  | .enum level cap x => Sys2Proof.Machine.execEnum level cap x s
  | .enumt level cap x => Sys2Proof.Machine.execEnumt level cap x s
  | .describe x => Sys2Proof.Machine.execDescribe x s
  | .descInvalid level raw => Sys2Proof.Machine.execDescInvalid level raw s
  | .descTableL0 raw => Sys2Proof.Machine.execDescTableL0 raw s
  | .descTableL1L2 level raw => Sys2Proof.Machine.execDescTableL1L2 level raw s
  | .descBlockL1 raw => Sys2Proof.Machine.execDescBlockL1 raw s
  | .descBlockL2 raw => Sys2Proof.Machine.execDescBlockL2 raw s
  | .descPageL3 raw => Sys2Proof.Machine.execDescPageL3 raw s

end Sys2Proof.Machine
end

