-- ==== Sys2Proof/Machine/Fetch.lean ====
section
/-!
DEFINITION. What one step fetches and runs: an input of the outside world, a packet of the CMD channel, or the answer to the
outstanding request.
-/
namespace Sys2Proof.Machine

/-- The first packet of the CMD channel, already taken off it, is decoded and run, or is illegal (R110, R115). -/
def runPacket (p : Packet) (s : State) : Host.Outcome State Fault Refusal :=
  match decodePacket p with
  | some i => exec i s
  | none => .next (execIllegal p s)

/-- The answer to the outstanding MEM request arrives (R61): a descriptor word, decoded at the current level and run, or `Fail`. -/
def memoryAnswered (answer : Option Bytes8) (s : State) : Host.Outcome State Fault Refusal :=
  match answer with
  | none => .next (memoryFailed s)
  | some b => exec (decodeRow (currentLevel s) (le64 b)) s

/-- The engine's own next move: an idle engine takes its next packet or waits for one; a busy one gets its answer at once from a live
reader, or has its record taken by a ready sink, or is stuck (R286, R287, U11). -/
def advance (s : State) : Host.Outcome State Fault Refusal :=
  match s.wait with
  | .idle =>
    match s.cmd with
    | [] => .next s
    | p :: rest => runPacket p { s with cmd := rest }
  | .mem q => if s.readerLive then memoryAnswered (s.mem.read8 q.address) s else .fault .memoryUnanswered
  | .reg q => if s.readerLive then .next (registerAnswered q.sel (s.regs.get q.sel) s) else .fault .registerUnanswered
  | .rpt _ => if s.sinkReady then .next (settle s) else .fault .sinkStalled

/-- The engine's turn while inputs are still due: its own next move, if it has one. If it waits for an answer or for the sink, the
turn passes, since an input to come may end the wait. -/
def takeTurn (s : State) : Host.Outcome State Fault Refusal :=
  match advance s with
  | .next t => .next t
  | .fault _ => .next s
  | .refused r => .refused r

/-- An input of the outside world, already taken off `inputs`, has its effect. An answer whose tag is not the outstanding request's
is discarded (R281). -/
def absorb (i : Input) (s : State) : Host.Outcome State Fault Refusal :=
  match i with
  | .turn => takeTurn s
  | .command p => .next (hold p s)
  | .reset => .next (engineReset s)
  | .resetMidway => .next (resetMidway s)
  | .memAnswer tag answer =>
    match s.wait with
    | .mem q => if q.tag = tag then memoryAnswered answer s else .next s
    | .idle => .next s
    | .reg _ => .next s
    | .rpt _ => .next s
  | .regAnswer tag answer =>
    match s.wait with
    | .reg q => if q.tag = tag then .next (registerAnswered q.sel answer s) else .next s
    | .idle => .next s
    | .mem _ => .next s
    | .rpt _ => .next s
  | .sinkTake =>
    match s.wait with
    | .rpt r => .next (settle (takeRecord r s))
    | .idle => .next s
    | .mem _ => .next s
    | .reg _ => .next s
  | .setSink ready => .next { s with sinkReady := ready }
  | .setReader live => .next { s with readerLive := live }
  | .memoryChange address value => .next { s with mem := s.mem.setByte address value }
  | .memoryFails address fails => .next { s with mem := s.mem.setFailing address fails }
  | .registerChange sel value => .next { s with regs := s.regs.set sel value }

/-- A packet put in front of the CMD channel of an engine that is idle, with no input before it. -/
def placePacket (p : Packet) (s : State) : State := { s with wait := .idle, inputs := [], cmd := p :: s.cmd }

/-- A descriptor word put at `EA`, and a walk that waits for it at a level, with a reader that answers at once and no input before
the answer (notes/assumptions/1.md). -/
def placeDescriptor (level : Level) (raw : Word) (s : State) : State :=
  let address : Word := s.ea.setWidth 64
  { s with
    wait := .mem { address := address, length := Config.readLen, tag := s.txn }
    txn := s.txn + 1
    inputs := []
    op := 4#4
    level := level
    readerLive := true
    mem := (s.mem.setWord address raw).setFailing address false }

/-- What the decoder would read, put where the next step fetches it. -/
def placeFetched (f : Fetched) (s : State) : State :=
  match f with
  | .command p => placePacket p s
  | .descriptor level raw => placeDescriptor level raw s

end Sys2Proof.Machine
end

