-- ==== Sys2Proof/Machine/Step.lean ====
section
/-!
DEFINITION. One step: the next input if there is one, which may be a turn of the engine, else the engine's own next move.
-/
namespace Sys2Proof.Machine

/-- One step of the machine. A turn of the engine among the inputs is its own next move too, so inputs fall between any two moves. -/
def step (s : State) : Host.Outcome State Fault Refusal :=
  match s.inputs with
  | i :: rest => absorb i { s with inputs := rest }
  | [] => advance s

/-- `s` with an opcode-table word where the next step fetches it: a packet on the CMD channel of an idle engine, or a descriptor
word in memory that a walk waits for (notes/assumptions/1.md). -/
def State.withFetchWord (s : State) (nbits w : Nat) : State := placeFetched (fetchedOfTableWord nbits w) s

end Sys2Proof.Machine
end

