-- ==== Sys2Proof/Machine/BigStep.lean ====
section
/-!
DEFINITION. The big-step reading of the walks and the enumerations (R12): a function from the operands and the MemoryReader's answers
to the events in order and the result value (R27, R28). The reader is an oracle (R77) that may answer each request by how many came
before it in the operation, so that the inspected memory may change between reads (R284, U15). `step` does not use this file; the statements
compare the two readings.
-/
namespace Sys2Proof.Machine

/-- A MemoryReader: the answer to a MEM request, by the number of the operation's earlier MEM requests and the address (R77). -/
abbrev Reader := Nat → Word → Option Bytes8

/-- The MEM request for an entry (R61). -/
def memEvent (ea : PA) : Event := .mem (ea.setWidth 64) Config.readLen

/-- The `W_ENTRY` of a path entry (R117). -/
def PathEntry.record (e : PathEntry) : Record :=
  .wEntry e.level e.index e.tableBase e.entryAddress e.raw (pack e.descriptor)

/-- The loop of `Walk` over the remaining levels (R170), with the path and the number of requests so far. It does not fall out of its end: a level-3
descriptor is Invalid or a Page (R152), so the first equation is never reached from `walk`. -/
def walkFrom (read : Reader) (va : Word) :
    List Level → PA → List PathEntry → Nat → List Event × WalkResult
  | [], base, path, _ => ([], .fault .l3 .invalidEntry base path)
  | level :: rest, base, path, n =>
    let index := (decompose va).idx.get level
    let ea := entryAddress base index
    match read n (ea.setWidth 64) with
    | none => ([memEvent ea, .record (.rFault level .unreadableMemory ea)], .fault level .unreadableMemory ea path)
    | some b =>
      let d := decodeDescriptor (le64 b) level
      let e : PathEntry :=
        { level := level, index := index, tableBase := base, entryAddress := ea, raw := le64 b, descriptor := d }
      match d with
      | .invalid =>
        ([memEvent ea, .record e.record, .record (.rFault level .invalidEntry ea)],
          .fault level .invalidEntry ea (path ++ [e]))
      | .table oa _ _ =>
        let r := walkFrom read va rest oa (path ++ [e]) (n + 1)
        (memEvent ea :: .record e.record :: r.1, r.2)
      | .block oa _ =>
        ([memEvent ea, .record e.record, .record (.rMapped (blockAddress oa va level) level .block)],
          .mapped (blockAddress oa va level) (path ++ [e]))
      | .page oa _ =>
        ([memEvent ea, .record e.record, .record (.rMapped (pageAddress oa (decompose va).off) .l3 .page)],
          .mapped (pageAddress oa (decompose va).off) (path ++ [e]))

/-- `Walk(va, ttbr0, ttbr1)` (R170). -/
def walk (read : Reader) (va ttbr0 ttbr1 : Word) : List Event × WalkResult :=
  walkFrom read va [.l0, .l1, .l2, .l3] (selectRoot va ttbr0 ttbr1) [] 0

/-- WALKR as a function (R177). -/
def walkRegisters (read : Reader) (register : RegSel → Option Word) (va : Word) : List Event × WalkResult :=
  match register .ttbr0El1 with
  | none => ([.reg .ttbr0El1, .record (.rAbort .registerUnavailable .ttbr0El1)], .aborted .ttbr0El1)
  | some t0 =>
    match register .ttbr1El1 with
    | none => ([.reg .ttbr0El1, .reg .ttbr1El1, .record (.rAbort .registerUnavailable .ttbr1El1)], .aborted .ttbr1El1)
    | some t1 =>
      let r := walk read va t0 t1
      (.reg .ttbr0El1 :: .reg .ttbr1El1 :: r.1, r.2)

/-- WALKPC as a function (R178). -/
def walkProgramCounter (read : Reader) (register : RegSel → Option Word) : List Event × WalkResult :=
  match register .pc with
  | none => ([.reg .pc, .record (.rAbort .registerUnavailable .pc)], .aborted .pc)
  | some va =>
    let r := walkRegisters read register va
    (.reg .pc :: r.1, r.2)

/-- What one table's loop over indices gives: its events, its children, how many it emitted, whether the cap stopped it, and the
number of requests after it. -/
structure LoopRun where
  events : List Event
  children : List Child
  emitted : Nat
  truncated : Bool
  requests : Nat

/-- What one table gives: its events, its node (R28), and the number of requests after it. -/
structure TableRun where
  events : List Event
  node : TableNode
  requests : Nat

/-- The loop of `EnumTable` over the remaining indices (R200), with the count and the number of requests so far; `sub` enumerates the
table below. -/
def enumLoop (read : Reader) (sub : PA → Word → Nat → TableRun) (filt : Bool) (cap : Nat) (level : Level)
    (base : PA) (vprefix : Word) : List Nat → Nat → Nat → LoopRun
  | [], emitted, n => { events := [], children := [], emitted := emitted, truncated := false, requests := n }
  | i :: rest, emitted, n =>
    if capReached filt cap emitted then
      { events := [], children := [], emitted := emitted, truncated := true, requests := n }
    else
      let index := BitVec.ofNat 9 i
      let ea := entryAddress base index
      match read n (ea.setWidth 64) with
      | none =>
        let r := enumLoop read sub filt cap level base vprefix rest emitted (n + 1)
        { r with
          events := memEvent ea :: .record (.eUnread level index base ea) :: r.events
          children := .unread level base index ea :: r.children }
      | some b =>
        let d := decodeDescriptor (le64 b) level
        let cp := childPrefix vprefix index level
        let entry : Event := .record (.eEntry level index base ea (le64 b) (recordedPrefix cp) (pack d))
        match d with
        | .invalid =>
          let r := enumLoop read sub filt cap level base vprefix rest emitted (n + 1)
          { r with events := memEvent ea :: r.events }
        | .table oa _ _ =>
          let t := sub oa cp (n + 1)
          let r := enumLoop read sub filt cap level base vprefix rest (emitted + 1) t.requests
          { r with
            events := memEvent ea :: entry :: (t.events ++ r.events)
            children := .entry level base index ea (le64 b) (recordedPrefix cp) d (some t.node) :: r.children }
        | .block _ _ | .page _ _ =>
          let r := enumLoop read sub filt cap level base vprefix rest (emitted + 1) (n + 1)
          { r with
            events := memEvent ea :: entry :: r.events
            children := .entry level base index ea (le64 b) (recordedPrefix cp) d none :: r.children }

/-- The indices a table's loop visits (R201). -/
def tableIndices (filter : Option Word) (level : Level) : List Nat :=
  match filter with
  | none => List.range 512
  | some target => [(indexAt target level).toNat]

/-- `EnumTable(base, prefix, L, filter, cap)` with so many levels left (R200, R205), after `n` requests. -/
def enumTable (read : Reader) (filter : Option Word) (cap : Nat) :
    Nat → Level → PA → Word → Nat → TableRun
  | 0, level, base, _, n => { events := [], node := .node level base [] 0 false, requests := n }
  | left + 1, level, base, vprefix, n =>
    let r :=
      enumLoop read (enumTable read filter cap left level.succ) filter.isSome cap level base vprefix
        (tableIndices filter level) 0 n
    { events := r.events ++ [.record (.eTableEnd level base (BitVec.ofNat 10 r.emitted) r.truncated)]
      node := .node level base r.children r.emitted r.truncated
      requests := r.requests }

/-- `Enumerate(tableBase, virtualPrefix, level, filter, cap)` (R200). -/
def enumerate (read : Reader) (tableBase vprefix : Word) (level : Level) (filter : Option Word) (cap : Nat) : TableRun :=
  let t := enumTable read filter cap (4 - level.toNat) level (tableBaseOf tableBase) vprefix 0
  { t with events := t.events ++ [.record .rEnumDone] }

mutual

/-- The records of a table, by the pre-order walk of its tree (R118). -/
def TableNode.records : TableNode → List Record
  | .node level base children emitted truncated =>
    childRecords children ++ [.eTableEnd level base (BitVec.ofNat 10 emitted) truncated]

/-- The records of a list of children, in order (R118). -/
def childRecords : List Child → List Record
  | [] => []
  | .unread level base index ea :: rest => .eUnread level index base ea :: childRecords rest
  | .entry level base index ea raw vp d none :: rest =>
    .eEntry level index base ea raw vp (pack d) :: childRecords rest
  | .entry level base index ea raw vp d (some t) :: rest =>
    .eEntry level index base ea raw vp (pack d) :: (t.records ++ childRecords rest)

end

/-- How many children of a list are entries (R28). -/
def entryCount : List Child → Nat
  | [] => 0
  | .unread _ _ _ _ :: rest => entryCount rest
  | .entry _ _ _ _ _ _ _ _ :: rest => entryCount rest + 1

/-- The indices of the children of a list, in order. -/
def childIndices : List Child → List Nat
  | [] => []
  | .unread _ _ i _ :: rest => i.toNat :: childIndices rest
  | .entry _ _ i _ _ _ _ _ :: rest => i.toNat :: childIndices rest

mutual

/-- The shape R28 and R29 give a table: it stands at its level, at most `n` tables deep, its children are at its level and base with
strictly ascending indices, `emitted` counts its entries and is at most `bound`, and a sub-table hangs exactly under a Table. -/
def TableNode.shaped (bound : Nat) : Nat → Level → TableNode → Prop
  | 0, _, _ => False
  | n + 1, level, .node level' base children emitted _ =>
    level' = level ∧ emitted = entryCount children ∧ emitted ≤ bound ∧ (childIndices children).Pairwise (· < ·) ∧
      childrenShaped bound n level base children

/-- The shape of a list of children (R28). -/
def childrenShaped (bound : Nat) : Nat → Level → PA → List Child → Prop
  | _, _, _, [] => True
  | n, level, base, .unread level' base' i ea :: rest =>
    level' = level ∧ base' = base ∧ ea = entryAddress base i ∧ childrenShaped bound n level base rest
  | n, level, base, .entry level' base' i ea raw _ d none :: rest =>
    level' = level ∧ base' = base ∧ ea = entryAddress base i ∧ d = decodeDescriptor raw level ∧ d ≠ .invalid ∧
      (∀ oa p w, d ≠ .table oa p w) ∧ childrenShaped bound n level base rest
  | n, level, base, .entry level' base' i ea raw _ d (some t) :: rest =>
    level' = level ∧ base' = base ∧ ea = entryAddress base i ∧ d = decodeDescriptor raw level ∧
      (∃ oa p w, d = .table oa p w) ∧ t.shaped bound n level.succ ∧ childrenShaped bound n level base rest

end

mutual

/-- No table of a tree was cut off by the cap (R204). -/
def TableNode.untruncated : TableNode → Bool
  | .node _ _ children _ truncated => !truncated && childrenUntruncated children

/-- No table under a list of children was cut off by the cap. -/
def childrenUntruncated : List Child → Bool
  | [] => true
  | .unread _ _ _ _ :: rest => childrenUntruncated rest
  | .entry _ _ _ _ _ _ _ none :: rest => childrenUntruncated rest
  | .entry _ _ _ _ _ _ _ (some t) :: rest => t.untruncated && childrenUntruncated rest

end

/-- The records among events. -/
def recordsOf : List Event → List Record
  | [] => []
  | .mem _ _ :: rest => recordsOf rest
  | .reg _ :: rest => recordsOf rest
  | .record r :: rest => r :: recordsOf rest

/-- The addresses of the MEM requests among events. -/
def requestsOf : List Event → List Word
  | [] => []
  | .mem a _ :: rest => a :: requestsOf rest
  | .reg _ :: rest => requestsOf rest
  | .record _ :: rest => requestsOf rest

/-- How many tables were closed among events. -/
def tablesOf : List Event → Nat
  | [] => 0
  | .record (.eTableEnd _ _ _ _) :: rest => tablesOf rest + 1
  | _ :: rest => tablesOf rest

/-- The path of a walk's result (R27). -/
def WalkResult.path : WalkResult → List PathEntry
  | .mapped _ path => path
  | .fault _ _ _ path => path
  | .aborted _ => []

end Sys2Proof.Machine
end

