-- ==== Sys2Proof/WellFormed.lean ====
section
/-!
DEFINITION. Which terms of `Instr` stand for words of the opcode table. Every command term does; a descriptor term does when
its word lies in its row of the kind table (R94).
-/
namespace Sys2Proof

/-- The term's word matches its row of the table: the valid and type bits of R94, and a level the row covers. -/
def Instr.wf : Instr → Bool
  | .decompose _ => true
  | .selroot _ => true
  | .decode _ _ => true
  | .walk _ => true
  | .walkr _ => true
  | .walkpc _ => true
  | .enum _ _ _ => true
  | .enumt _ _ _ => true
  | .describe _ => true
  | .descInvalid _ raw => !raw.getLsbD 0
  | .descTableL0 raw => raw.getLsbD 0
  | .descTableL1L2 level raw => (level == .l1 || level == .l2) && raw.getLsbD 0 && raw.getLsbD 1
  | .descBlockL1 raw => raw.getLsbD 0 && !raw.getLsbD 1
  | .descBlockL2 raw => raw.getLsbD 0 && !raw.getLsbD 1
  | .descPageL3 raw => raw.getLsbD 0

end Sys2Proof
end

