-- ==== Sys2Proof/Safety.lean ====
section
/-!
DEFINITION. What counts as a sound event, a sound state and an unchanged outside, in the terms the statements use.
-/
namespace Sys2Proof.Machine

/-- A valid table base: 4 KiB aligned, and below `2^48` by its width (R22). -/
def pageAligned (a : PA) : Bool := a.extractLsb' 0 12 == 0#12

/-- The descriptors a level can have (R25): Table at levels 0 to 2, Block at 1 and 2, Page at 3, each with its alignment (R153), the
warning only at level 0 (R155). -/
def Descriptor.legalAt (level : Level) : Descriptor → Bool
  | .invalid => true
  | .table oa _ w => !(level == .l3) && pageAligned oa && (!w || level == .l0)
  | .block oa _ =>
    (level == .l1 && oa.extractLsb' 0 30 == 0#30) || (level == .l2 && oa.extractLsb' 0 21 == 0#21)
  | .page oa _ => level == .l3 && pageAligned oa

/-- The names that are ever requested on the REG channel (R75). -/
def RegSel.requested : RegSel → Bool
  | .ttbr0El1 => true
  | .ttbr1El1 => true
  | .tcrEl1 => false
  | .sctlrEl1 => false
  | .pc => true

/-- A record's fields agree with each other and with the rules: an entry stands at `tableBase + index*8` of an aligned table, and
its descriptor is the decode of its raw word (R26, R117); a mapping is a Block at level 1 or 2 or a Page at level 3; a fault has
one of the two fault reasons (R250). -/
def Record.sound : Record → Bool
  | .wEntry level index base ea raw dd =>
    pageAligned base && ea == entryAddress base index && dd == pack (decodeDescriptor raw level)
  | .eEntry level index base ea raw _ dd =>
    pageAligned base && ea == entryAddress base index && raw.getLsbD 0 && dd == pack (decodeDescriptor raw level)
  | .eUnread _ index base ea => pageAligned base && ea == entryAddress base index
  | .eTableEnd _ base emitted _ => pageAligned base && decide (emitted.toNat ≤ 512)
  | .rDecomp _ => true
  | .rRoot base => pageAligned base
  | .rDesc _ => true
  | .rPerm x => !(x.accessClass == .unknown) && !(x.shareability == .unknown)
  | .rMapped _ level kind => ((level == .l1 || level == .l2) && kind == .block) || (level == .l3 && kind == .page)
  | .rFault _ reason ea => !(reason == .registerUnavailable) && ea.extractLsb' 0 3 == 0#3
  | .rAbort reason sel => reason == .registerUnavailable && sel.requested
  | .rEnumDone => true
  | .rIllegal _ => true

/-- An event within the engine's contract: a MEM request is 8 bytes at an 8-byte-aligned address below `2^48` (R64, R65, R66), a REG
request is for a name the engine consumes (R75), a record is sound. -/
def Event.sound : Event → Bool
  | .mem address length => length == 8#8 && address.extractLsb' 0 3 == 0#3 && address.extractLsb' 48 16 == 0#16
  | .reg sel => sel.requested
  | .record r => r.sound

/-- A walk at its current level (R32, R170): the registers agree with the address being translated. -/
def State.walkSound (s : State) : Bool :=
  !isEnumeration s.op && pageAligned s.base && s.idx == (decompose s.va).idx && s.off == (decompose s.va).off &&
    s.ea == entryAddress s.base (s.idx.get s.level) && decide (s.pathLen = s.level.toNat)

/-- An open table's frame (R29, R33): aligned, at most 512 indices, the count within the cap without a filter and within 1 with
one. -/
def Frame.sound (filt : Bool) (cap : Nat) (f : Frame) : Bool :=
  pageAligned f.base && decide (f.index ≤ 512) && decide (f.emitted ≤ 512) && decide (f.emitted ≤ f.index + 1) &&
    (if filt then decide (f.emitted ≤ 1) else decide (f.emitted ≤ cap))

/-- The stack of an enumeration (R33): `START` to `TOP`, every open table's frame sound, every table below the innermost at an index
it visited. -/
def State.stackSound (s : State) : Prop :=
  isEnumeration s.op = true ∧ s.filt = (s.op == 8#4) ∧ s.start.toNat ≤ s.top.toNat ∧
    (∀ level : Level, s.start.toNat ≤ level.toNat → level.toNat ≤ s.top.toNat →
      (s.frames.get level).sound s.filt s.cap.toNat = true) ∧
    (∀ level : Level, s.start.toNat ≤ level.toNat → level.toNat < s.top.toNat → (s.frames.get level).index < 512)

/-- An enumeration that has an entry of its innermost table in hand, its address in `EA` (notes/assumptions/27.md): the index is in range, the cap is not reached, and the entry
is not yet counted. -/
def State.entrySound (s : State) : Prop :=
  s.stackSound ∧ (topFrame s).index < 512 ∧ (topFrame s).emitted ≤ (topFrame s).index ∧
    (s.filt = true → (topFrame s).emitted = 0) ∧ (s.filt = false → (topFrame s).emitted < s.cap.toNat) ∧
    s.ea = entryAddress (topFrame s).base (topIndex s)

/-- What holds while the engine waits, by what it waits for (R35). -/
def State.waitSound (s : State) : Prop :=
  match s.wait with
  | .idle => True
  | .mem q =>
    q.length = 8#8 ∧ q.address = s.ea.setWidth 64 ∧ q.tag < s.txn ∧ (s.walkSound = true ∨ s.entrySound)
  | .reg q => q.sel.requested = true ∧ q.tag < s.txn ∧ (s.op = 5#4 ∨ s.op = 6#4)
  | .rpt r =>
    r.sound = true ∧
      match r with
      | .wEntry level index base ea raw _ =>
        s.walkSound = true ∧ level = s.level ∧ index = s.idx.get s.level ∧ base = s.base ∧ ea = s.ea ∧ raw = s.raw ∧
          s.desc = decodeDescriptor s.raw s.level
      | .eEntry level index base ea raw _ _ =>
        s.entrySound ∧ level = s.top ∧ index = topIndex s ∧ base = (topFrame s).base ∧ ea = s.ea ∧ raw = s.raw ∧
          s.desc = decodeDescriptor s.raw s.top ∧ s.desc ≠ .invalid
      | .eUnread level index base ea =>
        s.entrySound ∧ level = s.top ∧ index = topIndex s ∧ base = (topFrame s).base ∧ ea = s.ea
      | .eTableEnd level base _ _ => s.stackSound ∧ level = s.top ∧ base = (topFrame s).base
      | .rDecomp _ => True
      | .rRoot _ => True
      | .rDesc _ => True
      | .rPerm _ => True
      | .rMapped _ _ _ => True
      | .rFault _ _ _ => True
      | .rAbort _ _ => True
      | .rEnumDone => True
      | .rIllegal _ => True

/-- The invariant of the machine: memory in canonical form, every event so far sound, and the registers agreeing with what the
engine waits for. -/
def State.Inv (s : State) : Prop := s.mem.wf = true ∧ s.trace.all Event.sound = true ∧ s.waitSound

/-- `s` with the engine's registers forgotten: what is left is the sequencing position, the channels, the outside world and the
events. Two states agree outside the registers when this is the same. -/
def State.withoutRegisters (s : State) : State :=
  { State.reset with
    wait := s.wait
    cmd := s.cmd
    mem := s.mem
    regs := s.regs
    readerLive := s.readerLive
    sinkReady := s.sinkReady
    inputs := s.inputs
    txn := s.txn
    trace := s.trace }

/-- Two outcomes that the outside cannot tell apart: both stop alike, or both go on and agree outside the registers. -/
def Outcome.agree : Host.Outcome State Fault Refusal → Host.Outcome State Fault Refusal → Prop
  | .next s, .next t => s.withoutRegisters = t.withoutRegisters
  | .fault f, .fault g => f = g
  | .refused f, .refused g => f = g
  | .next _, .fault _ => False
  | .next _, .refused _ => False
  | .fault _, .next _ => False
  | .fault _, .refused _ => False
  | .refused _, .next _ => False
  | .refused _, .fault _ => False

/-- Whether an instruction is a command (R112), as against a descriptor row. -/
def isCommand : Instr → Bool
  | .decompose _ => true
  | .selroot _ => true
  | .decode _ _ => true
  | .walk _ => true
  | .walkr _ => true
  | .walkpc _ => true
  | .enum _ _ _ => true
  | .enumt _ _ _ => true
  | .describe _ => true
  | .descInvalid _ _ => false
  | .descTableL0 _ => false
  | .descTableL1L2 _ _ => false
  | .descBlockL1 _ => false
  | .descBlockL2 _ => false
  | .descPageL3 _ => false

/-- The inputs that answer the requests among events, in order: requests are tagged from `tag` on, and `n` MEM requests came before. -/
def answerInputs (answers : Reader) (registers : RegSel → Option Word) : Nat → Nat → List Event → List Input
  | _, _, [] => []
  | tag, n, .mem address _ :: rest => .memAnswer tag (answers n address) :: answerInputs answers registers (tag + 1) (n + 1) rest
  | tag, n, .reg sel :: rest => .regAnswer tag (registers sel) :: answerInputs answers registers (tag + 1) n rest
  | tag, n, .record _ :: rest => answerInputs answers registers tag n rest

/-- It is the engine's turn, and `rest` is due after it: no input is due, or a turn of the engine is. -/
def State.turnDue (s : State) (rest : List Input) : Prop := (s.inputs = [] ∧ rest = []) ∨ s.inputs = .turn :: rest

/-- The outside leaves the engine alone and answers at once: no input is due, the reader answers and the sink takes (R282). -/
def State.responsive (s : State) : Prop := s.inputs = [] ∧ s.readerLive = true ∧ s.sinkReady = true

end Sys2Proof.Machine
end

