-- ==== Sys2Proof/Certificates/Slice0/Obligations.lean ====
section
/-!
DEFINITION. The statements for the provers. OBLIGATIONS.json says of each which rules it rests on. Where an operation ends, states
are compared by `withoutRegisters`: the registers are unspecified then (notes/assumptions/6.md). The fields `inputs`, `txn` with the
tags of requests, and `trace`, and the size of a step, are the model's own wherever they stand (notes/assumptions/10.md, 11.md, 15.md,
4.md).
-/

open Sys2Proof Sys2Proof.Machine

/-! ### Encodings -/

/-- Decoding the words of a well-formed instruction gives it back, every operand at every value (R94, R111, R112). -/
def Obligations.DecodeOfEncodeIsIdentity : Prop :=
  ∀ i : Instr, i.wf = true → decode (encode i) = some i

/-- What decodes is well-formed, and encoding it gives back the packet or word it was read from: no bit is dropped (R112, R113). -/
def Obligations.EncodeOfDecodeIsIdentity : Prop :=
  ∀ (f : Fetched) (i : Instr), decode f = some i → i.wf = true ∧ encode i = f

/-- When a packet is illegal (R115): `OP` 0 or 10 to 15, a reserved bit set, `LVL` set in an operation other than DECODE, ENUM and
ENUMT, or `CAP` set in one other than ENUM and ENUMT. -/
def Obligations.IllegalPacketsAreExactlyThose : Prop :=
  ∀ p : Packet,
    decodePacket p = none ↔
      (p.cmdw.extractLsb' 0 4 = 0#4 ∨ 10#4 ≤ p.cmdw.extractLsb' 0 4) ∨
        p.cmdw.extractLsb' 6 2 ≠ 0#2 ∨ p.cmdw.extractLsb' 18 14 ≠ 0#14 ∨
        (p.cmdw.extractLsb' 4 2 ≠ 0#2 ∧ p.cmdw.extractLsb' 0 4 ≠ 3#4 ∧ p.cmdw.extractLsb' 0 4 ≠ 7#4 ∧
          p.cmdw.extractLsb' 0 4 ≠ 8#4) ∨
        (p.cmdw.extractLsb' 8 10 ≠ 0#10 ∧ p.cmdw.extractLsb' 0 4 ≠ 7#4 ∧ p.cmdw.extractLsb' 0 4 ≠ 8#4)

/-- Words written out from R112 and R94 decode to what they stand for. -/
def Obligations.WrittenOutWordsDecode : Prop :=
  ∀ x : Operands,
    decodePacket ⟨0b00000000000000000000000000000001#32, x.a0, x.a1, x.a2⟩ = some (.decompose x) ∧
    decodePacket ⟨0b00000000000000000000000000010011#32, x.a0, x.a1, x.a2⟩ = some (.decode .l1 x) ∧
    decodePacket ⟨0b00000000000000000000000000000100#32, x.a0, x.a1, x.a2⟩ = some (.walk x) ∧
    decodePacket ⟨0b00000000000000000000101000110111#32, x.a0, x.a1, x.a2⟩ = some (.enum .l3 10#10 x) ∧
    decodePacket ⟨0b00000000000000000000000000001001#32, x.a0, x.a1, x.a2⟩ = some (.describe x) ∧
    decodeRow .l1 0x0000000040000601#64 = .descBlockL1 0x0000000040000601#64

/-! ### Pure functions -/

/-- Indices and offset are the disjoint slices of the low 48 bits and put them together again, with `|` and with `+`; the upper 16
bits do not reach them (R132). -/
def Obligations.DecomposeReconstructs : Prop :=
  ∀ va : Word,
    reconstruct (decompose va) = va &&& 0x0000FFFFFFFFFFFF#64 ∧
    (decompose va).idx.i0.toNat * 2 ^ 39 + (decompose va).idx.i1.toNat * 2 ^ 30 +
        (decompose va).idx.i2.toNat * 2 ^ 21 + (decompose va).idx.i3.toNat * 2 ^ 12 + (decompose va).off.toNat =
      va.toNat % 2 ^ 48 ∧
    ∀ va' : Word,
      va' &&& 0x0000FFFFFFFFFFFF#64 = va &&& 0x0000FFFFFFFFFFFF#64 →
        (decompose va').idx = (decompose va).idx ∧ (decompose va').off = (decompose va).off

/-- The root is the selected TTBR's bits [47:12], selected by bit 55 alone; the other TTBR has no effect, and the result is a table
base (R134). -/
def Obligations.SelectRootByBit55 : Prop :=
  ∀ va ttbr0 ttbr1 : Word,
    (selectRoot va ttbr0 ttbr1).setWidth 64 =
      (if va.getLsbD 55 then ttbr1 &&& 0x0000FFFFFFFFF000#64 else ttbr0 &&& 0x0000FFFFFFFFF000#64) ∧
    pageAligned (selectRoot va ttbr0 ttbr1) = true ∧
    (∀ va' other : Word, va'.getLsbD 55 = va.getLsbD 55 →
      selectRoot va' (if va.getLsbD 55 then other else ttbr0) (if va.getLsbD 55 then ttbr1 else other) =
        selectRoot va ttbr0 ttbr1)

/-- The properties (a) to (h) of `Decode` (R156). -/
def Obligations.DecodeProperties : Prop :=
  ∀ raw : Word,
    (∀ level : Level, raw.getLsbD 0 = false → decodeDescriptor raw level = .invalid) ∧
    (raw.getLsbD 0 = true → (decodeDescriptor raw .l0).kind = .table) ∧
    (raw.getLsbD 0 = true → (decodeDescriptor raw .l3).kind = .page) ∧
    (raw.getLsbD 0 = true → raw.getLsbD 1 = false →
      decodeDescriptor raw .l1 = .block ((raw &&& 0x0000FFFFC0000000#64).setWidth 48) (permOf raw) ∧
      decodeDescriptor raw .l2 = .block ((raw &&& 0x0000FFFFFFE00000#64).setWidth 48) (permOf raw)) ∧
    (raw.getLsbD 0 = true → raw.getLsbD 1 = true → ∀ level : Level, level = .l1 ∨ level = .l2 →
      decodeDescriptor raw level = .table ((raw &&& 0x0000FFFFFFFFF000#64).setWidth 48) (permOf raw) false) ∧
    (∀ level : Level, decodeDescriptor raw level = .invalid ↔ raw.getLsbD 0 = false) ∧
    (∀ (level : Level) (oa : PA) (p : Perm) (w : Bool), decodeDescriptor raw level = .table oa p w →
      pageAligned oa = true) ∧
    ((decodeDescriptor raw .l1).kind = (decodeDescriptor raw .l2).kind ∧
      ((decodeDescriptor raw .l1).kind = .block →
        ∃ oa1 oa2 : PA, ∃ p : Perm, decodeDescriptor raw .l1 = .block oa1 p ∧ decodeDescriptor raw .l2 = .block oa2 p ∧
          oa1 &&& 0xFFFFC01FFFFF#48 = oa2 &&& 0xFFFFC01FFFFF#48) ∧
      ((decodeDescriptor raw .l1).kind ≠ .block → decodeDescriptor raw .l1 = decodeDescriptor raw .l2))

/-- A decoded descriptor is one its level can have, aligned to its mapping's size, with the level-0 warning exactly on a valid entry
whose type bit is 0 (R25, R153, R155); and the bits the engine does not decode, {5, 11, [52:48], [63:55]}, change no field of it
(R97). -/
def Obligations.DecodeIsLegalAndReadsItsSlices : Prop :=
  ∀ (raw : Word) (level : Level),
    (decodeDescriptor raw level).legalAt level = true ∧
    ((∃ oa p, decodeDescriptor raw level = .table oa p true) ↔
      level = .l0 ∧ raw.getLsbD 0 = true ∧ raw.getLsbD 1 = false) ∧
    (∀ raw' : Word, raw &&& 0x0060FFFFFFFFF7DF#64 = raw' &&& 0x0060FFFFFFFFF7DF#64 →
      decodeDescriptor raw level = decodeDescriptor raw' level)

/-- The packed form of a decode, by the formula of R108, and packing loses nothing of a descriptor its level can have. -/
def Obligations.PackFormulaAndInjectivity : Prop :=
  (∀ (raw : Word) (level : Level), raw.getLsbD 0 = false → pack (decodeDescriptor raw level) = 0#64) ∧
  (∀ (raw : Word) (level : Level) (oa : PA) (p : Perm) (w : Bool), decodeDescriptor raw level = .table oa p w →
    pack (decodeDescriptor raw level) =
      (raw &&& 0x00600000000007DD#64) ||| oa.setWidth 64 ||| (1#64 <<< 55) ||| (if w then 1#64 <<< 57 else 0#64)) ∧
  (∀ (raw : Word) (level : Level) (oa : PA) (p : Perm), decodeDescriptor raw level = .block oa p →
    pack (decodeDescriptor raw level) = (raw &&& 0x00600000000007DD#64) ||| oa.setWidth 64 ||| (2#64 <<< 55)) ∧
  (∀ (raw : Word) (level : Level) (oa : PA) (p : Perm), decodeDescriptor raw level = .page oa p →
    pack (decodeDescriptor raw level) = (raw &&& 0x00600000000007DD#64) ||| oa.setWidth 64 ||| (3#64 <<< 55)) ∧
  (∀ (d d' : Descriptor) (level level' : Level), d.legalAt level = true → d'.legalAt level' = true →
    pack d = pack d' → d = d')

/-- `le64` puts the byte at the lowest address lowest, and `bytesOf` takes it apart (R63). -/
def Obligations.LittleEndianBytes : Prop :=
  (∀ b : Bytes8,
    le64 b =
      b.b0.setWidth 64 ||| (b.b1.setWidth 64 <<< 8) ||| (b.b2.setWidth 64 <<< 16) ||| (b.b3.setWidth 64 <<< 24) |||
        (b.b4.setWidth 64 <<< 32) ||| (b.b5.setWidth 64 <<< 40) ||| (b.b6.setWidth 64 <<< 48) |||
        (b.b7.setWidth 64 <<< 56)) ∧
  (∀ w : Word, le64 (bytesOf w) = w) ∧ (∀ b : Bytes8, bytesOf (le64 b) = b)

/-- Entry address arithmetic (R66): the sum has no carry into bit 12, is the OR, keeps the base's upper bits, puts the index at
[11:3], is 8-byte aligned, and does not wrap. -/
def Obligations.EntryAddressHasNoCarry : Prop :=
  ∀ (base : PA) (index : BitVec 9), pageAligned base = true →
    entryAddress base index = base ||| (index.setWidth 48 <<< 3) ∧
    (entryAddress base index).extractLsb' 12 36 = base.extractLsb' 12 36 ∧
    (entryAddress base index).extractLsb' 3 9 = index ∧
    (entryAddress base index).extractLsb' 0 3 = 0#3 ∧
    (entryAddress base index).toNat = base.toNat + index.toNat * 8

/-- Block and page termination (R173, R174): the output address and the offset share no bit, so OR is addition; bits of the virtual
address at or above the shift do not reach the result. -/
def Obligations.FinalAddressKeepsOffset : Prop :=
  blockOffsetMask .l1 = 0x3FFFFFFF#64 ∧ blockOffsetMask .l2 = 0x1FFFFF#64 ∧
  (∀ (raw va va' : Word) (level : Level) (oa : PA) (p : Perm), decodeDescriptor raw level = .block oa p →
    blockAddress oa va level = oa ||| (va &&& blockOffsetMask level).setWidth 48 ∧
    oa &&& (va &&& blockOffsetMask level).setWidth 48 = 0#48 ∧
    (blockAddress oa va level).toNat = oa.toNat + va.toNat % 2 ^ Config.shift level ∧
    (va.toNat % 2 ^ Config.shift level = va'.toNat % 2 ^ Config.shift level →
      blockAddress oa va level = blockAddress oa va' level)) ∧
  (∀ (raw va : Word) (oa : PA) (p : Perm), decodeDescriptor raw .l3 = .page oa p →
    pageAddress oa (decompose va).off = oa ||| (va.extractLsb' 0 12).setWidth 48 ∧
    oa &&& (decompose va).off.setWidth 48 = 0#48 ∧
    (pageAddress oa (decompose va).off).toNat = oa.toNat + va.toNat % 2 ^ 12)

/-- The formatter maps every field value by the tables of R231 to R236 and never answers `UNKNOWN` (R237). -/
def Obligations.DescribeClassifies : Prop :=
  ∀ p : Perm,
    (describe p).accessClass.code = p.ap.setWidth 3 ∧ (describe p).shareability.code = p.sh.setWidth 3 ∧
    (describe p).executability.code = BitVec.ofBool p.xn ∧ (describe p).kernelExecutability.code = BitVec.ofBool p.pxn ∧
    (describe p).accessed = p.af ∧ (describe p).memoryTypeIndex = p.attrIndex ∧
    (describe p).accessClass ≠ .unknown ∧ (describe p).shareability ≠ .unknown

/-- DESCRIBE reads the same fields from a raw word and from the packed form of its decode, when that decode is valid (R109). -/
def Obligations.DescribeOfPackedIsDescribeOfRaw : Prop :=
  ∀ (raw : Word) (level : Level), decodeDescriptor raw level ≠ .invalid →
    permOfDD (pack (decodeDescriptor raw level)) = permOfDD raw

/-- A word stored in the inspected memory is what the reader answers there, whatever failed before; bytes elsewhere are as before
(R61, R63; the representation is the model's, notes/assumptions/7.md). -/
def Obligations.ReadAfterInspectedStore : Prop :=
  ∀ (m : Memory) (address w : Word), m.wf = true → address.toNat + 8 ≤ 2 ^ 64 →
    ((m.setWord address w).setFailing address false).read8 address = some (bytesOf w) ∧
    (∀ a : Nat, (a < address.toNat ∨ address.toNat + 8 ≤ a) → (m.setWord address w).byteAt a = m.byteAt a)

/-! ### Commands -/

/-- DECOMPOSE (R133): its packet, and one record with the six slices, and nothing else; the registers, unspecified once it is over (R20,
U8), are left out of the comparison, as they are below wherever an operation ends. -/
def Obligations.DecomposeReports : Prop :=
  ∀ x : Operands, encode (.decompose x) = .command ⟨0x00000001#32, x.a0, x.a1, x.a2⟩ ∧
    ∀ s : State, s.wait = .idle → s.sinkReady = true →
    ∃ t : State, exec (.decompose x) s = .next t ∧ t.withoutRegisters =
      State.withoutRegisters { s with
        trace :=
            s.trace ++
              [.record
                (.rDecomp
                  { idx :=
                      { i0 := x.a0.extractLsb' 39 9, i1 := x.a0.extractLsb' 30 9, i2 := x.a0.extractLsb' 21 9
                        i3 := x.a0.extractLsb' 12 9 }
                    off := x.a0.extractLsb' 0 12
                    isKernel := x.a0.getLsbD 55 })] }

/-- SELROOT (R136): its packet, and one record with the selected and masked root. -/
def Obligations.SelrootReports : Prop :=
  ∀ x : Operands, encode (.selroot x) = .command ⟨0x00000002#32, x.a0, x.a1, x.a2⟩ ∧
    ∀ s : State, s.wait = .idle → s.sinkReady = true →
    ∃ t : State, exec (.selroot x) s = .next t ∧ t.withoutRegisters =
      State.withoutRegisters { s with
        trace :=
            s.trace ++
              [.record
                (.rRoot (((if x.a0.getLsbD 55 then x.a2 else x.a1) &&& 0x0000FFFFFFFFF000#64).setWidth 48))] }

/-- DECODE (R157): its packet, and one record with the packed decode of `A0` at `LVL`. -/
def Obligations.DecodeReports : Prop :=
  ∀ (level : Level) (x : Operands),
    encode (.decode level x) = .command ⟨0x00000003#32 ||| (level.bits.setWidth 32 <<< 4), x.a0, x.a1, x.a2⟩ ∧
    ∀ s : State, s.wait = .idle → s.sinkReady = true →
    ∃ t : State, exec (.decode level x) s = .next t ∧ t.withoutRegisters =
      State.withoutRegisters { s with
        trace := s.trace ++ [.record (.rDesc (pack (decodeDescriptor x.a0 level)))] }

/-- DESCRIBE (R238): its packet, and one record with the classes of the six slices of `A0`. -/
def Obligations.DescribeReports : Prop :=
  ∀ x : Operands, encode (.describe x) = .command ⟨0x00000009#32, x.a0, x.a1, x.a2⟩ ∧
    ∀ s : State, s.wait = .idle → s.sinkReady = true →
    ∃ t : State, exec (.describe x) s = .next t ∧ t.withoutRegisters =
      State.withoutRegisters { s with
        trace :=
            s.trace ++
              [.record
                (.rPerm
                  { accessClass := apClass (x.a0.extractLsb' 6 2)
                    executability := xnClass (x.a0.getLsbD 54)
                    kernelExecutability := xnClass (x.a0.getLsbD 53)
                    accessed := x.a0.getLsbD 10
                    shareability := shClass (x.a0.extractLsb' 8 2)
                    memoryTypeIndex := x.a0.extractLsb' 2 3 })] }

/-- WALK (R176) begins as R170 says: root selected, address decomposed, one read of the level-0 entry; WALKR (R177) reads `TTBR0_EL1`
first and WALKPC (R178) reads `PC` first, and nothing else happens before the answer. -/
def Obligations.WalkBegins : Prop :=
  ∀ (x : Operands) (s : State), s.wait = .idle →
    let root := selectRoot x.a0 x.a1 x.a2
    let ea := root + ((x.a0.extractLsb' 39 9).setWidth 48 <<< 3)
    exec (.walk x) s =
      .next
        { s with
          op := 4#4, lvl := 0#2, cap := 0#10, a0 := x.a0, a1 := x.a1, a2 := x.a2
          va := x.a0, t0 := x.a1, t1 := x.a2, base := root
          idx := (decompose x.a0).idx, off := (decompose x.a0).off, level := .l0, pathLen := 0
          ea := ea
          wait := .mem { address := ea.setWidth 64, length := 8#8, tag := s.txn }
          txn := s.txn + 1
          trace := s.trace ++ [.mem (ea.setWidth 64) 8#8] } ∧
    exec (.walkr x) s =
      .next
        { s with
          op := 5#4, lvl := 0#2, cap := 0#10, a0 := x.a0, a1 := x.a1, a2 := x.a2
          wait := .reg { sel := .ttbr0El1, tag := s.txn }
          txn := s.txn + 1
          trace := s.trace ++ [.reg .ttbr0El1] } ∧
    exec (.walkpc x) s =
      .next
        { s with
          op := 6#4, lvl := 0#2, cap := 0#10, a0 := x.a0, a1 := x.a1, a2 := x.a2
          wait := .reg { sel := .pc, tag := s.txn }
          txn := s.txn + 1
          trace := s.trace ++ [.reg .pc] }

/-- ENUM with a cap above 0 (R210, R200) opens one table at the named level and reads its entry 0.
That an enumeration keeps its entry in `EA`, `RAW` and `D` is the model's choice (notes/assumptions/27.md). -/
def Obligations.EnumBegins : Prop :=
  ∀ (level : Level) (cap : BitVec 10) (x : Operands) (s : State), s.wait = .idle → cap ≠ 0#10 →
    let base : PA := (x.a0 &&& 0x0000FFFFFFFFF000#64).setWidth 48
    exec (.enum level cap x) s =
      .next
        { s with
          op := 7#4, lvl := level.bits, cap := cap, a0 := x.a0, a1 := x.a1, a2 := x.a2
          start := level, top := level, filt := false
          frames := s.frames.set level { base := base, vprefix := x.a1, index := 0, emitted := 0, truncated := false }
          ea := base
          wait := .mem { address := base.setWidth 64, length := 8#8, tag := s.txn }
          txn := s.txn + 1
          trace := s.trace ++ [.mem (base.setWidth 64) 8#8] }

/-- ENUM with cap 0 reads nothing in the table, emits nothing, and reports it truncated (R204 (d)). -/
def Obligations.EnumWithCapZeroReadsNothing : Prop :=
  ∀ (level : Level) (x : Operands) (s : State), s.wait = .idle → s.sinkReady = true →
    let base : PA := (x.a0 &&& 0x0000FFFFFFFFF000#64).setWidth 48
    ∃ t : State, exec (.enum level 0#10 x) s = .next t ∧ t.withoutRegisters =
      State.withoutRegisters { s with
        trace := s.trace ++ [.record (.eTableEnd level base 0#10 true), .record .rEnumDone] }

/-- ENUMT (R211) opens one table and reads only the target's entry, whatever the cap.
That an enumeration keeps its entry in `EA`, `RAW` and `D` is the model's choice (notes/assumptions/27.md). -/
def Obligations.EnumtBegins : Prop :=
  ∀ (level : Level) (cap : BitVec 10) (x : Operands) (s : State), s.wait = .idle →
    let base : PA := (x.a0 &&& 0x0000FFFFFFFFF000#64).setWidth 48
    let index := x.a2.extractLsb' (Config.shift level) 9
    let ea := base + (index.setWidth 48 <<< 3)
    exec (.enumt level cap x) s =
      .next
        { s with
          op := 8#4, lvl := level.bits, cap := cap, a0 := x.a0, a1 := x.a1, a2 := x.a2
          start := level, top := level, filt := true, target := x.a2
          frames :=
            s.frames.set level
              { base := base, vprefix := x.a1, index := index.toNat, emitted := 0, truncated := false }
          ea := ea
          wait := .mem { address := ea.setWidth 64, length := 8#8, tag := s.txn }
          txn := s.txn + 1
          trace := s.trace ++ [.mem (ea.setWidth 64) 8#8] }

/-- With a sink that does not take, a pure command's record stays pending and the engine stays busy; when the sink takes it, the
command is over (R287, R116). -/
def Obligations.PureCommandsWaitForTheSink : Prop :=
  ∀ (level : Level) (x : Operands) (s : State), s.wait = .idle → s.sinkReady = false →
    ∀ i : Instr, ∀ r : Record,
      ((i = .decompose x ∧ r = .rDecomp (decompose x.a0)) ∨
        (i = .selroot x ∧ r = .rRoot (selectRoot x.a0 x.a1 x.a2)) ∨
        (i = .decode level x ∧ r = .rDesc (pack (decodeDescriptor x.a0 level))) ∨
        (i = .describe x ∧ r = .rPerm (describe (permOfDD x.a0)))) →
      ∃ t : State,
        exec i s = .next t ∧ t.withoutRegisters = State.withoutRegisters { s with wait := .rpt r } ∧ t.status = .busy ∧
        ∃ u : State, absorb .sinkTake t = .next u ∧ u.status = .idle ∧
          u.withoutRegisters = State.withoutRegisters { t with wait := .idle, trace := t.trace ++ [.record r] }

/-- A command given while an operation runs is held at the port, unchanged, behind those already there, and nothing else happens
(R110, R283).
That `exec` of a command on a busy engine is the packet being offered is the model's choice (notes/assumptions/14.md). -/
def Obligations.CommandsWhileBusyAreHeld : Prop :=
  ∀ (i : Instr) (p : Packet) (s : State), isCommand i = true → decodePacket p = some i → s.wait ≠ .idle →
    exec i s = .next { s with cmd := s.cmd ++ [p] } ∧ absorb (.command p) s = .next { s with cmd := s.cmd ++ [p] }

/-! ### Descriptor rows in a walk -/

/-- An Invalid descriptor ends a walk (R252): its `W_ENTRY`, then `R_FAULT` with the level and the entry address; nothing more is
read. -/
def Obligations.InvalidDescriptorEndsAWalk : Prop :=
  ∀ (q : MemReq) (raw : Word) (s : State), s.wait = .mem q → isEnumeration s.op = false → s.sinkReady = true →
    ∃ t : State, exec (.descInvalid s.level raw) s = .next t ∧ t.withoutRegisters =
      State.withoutRegisters { s with
        wait := .idle
        trace :=
            s.trace ++
              [.record (.wEntry s.level (s.idx.get s.level) s.base s.ea raw 0#64),
                .record (.rFault s.level .invalidEntry s.ea)] }

/-- A Table descriptor is descended through (R170 step 4): its `W_ENTRY`, then the read of the next level's entry; a level-0 entry
with type bit 0 differs in the warning only (R155, R266). -/
def Obligations.TableDescriptorDescends : Prop :=
  ∀ (q : MemReq) (raw : Word) (s : State), s.wait = .mem q → isEnumeration s.op = false → s.sinkReady = true →
    ∀ (level next : Level) (i : Instr),
      ((i = .descTableL0 raw ∧ level = .l0 ∧ next = .l1) ∨ (i = .descTableL1L2 .l1 raw ∧ level = .l1 ∧ next = .l2) ∨
        (i = .descTableL1L2 .l2 raw ∧ level = .l2 ∧ next = .l3)) →
      i.wf = true → s.level = level →
      let oa : PA := (raw &&& 0x0000FFFFFFFFF000#64).setWidth 48
      let d : Descriptor := .table oa (permOf raw) (level == .l0 && !raw.getLsbD 1)
      let ea := oa + ((s.idx.get next).setWidth 48 <<< 3)
      exec i s =
        .next
          { s with
            raw := raw, desc := d, pathLen := s.pathLen + 1, base := oa, level := next, ea := ea
            wait := .mem { address := ea.setWidth 64, length := 8#8, tag := s.txn }
            txn := s.txn + 1
            trace :=
              s.trace ++ [.record (.wEntry level (s.idx.get level) s.base s.ea raw (pack d)), .mem (ea.setWidth 64) 8#8] }

/-- A Block descriptor ends a walk at its level's address (R170 step 5, R173): the output address with the virtual address's bits
below the block size. -/
def Obligations.BlockDescriptorMaps : Prop :=
  ∀ (q : MemReq) (raw : Word) (s : State), s.wait = .mem q → isEnumeration s.op = false → s.sinkReady = true →
    ∀ (level : Level) (oa offset : PA) (i : Instr),
      ((i = .descBlockL1 raw ∧ level = .l1 ∧ oa = (raw &&& 0x0000FFFFC0000000#64).setWidth 48 ∧
          offset = (s.va &&& 0x3FFFFFFF#64).setWidth 48) ∨
        (i = .descBlockL2 raw ∧ level = .l2 ∧ oa = (raw &&& 0x0000FFFFFFE00000#64).setWidth 48 ∧
          offset = (s.va &&& 0x1FFFFF#64).setWidth 48)) →
      s.level = level →
      ∃ t : State, exec i s = .next t ∧ t.withoutRegisters =
        State.withoutRegisters { s with
          wait := .idle
          trace :=
              s.trace ++
                [.record (.wEntry level (s.idx.get level) s.base s.ea raw (pack (.block oa (permOf raw)))),
                  .record (.rMapped (oa ||| offset) level .block)] }

/-- A Page descriptor ends a walk at its output address with the page offset (R170 step 6, R174), whatever its type bit. -/
def Obligations.PageDescriptorMaps : Prop :=
  ∀ (q : MemReq) (raw : Word) (s : State), s.wait = .mem q → isEnumeration s.op = false → s.sinkReady = true →
    s.level = .l3 →
    let oa : PA := (raw &&& 0x0000FFFFFFFFF000#64).setWidth 48
    ∃ t : State, exec (.descPageL3 raw) s = .next t ∧ t.withoutRegisters =
      State.withoutRegisters { s with
        wait := .idle
        trace :=
            s.trace ++
              [.record (.wEntry .l3 s.idx.i3 s.base s.ea raw (pack (.page oa (permOf raw)))),
                .record (.rMapped (oa ||| s.off.setWidth 48) .l3 .page)] }

/-- With a sink that does not take, a descriptor met in a walk leaves its `W_ENTRY` pending, and no request follows it (R171,
R287). -/
def Obligations.WalkWaitsForTheSink : Prop :=
  ∀ (q : MemReq) (raw : Word) (s : State), s.wait = .mem q → isEnumeration s.op = false → s.sinkReady = false →
    exec (decodeRow s.level raw) s =
      .next
        { s with
          raw := raw, desc := decodeDescriptor raw s.level
          wait :=
            .rpt (.wEntry s.level (s.idx.get s.level) s.base s.ea raw (pack (decodeDescriptor raw s.level))) }

/-! ### Descriptor rows in an enumeration -/

/-- Without a filter, an Invalid entry costs its read and produces nothing (R202): the next index is read.
That an enumeration keeps its entry in `EA`, `RAW` and `D` is the model's choice (notes/assumptions/27.md). -/
def Obligations.EnumerationSkipsInvalid : Prop :=
  ∀ (q : MemReq) (raw : Word) (s : State), s.wait = .mem q → isEnumeration s.op = true → s.filt = false →
    let f := s.frames.get s.top
    f.index + 1 < 512 → f.emitted < s.cap.toNat →
    let ea := f.base + ((BitVec.ofNat 9 (f.index + 1)).setWidth 48 <<< 3)
    exec (.descInvalid s.top raw) s =
      .next
        { s with
          raw := raw, desc := .invalid, ea := ea
          frames := s.frames.set s.top { f with index := f.index + 1 }
          wait := .mem { address := ea.setWidth 64, length := 8#8, tag := s.txn }
          txn := s.txn + 1
          trace := s.trace ++ [.mem (ea.setWidth 64) 8#8] }

/-- Without a filter, a Block or Page entry is emitted, counted once, and the next index is read while the cap allows (R200, R204,
R205).
That an enumeration keeps its entry in `EA`, `RAW` and `D` is the model's choice (notes/assumptions/27.md). -/
def Obligations.EnumerationEmitsLeaves : Prop :=
  ∀ (q : MemReq) (raw : Word) (s : State), s.wait = .mem q → isEnumeration s.op = true → s.filt = false →
    s.sinkReady = true →
    let f := s.frames.get s.top
    f.index + 1 < 512 → f.emitted + 1 < s.cap.toNat →
    let d := decodeDescriptor raw s.top
    (d.kind = .block ∨ d.kind = .page) →
    let ea := f.base + ((BitVec.ofNat 9 (f.index + 1)).setWidth 48 <<< 3)
    let cp := f.vprefix ||| ((BitVec.ofNat 9 f.index).setWidth 64 <<< Config.shift s.top)
    exec (decodeRow s.top raw) s =
      .next
        { s with
          raw := raw, desc := d, ea := ea
          frames := s.frames.set s.top { f with index := f.index + 1, emitted := f.emitted + 1 }
          wait := .mem { address := ea.setWidth 64, length := 8#8, tag := s.txn }
          txn := s.txn + 1
          trace :=
            s.trace ++
              [.record
                  (.eEntry s.top (BitVec.ofNat 9 f.index) f.base s.ea raw
                    (if cp.getLsbD 47 then cp ||| 0xFFFF000000000000#64 else cp) (pack d)),
                .mem (ea.setWidth 64) 8#8] }

/-- Without a filter, the entry that brings the count to the cap closes the table, truncated, when an index is left: its
`E_TABLE_END` follows, and for the root table the end of the enumeration (R204 (a), (b)).
That an enumeration keeps its entry in `EA`, `RAW` and `D` is the model's choice (notes/assumptions/27.md). -/
def Obligations.CapClosesTheRootTable : Prop :=
  ∀ (q : MemReq) (raw : Word) (s : State), s.wait = .mem q → isEnumeration s.op = true → s.filt = false →
    s.sinkReady = true → s.top = s.start →
    let f := s.frames.get s.top
    f.index + 1 < 512 → f.emitted + 1 = s.cap.toNat →
    let d := decodeDescriptor raw s.top
    (d.kind = .block ∨ d.kind = .page) →
    let cp := f.vprefix ||| ((BitVec.ofNat 9 f.index).setWidth 64 <<< Config.shift s.top)
    ∃ t : State, exec (decodeRow s.top raw) s = .next t ∧ t.withoutRegisters =
      State.withoutRegisters { s with
        wait := .idle
        trace :=
            s.trace ++
              [.record
                  (.eEntry s.top (BitVec.ofNat 9 f.index) f.base s.ea raw
                    (if cp.getLsbD 47 then cp ||| 0xFFFF000000000000#64 else cp) (pack d)),
                .record (.eTableEnd s.top f.base (BitVec.ofNat 10 (f.emitted + 1)) true), .record .rEnumDone] }

/-- A Table entry is emitted and counted, and its table is opened at once, before the parent's next index (R205, R207): the
first index of the child is read. With a filter that is the target's index, without one it is 0.
That an enumeration keeps its entry in `EA`, `RAW` and `D` is the model's choice (notes/assumptions/27.md). -/
def Obligations.EnumerationOpensTables : Prop :=
  ∀ (q : MemReq) (raw : Word) (s : State), s.wait = .mem q → isEnumeration s.op = true → s.sinkReady = true →
    (s.filt = true ∨ s.cap ≠ 0#10) → s.top ≠ .l3 →
    let d := decodeDescriptor raw s.top
    d.kind = .table →
    let f := s.frames.get s.top
    let oa : PA := (raw &&& 0x0000FFFFFFFFF000#64).setWidth 48
    let next := s.top.succ
    let first := if s.filt then s.target.extractLsb' (Config.shift next) 9 else 0#9
    let ea := oa + (first.setWidth 48 <<< 3)
    let cp := f.vprefix ||| ((BitVec.ofNat 9 f.index).setWidth 64 <<< Config.shift s.top)
    exec (decodeRow s.top raw) s =
      .next
        { s with
          raw := raw, desc := d, ea := ea, top := next
          frames :=
            (s.frames.set s.top { f with emitted := f.emitted + 1 }).set next
              { base := oa, vprefix := cp, index := first.toNat, emitted := 0, truncated := false }
          wait := .mem { address := ea.setWidth 64, length := 8#8, tag := s.txn }
          txn := s.txn + 1
          trace :=
            s.trace ++
              [.record
                  (.eEntry s.top (BitVec.ofNat 9 f.index) f.base s.ea raw
                    (if cp.getLsbD 47 then cp ||| 0xFFFF000000000000#64 else cp) (pack d)),
                .mem (ea.setWidth 64) 8#8] }

/-- A descriptor word that no outstanding request waits for changes nothing (R281; the model's reading,
notes/assumptions/17.md). -/
def Obligations.UnawaitedDescriptorsAreDiscarded : Prop :=
  ∀ (level : Level) (raw : Word) (s : State), (∀ q : MemReq, s.wait ≠ .mem q) →
    exec (decodeRow level raw) s = .next s

/-! ### Failed reads, registers, reset, hang -/

/-- A failed read ends a walk (R253): no `W_ENTRY`, one `R_FAULT` with the level and the address whose read failed. -/
def Obligations.UnreadableMemoryEndsAWalk : Prop :=
  ∀ (q : MemReq) (s : State), s.wait = .mem q → s.responsive → isEnumeration s.op = false →
    q.address = s.ea.setWidth 64 → s.mem.read8 q.address = none →
    ∃ t : State, step s = .next t ∧ t.withoutRegisters =
      State.withoutRegisters { s with
        wait := .idle, trace := s.trace ++ [.record (.rFault s.level .unreadableMemory s.ea)] }

/-- A failed read in an enumeration is flagged, not counted, and the table goes on (R254, R203).
That an enumeration keeps its entry in `EA`, `RAW` and `D` is the model's choice (notes/assumptions/27.md). -/
def Obligations.UnreadableEntryIsFlagged : Prop :=
  ∀ (q : MemReq) (s : State), s.wait = .mem q → s.responsive → isEnumeration s.op = true → s.filt = false →
    s.mem.read8 q.address = none →
    let f := s.frames.get s.top
    f.index + 1 < 512 → f.emitted < s.cap.toNat →
    let ea := f.base + ((BitVec.ofNat 9 (f.index + 1)).setWidth 48 <<< 3)
    step s =
      .next
        { s with
          ea := ea
          frames := s.frames.set s.top { f with index := f.index + 1 }
          wait := .mem { address := ea.setWidth 64, length := 8#8, tag := s.txn }
          txn := s.txn + 1
          trace :=
            s.trace ++
              [.record (.eUnread s.top (BitVec.ofNat 9 f.index) f.base s.ea), .mem (ea.setWidth 64) 8#8] }

/-- An unavailable register aborts before any memory read (R255): one `R_ABORT` that names it, and nothing else. -/
def Obligations.UnavailableRegisterAborts : Prop :=
  ∀ (q : RegReq) (s : State), s.wait = .reg q → s.responsive → s.regs.get q.sel = none →
    ∃ t : State, step s = .next t ∧ t.withoutRegisters =
      State.withoutRegisters { s with wait := .idle, trace := s.trace ++ [.record (.rAbort .registerUnavailable q.sel)] }

/-- An available register is taken and the next one is read, `PC` before `TTBR0_EL1` before `TTBR1_EL1`; both TTBRs are read whichever
the address selects, and then the walk begins (R177, R178).
Where the values wait until the walk begins is the model's choice (notes/assumptions/28.md). -/
def Obligations.RegistersAreReadInOrder : Prop :=
  ∀ (tag : Nat) (v : Word) (s : State), s.responsive →
    (s.wait = .reg ⟨.pc, tag⟩ → s.regs.pc = some v →
      step s =
        .next
          { s with
            va := v, wait := .reg ⟨.ttbr0El1, s.txn⟩, txn := s.txn + 1, trace := s.trace ++ [.reg .ttbr0El1] }) ∧
    (s.wait = .reg ⟨.ttbr0El1, tag⟩ → s.regs.ttbr0El1 = some v →
      step s =
        .next
          { s with
            t0 := v, wait := .reg ⟨.ttbr1El1, s.txn⟩, txn := s.txn + 1, trace := s.trace ++ [.reg .ttbr1El1] }) ∧
    (s.wait = .reg ⟨.ttbr1El1, tag⟩ → s.regs.ttbr1El1 = some v →
      let va := if s.op = 5#4 then s.a0 else s.va
      let root := selectRoot va s.t0 v
      let ea := root + ((va.extractLsb' 39 9).setWidth 48 <<< 3)
      step s =
        .next
          { s with
            t1 := v, va := va, base := root, idx := (decompose va).idx, off := (decompose va).off, level := .l0
            pathLen := 0, ea := ea
            wait := .mem { address := ea.setWidth 64, length := 8#8, tag := s.txn }
            txn := s.txn + 1
            trace := s.trace ++ [.mem (ea.setWidth 64) 8#8] })

/-- Reset abandons a running operation (R281), between two moves of the engine or inside one: idle, no record but the one the sink
was taking, the inspected system untouched. An answer whose tag is not the outstanding request's is discarded. And in a run from an
idle engine: a reset falls in the WALK accepted before it, and the late answer in the WALK accepted after it, which it leaves as it
is. -/
def Obligations.ResetAbandonsTheOperation : Prop :=
  (∀ (rest : List Input) (s : State), s.inputs = .reset :: rest ∨ s.inputs = .resetMidway :: rest →
    ∃ t : State,
      step s = .next t ∧ t.wait = .idle ∧ t.status = .idle ∧ t.mem = s.mem ∧ t.regs = s.regs ∧ t.inputs = rest ∧
      t.txn = s.txn ∧
      (s.inputs = .reset :: rest → t.trace = s.trace ∧ t.cmd = s.cmd) ∧
      (s.inputs = .resetMidway :: rest →
        (s.wait = .idle → t.trace = s.trace ∧ t.cmd = s.cmd.tail) ∧
        (s.wait ≠ .idle → t.cmd = s.cmd ∧
          (∀ r : Record, s.wait = .rpt r → t.trace = s.trace ++ [.record r]) ∧
          ((∀ r : Record, s.wait ≠ .rpt r) → t.trace = s.trace)))) ∧
  (∀ (tag : Nat) (more : List Input) (a : Option Bytes8) (v : Option Word) (s : State),
    ((∀ q : MemReq, s.wait = .mem q → q.tag ≠ tag) → s.inputs = .memAnswer tag a :: more →
      step s = .next { s with inputs := more }) ∧
    ((∀ q : RegReq, s.wait = .reg q → q.tag ≠ tag) → s.inputs = .regAnswer tag v :: more →
      step s = .next { s with inputs := more })) ∧
  (∀ (x y : Operands) (p p' : Packet) (rest : List Packet) (a : Option Bytes8) (more : List Input) (s : State),
    s.wait = .idle → decodePacket p = some (.walk x) → decodePacket p' = some (.walk y) → s.cmd = p :: p' :: rest →
    s.inputs = .turn :: .reset :: .turn :: .memAnswer s.txn a :: more →
    let ea (z : Operands) : Word :=
      (selectRoot z.a0 z.a1 z.a2 + ((z.a0.extractLsb' 39 9).setWidth 48 <<< 3)).setWidth 64
    ∃ u : State,
      Sys2Proof.core.run 4 s = .next u ∧ u.wait = .mem { address := ea y, length := 8#8, tag := s.txn + 1 } ∧
      u.trace = s.trace ++ [.mem (ea x) 8#8, .mem (ea y) 8#8] ∧ u.cmd = rest ∧ u.inputs = more)

/-- A turn among the inputs is the engine's own move, as it makes it with no input due, or passes when the engine has none; so inputs
fall between any two moves (R284). With no input left, an unanswered request or a record the sink does not take hangs the engine: it
has no step, neither a timeout nor a way round (R286, R287); and in every other state there is a step. That a hang is said with a
fault, and that turns stand among inputs, is the model's choice (notes/assumptions/13.md, 10.md). -/
def Obligations.TheEngineHangsExactlyWhenUnanswered : Prop :=
  (∀ (rest : List Input) (s : State), s.inputs = .turn :: rest →
    (∀ t : State, step { s with inputs := [] } = .next t → step s = .next { t with inputs := rest }) ∧
    (∀ f : Fault, step { s with inputs := [] } = .fault f → step s = .next { s with inputs := rest })) ∧
  (∀ s : State, s.inputs = [] →
    (∀ q : MemReq, s.wait = .mem q → s.readerLive = false → step s = .fault .memoryUnanswered) ∧
    (∀ q : RegReq, s.wait = .reg q → s.readerLive = false → step s = .fault .registerUnanswered) ∧
    (∀ r : Record, s.wait = .rpt r → s.sinkReady = false → step s = .fault .sinkStalled)) ∧
  ∀ s : State,
    (∃ t : State, step s = .next t) ∨
      (s.inputs = [] ∧
        ((∃ q, s.wait = .mem q ∧ s.readerLive = false ∧ step s = .fault .memoryUnanswered) ∨
          (∃ q, s.wait = .reg q ∧ s.readerLive = false ∧ step s = .fault .registerUnanswered) ∨
          (∃ r, s.wait = .rpt r ∧ s.sinkReady = false ∧ step s = .fault .sinkStalled)))

/-! ### The step -/

/-- A step of an idle engine whose turn it is, with a packet waiting, runs the decoded instruction; an illegal packet is accepted,
makes no request, and ends in `R_ILLEGAL` (R110, R115, R256); with nothing waiting the engine waits (R42).
Turns, and the step of an engine with nothing to do, are the model's choice (notes/assumptions/10.md, 25.md). -/
def Obligations.StepRunsThePacket : Prop :=
  ∀ (due : List Input) (s : State), s.turnDue due → s.wait = .idle →
    (s.cmd = [] → step s = .next { s with inputs := due }) ∧
    (∀ (p : Packet) (rest : List Packet), s.cmd = p :: rest →
      (∀ i : Instr, decodePacket p = some i → step s = exec i { s with cmd := rest, inputs := due }) ∧
      (decodePacket p = none → s.sinkReady = true →
        ∃ t : State, step s = .next t ∧ t.withoutRegisters =
          State.withoutRegisters
            { s with cmd := rest, inputs := due, trace := s.trace ++ [.record (.rIllegal p.cmdw)] }))

/-- A step of an engine that waits for a descriptor runs the row its word decodes to at the current level, whether a live reader
answers from the inspected memory in the engine's turn or the answer comes as an input (R61, R94, R170, R200).
That a descriptor row is run when its word arrives, turns, and the moment a live reader answers for are the model's reading
(notes/assumptions/2.md, 10.md, 26.md). -/
def Obligations.StepRunsTheDescriptor : Prop :=
  ∀ (q : MemReq) (b : Bytes8) (due : List Input) (s : State), s.wait = .mem q →
    (decodeRow (currentLevel s) (le64 b)).wf = true ∧
    (s.turnDue due → s.readerLive = true → s.mem.read8 q.address = some b →
      step s = exec (decodeRow (currentLevel s) (le64 b)) { s with inputs := due }) ∧
    (s.inputs = .memAnswer q.tag (some b) :: due →
      step s = exec (decodeRow (currentLevel s) (le64 b)) { s with inputs := due })

/-- Reset leaves the engine idle with nothing outstanding and nothing pending, ready for a packet (R42, R280). -/
def Obligations.ResetLeavesTheEngineIdle : Prop :=
  State.reset.status = .idle ∧ State.reset.wait = .idle ∧ State.reset.cmd = [] ∧ State.reset.trace = []

/-! ### Invariants and whole-machine rules -/

/-- The invariant holds at reset. -/
def Obligations.ResetMeetsTheInvariant : Prop := State.reset.Inv

/-- Every step keeps the invariant: memory canonical, every request an aligned 8-byte read below `2^48` or a read of a consumed
register, every record sound, the registers agreeing with what the engine waits for (R25, R26, R29, R64, R66, R75).
That an enumeration keeps its entry in `EA`, `RAW` and `D` is the model's choice (notes/assumptions/27.md). -/
def Obligations.EveryStepKeepsTheInvariant : Prop :=
  ∀ s t : State, s.Inv → step s = .next t → t.Inv

/-- The engine never writes the inspected system (R67): no step changes its memory or registers unless the outside does so in that
step; and what has been reported stays reported, in order (R116). -/
def Obligations.TheEngineOnlyReads : Prop :=
  ∀ s t : State, step s = .next t →
    ((∀ rest a b, s.inputs ≠ .memoryChange a b :: rest) → (∀ rest a b, s.inputs ≠ .memoryFails a b :: rest) →
      t.mem = s.mem) ∧
    ((∀ rest sel v, s.inputs ≠ .registerChange sel v :: rest) → t.regs = s.regs) ∧
    (∃ events : List Event, t.trace = s.trace ++ events)

/-- Every record offered is taken by a ready sink before the engine's move ends, so no move of a sound engine leaves one pending (R71: each
record before the next request; the six records of notes/assumptions/4.md suffice). -/
def Obligations.ReadySinkLeavesNothingPending : Prop :=
  ∀ (due : List Input) (s t : State), s.Inv → s.turnDue due → s.sinkReady = true → step s = .next t →
    ∀ r : Record, t.wait ≠ .rpt r

/-- No command reads a register of an earlier operation (R20, R280): from idle states that agree outside the registers, every
command and every illegal packet has outcomes that agree outside the registers.
That a descriptor row does nothing on an idle engine is the model's choice (notes/assumptions/17.md). -/
def Obligations.CommandsIgnoreOldRegisters : Prop :=
  ∀ s s' : State, s.wait = .idle → s.withoutRegisters = s'.withoutRegisters →
    (∀ i : Instr, Outcome.agree (exec i s) (exec i s')) ∧
    (∀ p : Packet, Outcome.agree (runPacket p s) (runPacket p s'))

/-- Whole runs do not depend on the values registers hold when the engine is idle (R20, R42, R280): from idle states that agree
outside the registers, runs of every length agree outside the registers, whatever the outside does meanwhile. -/
def Obligations.RunsIgnoreOldRegisters : Prop :=
  ∀ s s' : State, s.wait = .idle → s.withoutRegisters = s'.withoutRegisters →
    ∀ n : Nat, Outcome.agree (Sys2Proof.core.run n s) (Sys2Proof.core.run n s')

/-! ### The two readings of an operation -/

/-- WALK, WALKR and WALKPC, run step by step against a reader that answers at once, produce the events of the big-step walk and
end idle, with nothing else of the outside changed, within 4 memory answers (and 2 or 3 register answers) (R12, R170, R175 to
R178). -/
def Obligations.WalksRefineTheBigStep : Prop :=
  ∀ (x : Operands) (s : State), s.wait = .idle → s.responsive →
    ∀ (i : Instr) (events : List Event) (bound : Nat),
      ((i = .walk x ∧ events = (Machine.walk (fun _ => s.mem.read8) x.a0 x.a1 x.a2).1 ∧ bound = 4) ∨
        (i = .walkr x ∧ events = (walkRegisters (fun _ => s.mem.read8) s.regs.get x.a0).1 ∧ bound = 6) ∨
        (i = .walkpc x ∧ events = (walkProgramCounter (fun _ => s.mem.read8) s.regs.get).1 ∧ bound = 7)) →
      ∃ t : State, exec i s = .next t ∧
        ∃ n : Nat, n ≤ bound ∧ ∃ u : State, Sys2Proof.core.run n t = .next u ∧ u.wait = .idle ∧
          u.withoutRegisters = State.withoutRegisters { s with txn := u.txn, trace := s.trace ++ events }

/-- ENUM and ENUMT, run step by step against a reader that answers at once, produce the events of the big-step enumeration and end
idle, with nothing else of the outside changed (R12, R200, R210, R211). -/
def Obligations.EnumerationsRefineTheBigStep : Prop :=
  ∀ (level : Level) (cap : BitVec 10) (x : Operands) (s : State), s.wait = .idle → s.responsive →
    ∀ (i : Instr) (events : List Event),
      ((i = .enum level cap x ∧ events = (enumerate (fun _ => s.mem.read8) x.a0 x.a1 level none cap.toNat).events) ∨
        (i = .enumt level cap x ∧ events = (enumerate (fun _ => s.mem.read8) x.a0 x.a1 level (some x.a2) cap.toNat).events)) →
      ∃ t : State, exec i s = .next t ∧
        ∃ n : Nat, ∃ u : State, Sys2Proof.core.run n t = .next u ∧ u.wait = .idle ∧
          u.withoutRegisters = State.withoutRegisters { s with txn := u.txn, trace := s.trace ++ events }

/-- Every answer counts for itself (R77, R284, U15): from an idle engine with a ready sink, when each request of a walk or an
enumeration is answered by an input with whatever an oracle says to that request, the operation's events are those of the big-step
reading of that oracle, and it ends idle after one step an answer, whatever the inspected memory and registers hold meanwhile.
Inputs and tags are the model's choice (notes/assumptions/10.md, 11.md). -/
def Obligations.OperationsFollowTheirAnswers : Prop :=
  ∀ (answers : Reader) (registers : RegSel → Option Word) (level : Level) (cap : BitVec 10) (x : Operands)
    (more : List Input) (s : State), s.wait = .idle → s.sinkReady = true →
    ∀ (i : Instr) (events : List Event),
      ((i = .walk x ∧ events = (Machine.walk answers x.a0 x.a1 x.a2).1) ∨
        (i = .walkr x ∧ events = (walkRegisters answers registers x.a0).1) ∨
        (i = .walkpc x ∧ events = (walkProgramCounter answers registers).1) ∨
        (i = .enum level cap x ∧ events = (enumerate answers x.a0 x.a1 level none cap.toNat).events) ∨
        (i = .enumt level cap x ∧ events = (enumerate answers x.a0 x.a1 level (some x.a2) cap.toNat).events)) →
      let due := answerInputs answers registers s.txn 0 events
      s.inputs = due ++ more →
      ∃ t : State, exec i s = .next t ∧
        ∃ u : State, Sys2Proof.core.run due.length t = .next u ∧ u.wait = .idle ∧
          u.withoutRegisters =
            State.withoutRegisters
              { s with inputs := more, txn := s.txn + due.length, trace := s.trace ++ events }

/-- The path of a walk (R172): one entry per level read, from level 0 up, each the `W_ENTRY` reported; its length by outcome; and one
terminal record that says the outcome, last. -/
def Obligations.WalkPathMatchesItsOutcome : Prop :=
  ∀ (read : Reader) (va t0 t1 : Word),
    let r := Machine.walk read va t0 t1
    (∃ last : Record, recordsOf r.1 = r.2.path.map PathEntry.record ++ [last] ∧
      ((∃ (pa : PA) (path : List PathEntry) (level : Level) (k : Kind), r.2 = .mapped pa path ∧ last = .rMapped pa level k ∧
          ((k = .block ∧ (level = .l1 ∨ level = .l2)) ∨ (k = .page ∧ level = .l3)) ∧
          path.length = level.toNat + 1 ∧ (requestsOf r.1).length = level.toNat + 1) ∨
        (∃ (level : Level) (ea : PA) (path : List PathEntry), r.2 = .fault level .invalidEntry ea path ∧
          last = .rFault level .invalidEntry ea ∧ path.length = level.toNat + 1 ∧
          (∃ e : PathEntry, path.getLast? = some e ∧ e.descriptor = .invalid ∧ e.entryAddress = ea) ∧
          (requestsOf r.1).length = level.toNat + 1) ∨
        (∃ (level : Level) (ea : PA) (path : List PathEntry), r.2 = .fault level .unreadableMemory ea path ∧
          last = .rFault level .unreadableMemory ea ∧ path.length = level.toNat ∧
          (requestsOf r.1).length = level.toNat + 1))) ∧
    r.2.path.map (fun e => e.level.toNat) = List.range r.2.path.length

/-- `ENUMT` from the root at level 0 reads the same entry addresses in the same order as `WALK` of the same address (R179). -/
def Obligations.TargetedEnumerationReadsTheWalk : Prop :=
  ∀ (read : Reader) (va t0 t1 vprefix : Word) (cap : Nat),
    requestsOf (enumerate read ((selectRoot va t0 t1).setWidth 64) vprefix .l0 (some va) cap).events =
      requestsOf (Machine.walk read va t0 t1).1

/-- The record stream of an enumeration is the pre-order walk of its tree, and `R_ENUM_DONE` ends it (R118). -/
def Obligations.EnumerationStreamIsTheTree : Prop :=
  ∀ (read : Reader) (base vprefix : Word) (level : Level) (filter : Option Word) (cap : Nat),
    let r := enumerate read base vprefix level filter cap
    recordsOf r.events = r.node.records ++ [.rEnumDone]

/-- The tree of an enumeration has the shape of R28 and the bounds of R29: at most `4 - level` tables deep, indices ascending, at
most `min(cap, 512)` entries in a table without a filter and one with a filter. -/
def Obligations.EnumerationTreeIsBounded : Prop :=
  ∀ (read : Reader) (base vprefix : Word) (level : Level) (filter : Option Word) (cap : Nat),
    (enumerate read base vprefix level filter cap).node.shaped (if filter.isSome then 1 else min cap 512)
      (4 - level.toNat) level

/-- Work bounds of an enumeration (R209), a table counted by its `E_TABLE_END`: without a filter at most `1 + c + ... + c^(n-1)`
tables and at most 512 reads for each, with one at most `n` tables and `n` reads. -/
def Obligations.EnumerationWorkIsBounded : Prop :=
  ∀ (read : Reader) (base vprefix : Word) (level : Level) (cap : Nat) (target : Word),
    let wide := enumerate read base vprefix level none cap
    let narrow := enumerate read base vprefix level (some target) cap
    tablesOf wide.events ≤ ((List.range (4 - level.toNat)).map (fun k => (min cap 512) ^ k)).sum ∧
      (requestsOf wide.events).length ≤ 512 * tablesOf wide.events ∧
      tablesOf narrow.events ≤ 4 - level.toNat ∧ (requestsOf narrow.events).length ≤ 4 - level.toNat

/-- A cap of 512 or more truncates no table, and any two such caps give the same enumeration (R204 (e)); with a filter no table is
truncated and the cap is not consulted (R204, R211, D29). No table: neither an `E_TABLE_END` of the stream nor a node of the tree,
the root's among them. -/
def Obligations.LargeCapsAndFilteredCapsAgree : Prop :=
  ∀ (read : Reader) (base vprefix : Word) (level : Level) (target : Word) (cap cap' : Nat),
    let wide := enumerate read base vprefix level none cap
    let narrow := enumerate read base vprefix level (some target) cap
    (512 ≤ cap → 512 ≤ cap' → wide = enumerate read base vprefix level none cap') ∧
    (512 ≤ cap →
      wide.node.untruncated = true ∧
      (∀ (level' : Level) (base' : PA) (emitted : BitVec 10) (truncated : Bool),
        Record.eTableEnd level' base' emitted truncated ∈ recordsOf wide.events → truncated = false) ∧
      ∃ (children : List Child) (emitted : Nat), wide.node = .node level (tableBaseOf base) children emitted false) ∧
    narrow = enumerate read base vprefix level (some target) cap' ∧
    narrow.node.untruncated = true ∧
    (∀ (level' : Level) (base' : PA) (emitted : BitVec 10) (truncated : Bool),
      Record.eTableEnd level' base' emitted truncated ∈ recordsOf narrow.events → truncated = false) ∧
    ∃ (children : List Child) (emitted : Nat), narrow.node = .node level (tableBaseOf base) children emitted false

/-- The stream of an operation ends in exactly one terminal record (R116, R117). -/
def Obligations.OneTerminalRecordEndsEachStream : Prop :=
  ∀ (read : Reader) (register : RegSel → Option Word) (va t0 t1 base vprefix : Word) (level : Level)
    (filter : Option Word) (cap : Nat) (events : List Event),
    (events = (Machine.walk read va t0 t1).1 ∨ events = (walkRegisters read register va).1 ∨
        events = (walkProgramCounter read register).1 ∨
        events = (enumerate read base vprefix level filter cap).events) →
      ∃ (before : List Event) (last : Record), events = before ++ [.record last] ∧ last.terminal = true ∧
        ∀ r ∈ recordsOf before, r.terminal = false
end

