-- ==== Sys2Proof/Laws/Decode.lean ====
section
/-!
SUPPORT. The fields of a built packet, levels and their bits, and the command rows of R112.
-/
namespace Sys2Proof

@[simp] theorem Level.ofBits_bits (level : Level) : Level.ofBits level.bits = level := by cases level <;> rfl

theorem Level.bits_ofBits (b : BitVec 2) : (Level.ofBits b).bits = b := by
  revert b
  decide

theorem Level.toNat_succ (level : Level) (h : level ≠ .l3) : level.succ.toNat = level.toNat + 1 := by
  cases level <;> first | rfl | exact absurd rfl h

theorem Level.toNat_le (level : Level) : level.toNat ≤ 3 := by cases level <;> decide

theorem Level.toNat_inj (a b : Level) (h : a.toNat = b.toNat) : a = b := by
  cases a <;> cases b <;> first | rfl | exact absurd h (by decide)

/-- Levels rise by one from `pred` to a level that is not 0. -/
theorem Level.toNat_pred (level : Level) (h : level ≠ .l0) : level.pred.toNat + 1 = level.toNat := by
  cases level <;> first | rfl | exact absurd rfl h

@[simp] theorem commandPacket_a0 (op : BitVec 4) (lvl : BitVec 2) (cap : BitVec 10) (x : Operands) :
    (commandPacket op lvl cap x).a0 = x.a0 := rfl

@[simp] theorem commandPacket_a1 (op : BitVec 4) (lvl : BitVec 2) (cap : BitVec 10) (x : Operands) :
    (commandPacket op lvl cap x).a1 = x.a1 := rfl

@[simp] theorem commandPacket_a2 (op : BitVec 4) (lvl : BitVec 2) (cap : BitVec 10) (x : Operands) :
    (commandPacket op lvl cap x).a2 = x.a2 := rfl

@[simp] theorem commandPacket_operands (op : BitVec 4) (lvl : BitVec 2) (cap : BitVec 10) (x : Operands) :
    (commandPacket op lvl cap x).operands = x := rfl

/-- A built packet's `OP` is the one it was built with (R111). -/
@[simp] theorem cmdOp_commandPacket (op : BitVec 4) (lvl : BitVec 2) (cap : BitVec 10) (x : Operands) :
    cmdOp (commandPacket op lvl cap x).cmdw = op := by
  ext i hi
  simp only [cmdOp, commandPacket, BitVec.getElem_extractLsb', BitVec.getLsbD_or, BitVec.getLsbD_setWidth,
    BitVec.getLsbD_shiftLeft]
  have h4 : i < 4 := hi
  simp [h4, show i < 8 by omega, show i < 32 by omega, BitVec.getLsbD_eq_getElem]

/-- A built packet's `LVL` is the one it was built with (R111). -/
@[simp] theorem cmdLvl_commandPacket (op : BitVec 4) (lvl : BitVec 2) (cap : BitVec 10) (x : Operands) :
    cmdLvl (commandPacket op lvl cap x).cmdw = lvl := by
  ext i hi
  simp only [cmdLvl, commandPacket, BitVec.getElem_extractLsb', BitVec.getLsbD_or, BitVec.getLsbD_setWidth,
    BitVec.getLsbD_shiftLeft]
  have h2 : i < 2 := hi
  simp [show 4 + i < 8 by omega, show 4 + i < 32 by omega, show i < 32 by omega, BitVec.getLsbD_eq_getElem, h2]

/-- A built packet's `CAP` is the one it was built with (R111). -/
@[simp] theorem cmdCap_commandPacket (op : BitVec 4) (lvl : BitVec 2) (cap : BitVec 10) (x : Operands) :
    cmdCap (commandPacket op lvl cap x).cmdw = cap := by
  ext i hi
  simp only [cmdCap, commandPacket, BitVec.getElem_extractLsb', BitVec.getLsbD_or, BitVec.getLsbD_setWidth,
    BitVec.getLsbD_shiftLeft]
  have h10 : i < 10 := hi
  have h0 : op.getLsbD (8 + i) = false := BitVec.getLsbD_of_ge _ _ (by omega)
  have h1 : lvl.getLsbD (8 + i - 4) = false := BitVec.getLsbD_of_ge _ _ (by omega)
  simp [h0, h1, show 8 + i < 32 by omega, show i < 32 by omega, BitVec.getLsbD_eq_getElem, h10]

/-- The nine (mask, match) pairs of R112 in the order of the table. -/
def commandRows : List (Cmdw × Cmdw) :=
  [(0xFFFFFFFF#32, 0x00000001#32), (0xFFFFFFFF#32, 0x00000002#32), (0xFFFFFFCF#32, 0x00000003#32),
    (0xFFFFFFFF#32, 0x00000004#32), (0xFFFFFFFF#32, 0x00000005#32), (0xFFFFFFFF#32, 0x00000006#32),
    (0xFFFC00CF#32, 0x00000007#32), (0xFFFC00CF#32, 0x00000008#32), (0xFFFFFFFF#32, 0x00000009#32)]

/-- Every row fixes `OP`, and no two rows fix it alike, so no command word is in two rows (R115). -/
theorem commandRows_disjoint :
    commandRows.Pairwise (fun a b => a.1 &&& b.1 &&& 0xF#32 = 0xF#32 ∧ a.2 &&& 0xF#32 ≠ b.2 &&& 0xF#32) := by
  decide

end Sys2Proof
end

