-- ==== Sys2Proof/Laws/State.lean ====
section
/-!
SUPPORT. What each update of the state leaves in each field, and the frame stack read after a write. Each is true by unfolding the
update once, so that no later proof unfolds it.
-/
namespace Sys2Proof.Machine

@[simp] theorem latch_wait (p : Packet) (s : State) : (latch p s).wait = s.wait := rfl
@[simp] theorem latch_cmd (p : Packet) (s : State) : (latch p s).cmd = s.cmd := rfl
@[simp] theorem latch_op (p : Packet) (s : State) : (latch p s).op = cmdOp p.cmdw := rfl
@[simp] theorem latch_lvl (p : Packet) (s : State) : (latch p s).lvl = cmdLvl p.cmdw := rfl
@[simp] theorem latch_cap (p : Packet) (s : State) : (latch p s).cap = cmdCap p.cmdw := rfl
@[simp] theorem latch_a0 (p : Packet) (s : State) : (latch p s).a0 = p.a0 := rfl
@[simp] theorem latch_a1 (p : Packet) (s : State) : (latch p s).a1 = p.a1 := rfl
@[simp] theorem latch_a2 (p : Packet) (s : State) : (latch p s).a2 = p.a2 := rfl
@[simp] theorem latch_va (p : Packet) (s : State) : (latch p s).va = s.va := rfl
@[simp] theorem latch_idx (p : Packet) (s : State) : (latch p s).idx = s.idx := rfl
@[simp] theorem latch_off (p : Packet) (s : State) : (latch p s).off = s.off := rfl
@[simp] theorem latch_base (p : Packet) (s : State) : (latch p s).base = s.base := rfl
@[simp] theorem latch_level (p : Packet) (s : State) : (latch p s).level = s.level := rfl
@[simp] theorem latch_ea (p : Packet) (s : State) : (latch p s).ea = s.ea := rfl
@[simp] theorem latch_raw (p : Packet) (s : State) : (latch p s).raw = s.raw := rfl
@[simp] theorem latch_desc (p : Packet) (s : State) : (latch p s).desc = s.desc := rfl
@[simp] theorem latch_t0 (p : Packet) (s : State) : (latch p s).t0 = s.t0 := rfl
@[simp] theorem latch_t1 (p : Packet) (s : State) : (latch p s).t1 = s.t1 := rfl
@[simp] theorem latch_pathLen (p : Packet) (s : State) : (latch p s).pathLen = s.pathLen := rfl
@[simp] theorem latch_frames (p : Packet) (s : State) : (latch p s).frames = s.frames := rfl
@[simp] theorem latch_top (p : Packet) (s : State) : (latch p s).top = s.top := rfl
@[simp] theorem latch_start (p : Packet) (s : State) : (latch p s).start = s.start := rfl
@[simp] theorem latch_filt (p : Packet) (s : State) : (latch p s).filt = s.filt := rfl
@[simp] theorem latch_target (p : Packet) (s : State) : (latch p s).target = s.target := rfl
@[simp] theorem latch_mem (p : Packet) (s : State) : (latch p s).mem = s.mem := rfl
@[simp] theorem latch_regs (p : Packet) (s : State) : (latch p s).regs = s.regs := rfl
@[simp] theorem latch_readerLive (p : Packet) (s : State) : (latch p s).readerLive = s.readerLive := rfl
@[simp] theorem latch_sinkReady (p : Packet) (s : State) : (latch p s).sinkReady = s.sinkReady := rfl
@[simp] theorem latch_inputs (p : Packet) (s : State) : (latch p s).inputs = s.inputs := rfl
@[simp] theorem latch_txn (p : Packet) (s : State) : (latch p s).txn = s.txn := rfl
@[simp] theorem latch_draws (p : Packet) (s : State) : (latch p s).draws = s.draws := rfl
@[simp] theorem latch_trace (p : Packet) (s : State) : (latch p s).trace = s.trace := rfl

@[simp] theorem offer_wait (r : Record) (s : State) : (offer r s).wait = .rpt r := rfl
@[simp] theorem offer_cmd (r : Record) (s : State) : (offer r s).cmd = s.cmd := rfl
@[simp] theorem offer_op (r : Record) (s : State) : (offer r s).op = s.op := rfl
@[simp] theorem offer_lvl (r : Record) (s : State) : (offer r s).lvl = s.lvl := rfl
@[simp] theorem offer_cap (r : Record) (s : State) : (offer r s).cap = s.cap := rfl
@[simp] theorem offer_a0 (r : Record) (s : State) : (offer r s).a0 = s.a0 := rfl
@[simp] theorem offer_a1 (r : Record) (s : State) : (offer r s).a1 = s.a1 := rfl
@[simp] theorem offer_a2 (r : Record) (s : State) : (offer r s).a2 = s.a2 := rfl
@[simp] theorem offer_va (r : Record) (s : State) : (offer r s).va = s.va := rfl
@[simp] theorem offer_idx (r : Record) (s : State) : (offer r s).idx = s.idx := rfl
@[simp] theorem offer_off (r : Record) (s : State) : (offer r s).off = s.off := rfl
@[simp] theorem offer_base (r : Record) (s : State) : (offer r s).base = s.base := rfl
@[simp] theorem offer_level (r : Record) (s : State) : (offer r s).level = s.level := rfl
@[simp] theorem offer_ea (r : Record) (s : State) : (offer r s).ea = s.ea := rfl
@[simp] theorem offer_raw (r : Record) (s : State) : (offer r s).raw = s.raw := rfl
@[simp] theorem offer_desc (r : Record) (s : State) : (offer r s).desc = s.desc := rfl
@[simp] theorem offer_t0 (r : Record) (s : State) : (offer r s).t0 = s.t0 := rfl
@[simp] theorem offer_t1 (r : Record) (s : State) : (offer r s).t1 = s.t1 := rfl
@[simp] theorem offer_pathLen (r : Record) (s : State) : (offer r s).pathLen = s.pathLen := rfl
@[simp] theorem offer_frames (r : Record) (s : State) : (offer r s).frames = s.frames := rfl
@[simp] theorem offer_top (r : Record) (s : State) : (offer r s).top = s.top := rfl
@[simp] theorem offer_start (r : Record) (s : State) : (offer r s).start = s.start := rfl
@[simp] theorem offer_filt (r : Record) (s : State) : (offer r s).filt = s.filt := rfl
@[simp] theorem offer_target (r : Record) (s : State) : (offer r s).target = s.target := rfl
@[simp] theorem offer_mem (r : Record) (s : State) : (offer r s).mem = s.mem := rfl
@[simp] theorem offer_regs (r : Record) (s : State) : (offer r s).regs = s.regs := rfl
@[simp] theorem offer_readerLive (r : Record) (s : State) : (offer r s).readerLive = s.readerLive := rfl
@[simp] theorem offer_sinkReady (r : Record) (s : State) : (offer r s).sinkReady = s.sinkReady := rfl
@[simp] theorem offer_inputs (r : Record) (s : State) : (offer r s).inputs = s.inputs := rfl
@[simp] theorem offer_txn (r : Record) (s : State) : (offer r s).txn = s.txn := rfl
@[simp] theorem offer_draws (r : Record) (s : State) : (offer r s).draws = s.draws := rfl
@[simp] theorem offer_trace (r : Record) (s : State) : (offer r s).trace = s.trace := rfl

@[simp] theorem logRecord_wait (r : Record) (s : State) : (logRecord r s).wait = s.wait := rfl
@[simp] theorem logRecord_cmd (r : Record) (s : State) : (logRecord r s).cmd = s.cmd := rfl
@[simp] theorem logRecord_op (r : Record) (s : State) : (logRecord r s).op = s.op := rfl
@[simp] theorem logRecord_lvl (r : Record) (s : State) : (logRecord r s).lvl = s.lvl := rfl
@[simp] theorem logRecord_cap (r : Record) (s : State) : (logRecord r s).cap = s.cap := rfl
@[simp] theorem logRecord_a0 (r : Record) (s : State) : (logRecord r s).a0 = s.a0 := rfl
@[simp] theorem logRecord_a1 (r : Record) (s : State) : (logRecord r s).a1 = s.a1 := rfl
@[simp] theorem logRecord_a2 (r : Record) (s : State) : (logRecord r s).a2 = s.a2 := rfl
@[simp] theorem logRecord_va (r : Record) (s : State) : (logRecord r s).va = s.va := rfl
@[simp] theorem logRecord_idx (r : Record) (s : State) : (logRecord r s).idx = s.idx := rfl
@[simp] theorem logRecord_off (r : Record) (s : State) : (logRecord r s).off = s.off := rfl
@[simp] theorem logRecord_base (r : Record) (s : State) : (logRecord r s).base = s.base := rfl
@[simp] theorem logRecord_level (r : Record) (s : State) : (logRecord r s).level = s.level := rfl
@[simp] theorem logRecord_ea (r : Record) (s : State) : (logRecord r s).ea = s.ea := rfl
@[simp] theorem logRecord_raw (r : Record) (s : State) : (logRecord r s).raw = s.raw := rfl
@[simp] theorem logRecord_desc (r : Record) (s : State) : (logRecord r s).desc = s.desc := rfl
@[simp] theorem logRecord_t0 (r : Record) (s : State) : (logRecord r s).t0 = s.t0 := rfl
@[simp] theorem logRecord_t1 (r : Record) (s : State) : (logRecord r s).t1 = s.t1 := rfl
@[simp] theorem logRecord_pathLen (r : Record) (s : State) : (logRecord r s).pathLen = s.pathLen := rfl
@[simp] theorem logRecord_frames (r : Record) (s : State) : (logRecord r s).frames = s.frames := rfl
@[simp] theorem logRecord_top (r : Record) (s : State) : (logRecord r s).top = s.top := rfl
@[simp] theorem logRecord_start (r : Record) (s : State) : (logRecord r s).start = s.start := rfl
@[simp] theorem logRecord_filt (r : Record) (s : State) : (logRecord r s).filt = s.filt := rfl
@[simp] theorem logRecord_target (r : Record) (s : State) : (logRecord r s).target = s.target := rfl
@[simp] theorem logRecord_mem (r : Record) (s : State) : (logRecord r s).mem = s.mem := rfl
@[simp] theorem logRecord_regs (r : Record) (s : State) : (logRecord r s).regs = s.regs := rfl
@[simp] theorem logRecord_readerLive (r : Record) (s : State) : (logRecord r s).readerLive = s.readerLive := rfl
@[simp] theorem logRecord_sinkReady (r : Record) (s : State) : (logRecord r s).sinkReady = s.sinkReady := rfl
@[simp] theorem logRecord_inputs (r : Record) (s : State) : (logRecord r s).inputs = s.inputs := rfl
@[simp] theorem logRecord_txn (r : Record) (s : State) : (logRecord r s).txn = s.txn := rfl
@[simp] theorem logRecord_draws (r : Record) (s : State) : (logRecord r s).draws = s.draws := rfl
@[simp] theorem logRecord_trace (r : Record) (s : State) : (logRecord r s).trace = s.trace ++ [.record r] := rfl

@[simp] theorem requestMem_wait (ea : PA) (s : State) : (requestMem ea s).wait = .mem { address := ea.setWidth 64, length := Config.readLen, tag := s.txn } := rfl
@[simp] theorem requestMem_cmd (ea : PA) (s : State) : (requestMem ea s).cmd = s.cmd := rfl
@[simp] theorem requestMem_op (ea : PA) (s : State) : (requestMem ea s).op = s.op := rfl
@[simp] theorem requestMem_lvl (ea : PA) (s : State) : (requestMem ea s).lvl = s.lvl := rfl
@[simp] theorem requestMem_cap (ea : PA) (s : State) : (requestMem ea s).cap = s.cap := rfl
@[simp] theorem requestMem_a0 (ea : PA) (s : State) : (requestMem ea s).a0 = s.a0 := rfl
@[simp] theorem requestMem_a1 (ea : PA) (s : State) : (requestMem ea s).a1 = s.a1 := rfl
@[simp] theorem requestMem_a2 (ea : PA) (s : State) : (requestMem ea s).a2 = s.a2 := rfl
@[simp] theorem requestMem_va (ea : PA) (s : State) : (requestMem ea s).va = s.va := rfl
@[simp] theorem requestMem_idx (ea : PA) (s : State) : (requestMem ea s).idx = s.idx := rfl
@[simp] theorem requestMem_off (ea : PA) (s : State) : (requestMem ea s).off = s.off := rfl
@[simp] theorem requestMem_base (ea : PA) (s : State) : (requestMem ea s).base = s.base := rfl
@[simp] theorem requestMem_level (ea : PA) (s : State) : (requestMem ea s).level = s.level := rfl
@[simp] theorem requestMem_ea (ea : PA) (s : State) : (requestMem ea s).ea = ea := rfl
@[simp] theorem requestMem_raw (ea : PA) (s : State) : (requestMem ea s).raw = s.raw := rfl
@[simp] theorem requestMem_desc (ea : PA) (s : State) : (requestMem ea s).desc = s.desc := rfl
@[simp] theorem requestMem_t0 (ea : PA) (s : State) : (requestMem ea s).t0 = s.t0 := rfl
@[simp] theorem requestMem_t1 (ea : PA) (s : State) : (requestMem ea s).t1 = s.t1 := rfl
@[simp] theorem requestMem_pathLen (ea : PA) (s : State) : (requestMem ea s).pathLen = s.pathLen := rfl
@[simp] theorem requestMem_frames (ea : PA) (s : State) : (requestMem ea s).frames = s.frames := rfl
@[simp] theorem requestMem_top (ea : PA) (s : State) : (requestMem ea s).top = s.top := rfl
@[simp] theorem requestMem_start (ea : PA) (s : State) : (requestMem ea s).start = s.start := rfl
@[simp] theorem requestMem_filt (ea : PA) (s : State) : (requestMem ea s).filt = s.filt := rfl
@[simp] theorem requestMem_target (ea : PA) (s : State) : (requestMem ea s).target = s.target := rfl
@[simp] theorem requestMem_mem (ea : PA) (s : State) : (requestMem ea s).mem = s.mem := rfl
@[simp] theorem requestMem_regs (ea : PA) (s : State) : (requestMem ea s).regs = s.regs := rfl
@[simp] theorem requestMem_readerLive (ea : PA) (s : State) : (requestMem ea s).readerLive = s.readerLive := rfl
@[simp] theorem requestMem_sinkReady (ea : PA) (s : State) : (requestMem ea s).sinkReady = s.sinkReady := rfl
@[simp] theorem requestMem_inputs (ea : PA) (s : State) : (requestMem ea s).inputs = s.inputs := rfl
@[simp] theorem requestMem_txn (ea : PA) (s : State) : (requestMem ea s).txn = s.txn + 1 := rfl
@[simp] theorem requestMem_draws (ea : PA) (s : State) : (requestMem ea s).draws = s.draws := rfl
@[simp] theorem requestMem_trace (ea : PA) (s : State) : (requestMem ea s).trace = s.trace ++ [.mem (ea.setWidth 64) Config.readLen] := rfl

@[simp] theorem requestReg_wait (sel : RegSel) (s : State) : (requestReg sel s).wait = .reg { sel := sel, tag := s.txn } := rfl
@[simp] theorem requestReg_cmd (sel : RegSel) (s : State) : (requestReg sel s).cmd = s.cmd := rfl
@[simp] theorem requestReg_op (sel : RegSel) (s : State) : (requestReg sel s).op = s.op := rfl
@[simp] theorem requestReg_lvl (sel : RegSel) (s : State) : (requestReg sel s).lvl = s.lvl := rfl
@[simp] theorem requestReg_cap (sel : RegSel) (s : State) : (requestReg sel s).cap = s.cap := rfl
@[simp] theorem requestReg_a0 (sel : RegSel) (s : State) : (requestReg sel s).a0 = s.a0 := rfl
@[simp] theorem requestReg_a1 (sel : RegSel) (s : State) : (requestReg sel s).a1 = s.a1 := rfl
@[simp] theorem requestReg_a2 (sel : RegSel) (s : State) : (requestReg sel s).a2 = s.a2 := rfl
@[simp] theorem requestReg_va (sel : RegSel) (s : State) : (requestReg sel s).va = s.va := rfl
@[simp] theorem requestReg_idx (sel : RegSel) (s : State) : (requestReg sel s).idx = s.idx := rfl
@[simp] theorem requestReg_off (sel : RegSel) (s : State) : (requestReg sel s).off = s.off := rfl
@[simp] theorem requestReg_base (sel : RegSel) (s : State) : (requestReg sel s).base = s.base := rfl
@[simp] theorem requestReg_level (sel : RegSel) (s : State) : (requestReg sel s).level = s.level := rfl
@[simp] theorem requestReg_ea (sel : RegSel) (s : State) : (requestReg sel s).ea = s.ea := rfl
@[simp] theorem requestReg_raw (sel : RegSel) (s : State) : (requestReg sel s).raw = s.raw := rfl
@[simp] theorem requestReg_desc (sel : RegSel) (s : State) : (requestReg sel s).desc = s.desc := rfl
@[simp] theorem requestReg_t0 (sel : RegSel) (s : State) : (requestReg sel s).t0 = s.t0 := rfl
@[simp] theorem requestReg_t1 (sel : RegSel) (s : State) : (requestReg sel s).t1 = s.t1 := rfl
@[simp] theorem requestReg_pathLen (sel : RegSel) (s : State) : (requestReg sel s).pathLen = s.pathLen := rfl
@[simp] theorem requestReg_frames (sel : RegSel) (s : State) : (requestReg sel s).frames = s.frames := rfl
@[simp] theorem requestReg_top (sel : RegSel) (s : State) : (requestReg sel s).top = s.top := rfl
@[simp] theorem requestReg_start (sel : RegSel) (s : State) : (requestReg sel s).start = s.start := rfl
@[simp] theorem requestReg_filt (sel : RegSel) (s : State) : (requestReg sel s).filt = s.filt := rfl
@[simp] theorem requestReg_target (sel : RegSel) (s : State) : (requestReg sel s).target = s.target := rfl
@[simp] theorem requestReg_mem (sel : RegSel) (s : State) : (requestReg sel s).mem = s.mem := rfl
@[simp] theorem requestReg_regs (sel : RegSel) (s : State) : (requestReg sel s).regs = s.regs := rfl
@[simp] theorem requestReg_readerLive (sel : RegSel) (s : State) : (requestReg sel s).readerLive = s.readerLive := rfl
@[simp] theorem requestReg_sinkReady (sel : RegSel) (s : State) : (requestReg sel s).sinkReady = s.sinkReady := rfl
@[simp] theorem requestReg_inputs (sel : RegSel) (s : State) : (requestReg sel s).inputs = s.inputs := rfl
@[simp] theorem requestReg_txn (sel : RegSel) (s : State) : (requestReg sel s).txn = s.txn + 1 := rfl
@[simp] theorem requestReg_draws (sel : RegSel) (s : State) : (requestReg sel s).draws = s.draws := rfl
@[simp] theorem requestReg_trace (sel : RegSel) (s : State) : (requestReg sel s).trace = s.trace ++ [.reg sel] := rfl

@[simp] theorem finish_wait (s : State) : (finish s).wait = .idle := rfl
@[simp] theorem finish_cmd (s : State) : (finish s).cmd = s.cmd := rfl
@[simp] theorem finish_mem (s : State) : (finish s).mem = s.mem := rfl
@[simp] theorem finish_regs (s : State) : (finish s).regs = s.regs := rfl
@[simp] theorem finish_readerLive (s : State) : (finish s).readerLive = s.readerLive := rfl
@[simp] theorem finish_sinkReady (s : State) : (finish s).sinkReady = s.sinkReady := rfl
@[simp] theorem finish_inputs (s : State) : (finish s).inputs = s.inputs := rfl
@[simp] theorem finish_txn (s : State) : (finish s).txn = s.txn := rfl
@[simp] theorem finish_draws (s : State) : (finish s).draws = s.draws + 1 := rfl
@[simp] theorem finish_trace (s : State) : (finish s).trace = s.trace := rfl

@[simp] theorem hold_wait (p : Packet) (s : State) : (hold p s).wait = s.wait := rfl
@[simp] theorem hold_cmd (p : Packet) (s : State) : (hold p s).cmd = s.cmd ++ [p] := rfl
@[simp] theorem hold_op (p : Packet) (s : State) : (hold p s).op = s.op := rfl
@[simp] theorem hold_lvl (p : Packet) (s : State) : (hold p s).lvl = s.lvl := rfl
@[simp] theorem hold_cap (p : Packet) (s : State) : (hold p s).cap = s.cap := rfl
@[simp] theorem hold_a0 (p : Packet) (s : State) : (hold p s).a0 = s.a0 := rfl
@[simp] theorem hold_a1 (p : Packet) (s : State) : (hold p s).a1 = s.a1 := rfl
@[simp] theorem hold_a2 (p : Packet) (s : State) : (hold p s).a2 = s.a2 := rfl
@[simp] theorem hold_va (p : Packet) (s : State) : (hold p s).va = s.va := rfl
@[simp] theorem hold_idx (p : Packet) (s : State) : (hold p s).idx = s.idx := rfl
@[simp] theorem hold_off (p : Packet) (s : State) : (hold p s).off = s.off := rfl
@[simp] theorem hold_base (p : Packet) (s : State) : (hold p s).base = s.base := rfl
@[simp] theorem hold_level (p : Packet) (s : State) : (hold p s).level = s.level := rfl
@[simp] theorem hold_ea (p : Packet) (s : State) : (hold p s).ea = s.ea := rfl
@[simp] theorem hold_raw (p : Packet) (s : State) : (hold p s).raw = s.raw := rfl
@[simp] theorem hold_desc (p : Packet) (s : State) : (hold p s).desc = s.desc := rfl
@[simp] theorem hold_t0 (p : Packet) (s : State) : (hold p s).t0 = s.t0 := rfl
@[simp] theorem hold_t1 (p : Packet) (s : State) : (hold p s).t1 = s.t1 := rfl
@[simp] theorem hold_pathLen (p : Packet) (s : State) : (hold p s).pathLen = s.pathLen := rfl
@[simp] theorem hold_frames (p : Packet) (s : State) : (hold p s).frames = s.frames := rfl
@[simp] theorem hold_top (p : Packet) (s : State) : (hold p s).top = s.top := rfl
@[simp] theorem hold_start (p : Packet) (s : State) : (hold p s).start = s.start := rfl
@[simp] theorem hold_filt (p : Packet) (s : State) : (hold p s).filt = s.filt := rfl
@[simp] theorem hold_target (p : Packet) (s : State) : (hold p s).target = s.target := rfl
@[simp] theorem hold_mem (p : Packet) (s : State) : (hold p s).mem = s.mem := rfl
@[simp] theorem hold_regs (p : Packet) (s : State) : (hold p s).regs = s.regs := rfl
@[simp] theorem hold_readerLive (p : Packet) (s : State) : (hold p s).readerLive = s.readerLive := rfl
@[simp] theorem hold_sinkReady (p : Packet) (s : State) : (hold p s).sinkReady = s.sinkReady := rfl
@[simp] theorem hold_inputs (p : Packet) (s : State) : (hold p s).inputs = s.inputs := rfl
@[simp] theorem hold_txn (p : Packet) (s : State) : (hold p s).txn = s.txn := rfl
@[simp] theorem hold_draws (p : Packet) (s : State) : (hold p s).draws = s.draws := rfl
@[simp] theorem hold_trace (p : Packet) (s : State) : (hold p s).trace = s.trace := rfl

@[simp] theorem setTopFrame_wait (f : Frame) (s : State) : (setTopFrame f s).wait = s.wait := rfl
@[simp] theorem setTopFrame_cmd (f : Frame) (s : State) : (setTopFrame f s).cmd = s.cmd := rfl
@[simp] theorem setTopFrame_op (f : Frame) (s : State) : (setTopFrame f s).op = s.op := rfl
@[simp] theorem setTopFrame_lvl (f : Frame) (s : State) : (setTopFrame f s).lvl = s.lvl := rfl
@[simp] theorem setTopFrame_cap (f : Frame) (s : State) : (setTopFrame f s).cap = s.cap := rfl
@[simp] theorem setTopFrame_a0 (f : Frame) (s : State) : (setTopFrame f s).a0 = s.a0 := rfl
@[simp] theorem setTopFrame_a1 (f : Frame) (s : State) : (setTopFrame f s).a1 = s.a1 := rfl
@[simp] theorem setTopFrame_a2 (f : Frame) (s : State) : (setTopFrame f s).a2 = s.a2 := rfl
@[simp] theorem setTopFrame_va (f : Frame) (s : State) : (setTopFrame f s).va = s.va := rfl
@[simp] theorem setTopFrame_idx (f : Frame) (s : State) : (setTopFrame f s).idx = s.idx := rfl
@[simp] theorem setTopFrame_off (f : Frame) (s : State) : (setTopFrame f s).off = s.off := rfl
@[simp] theorem setTopFrame_base (f : Frame) (s : State) : (setTopFrame f s).base = s.base := rfl
@[simp] theorem setTopFrame_level (f : Frame) (s : State) : (setTopFrame f s).level = s.level := rfl
@[simp] theorem setTopFrame_ea (f : Frame) (s : State) : (setTopFrame f s).ea = s.ea := rfl
@[simp] theorem setTopFrame_raw (f : Frame) (s : State) : (setTopFrame f s).raw = s.raw := rfl
@[simp] theorem setTopFrame_desc (f : Frame) (s : State) : (setTopFrame f s).desc = s.desc := rfl
@[simp] theorem setTopFrame_t0 (f : Frame) (s : State) : (setTopFrame f s).t0 = s.t0 := rfl
@[simp] theorem setTopFrame_t1 (f : Frame) (s : State) : (setTopFrame f s).t1 = s.t1 := rfl
@[simp] theorem setTopFrame_pathLen (f : Frame) (s : State) : (setTopFrame f s).pathLen = s.pathLen := rfl
@[simp] theorem setTopFrame_frames (f : Frame) (s : State) : (setTopFrame f s).frames = s.frames.set s.top f := rfl
@[simp] theorem setTopFrame_top (f : Frame) (s : State) : (setTopFrame f s).top = s.top := rfl
@[simp] theorem setTopFrame_start (f : Frame) (s : State) : (setTopFrame f s).start = s.start := rfl
@[simp] theorem setTopFrame_filt (f : Frame) (s : State) : (setTopFrame f s).filt = s.filt := rfl
@[simp] theorem setTopFrame_target (f : Frame) (s : State) : (setTopFrame f s).target = s.target := rfl
@[simp] theorem setTopFrame_mem (f : Frame) (s : State) : (setTopFrame f s).mem = s.mem := rfl
@[simp] theorem setTopFrame_regs (f : Frame) (s : State) : (setTopFrame f s).regs = s.regs := rfl
@[simp] theorem setTopFrame_readerLive (f : Frame) (s : State) : (setTopFrame f s).readerLive = s.readerLive := rfl
@[simp] theorem setTopFrame_sinkReady (f : Frame) (s : State) : (setTopFrame f s).sinkReady = s.sinkReady := rfl
@[simp] theorem setTopFrame_inputs (f : Frame) (s : State) : (setTopFrame f s).inputs = s.inputs := rfl
@[simp] theorem setTopFrame_txn (f : Frame) (s : State) : (setTopFrame f s).txn = s.txn := rfl
@[simp] theorem setTopFrame_draws (f : Frame) (s : State) : (setTopFrame f s).draws = s.draws := rfl
@[simp] theorem setTopFrame_trace (f : Frame) (s : State) : (setTopFrame f s).trace = s.trace := rfl

@[simp] theorem engineReset_cmd (s : State) : (engineReset s).cmd = s.cmd := rfl
@[simp] theorem engineReset_mem (s : State) : (engineReset s).mem = s.mem := rfl
@[simp] theorem engineReset_regs (s : State) : (engineReset s).regs = s.regs := rfl
@[simp] theorem engineReset_readerLive (s : State) : (engineReset s).readerLive = s.readerLive := rfl
@[simp] theorem engineReset_sinkReady (s : State) : (engineReset s).sinkReady = s.sinkReady := rfl
@[simp] theorem engineReset_inputs (s : State) : (engineReset s).inputs = s.inputs := rfl
@[simp] theorem engineReset_txn (s : State) : (engineReset s).txn = s.txn := rfl
@[simp] theorem engineReset_draws (s : State) : (engineReset s).draws = s.draws + 1 := rfl
@[simp] theorem engineReset_trace (s : State) : (engineReset s).trace = s.trace := rfl
@[simp] theorem engineReset_wait (s : State) : (engineReset s).wait = .idle := rfl

@[simp] theorem withoutRegisters_cmd (s : State) : s.withoutRegisters.cmd = s.cmd := rfl
@[simp] theorem withoutRegisters_mem (s : State) : s.withoutRegisters.mem = s.mem := rfl
@[simp] theorem withoutRegisters_regs (s : State) : s.withoutRegisters.regs = s.regs := rfl
@[simp] theorem withoutRegisters_readerLive (s : State) : s.withoutRegisters.readerLive = s.readerLive := rfl
@[simp] theorem withoutRegisters_sinkReady (s : State) : s.withoutRegisters.sinkReady = s.sinkReady := rfl
@[simp] theorem withoutRegisters_inputs (s : State) : s.withoutRegisters.inputs = s.inputs := rfl
@[simp] theorem withoutRegisters_txn (s : State) : s.withoutRegisters.txn = s.txn := rfl
@[simp] theorem withoutRegisters_trace (s : State) : s.withoutRegisters.trace = s.trace := rfl
@[simp] theorem withoutRegisters_wait (s : State) : s.withoutRegisters.wait = s.wait := rfl

@[simp] theorem Frames.get_set_same (f : Frames) (level : Level) (x : Frame) : (f.set level x).get level = x := by
  cases level <;> rfl

theorem Frames.get_set_other (f : Frames) (level other : Level) (x : Frame) (h : other ≠ level) :
    (f.set level x).get other = f.get other := by
  cases level <;> cases other <;> first | rfl | exact absurd rfl h

@[simp] theorem Frames.set_set (f : Frames) (level : Level) (x y : Frame) : (f.set level x).set level y = f.set level y := by
  cases level <;> rfl

@[simp] theorem Frames.set_get (f : Frames) (level : Level) : f.set level (f.get level) = f := by
  cases level <;> rfl

@[simp] theorem topFrame_setTopFrame (f : Frame) (s : State) : topFrame (setTopFrame f s) = f := by
  simp [topFrame]

@[simp] theorem setTopFrame_setTopFrame (f g : Frame) (s : State) : setTopFrame f (setTopFrame g s) = setTopFrame f s := by
  simp [setTopFrame]

/-- The status is read off the sequencing position (R34). -/
theorem status_idle_iff (s : State) : s.status = .idle ↔ s.wait = .idle := by
  cases h : s.wait <;> simp [State.status, h]

/-- Two states agree outside the registers exactly when the nine fields outside are equal. -/
theorem withoutRegisters_eq_iff (s t : State) :
    s.withoutRegisters = t.withoutRegisters ↔
      s.wait = t.wait ∧ s.cmd = t.cmd ∧ s.mem = t.mem ∧ s.regs = t.regs ∧ s.readerLive = t.readerLive ∧
        s.sinkReady = t.sinkReady ∧ s.inputs = t.inputs ∧ s.txn = t.txn ∧ s.trace = t.trace := by
  constructor
  · intro h
    simpa only [State.withoutRegisters, State.mk.injEq, State.reset, true_and] using h
  · rintro ⟨h1, h2, h3, h4, h5, h6, h7, h8, h9⟩
    simp only [State.withoutRegisters, h1, h2, h3, h4, h5, h6, h7, h8, h9]

end Sys2Proof.Machine
end

