-- ==== Sys2Proof/Laws/Memory.lean ====
section
/-!
SUPPORT. The memory of the inspected system keeps its canonical form under every operation, and reset's memory has it.
-/
namespace Sys2Proof.Machine

theorem risesFrom_weaken {a b : Nat} (hab : b ≤ a) : ∀ l : List Nat, risesFrom a l = true → risesFrom b l = true
  | [], _ => rfl
  | x :: rest, h => by
    simp only [risesFrom, Bool.and_eq_true, decide_eq_true_eq] at h ⊢
    exact ⟨by omega, h.2⟩

theorem setCell_rises (fill : Option Byte) (a : Nat) (b : Byte) :
    ∀ (l : List Host.Cell) (bound : Nat), bound ≤ a → risesFrom bound (l.map Prod.fst) = true →
      risesFrom bound ((setCell fill a b l).map Prod.fst) = true
  | [], bound, ha, _ => by
    unfold setCell
    split <;> simp [risesFrom, ha]
  | (x, v) :: rest, bound, ha, h => by
    simp only [List.map_cons, risesFrom, Bool.and_eq_true, decide_eq_true_eq] at h
    unfold setCell
    split
    · split
      · simpa [risesFrom] using h
      · simp only [List.map_cons, risesFrom, Bool.and_eq_true, decide_eq_true_eq]
        exact ⟨ha, by omega, h.2⟩
    · split
      · subst_vars
        split
        · exact risesFrom_weaken (by omega) _ h.2
        · simpa [risesFrom] using h
      · simp only [List.map_cons, risesFrom, Bool.and_eq_true, decide_eq_true_eq]
        exact ⟨h.1, setCell_rises fill a b rest (x + 1) (by omega) h.2⟩

/-- Every cell after a write is an old cell or the written one, and the written one only when it is not what an unlisted byte reads. -/
theorem mem_setCell (fill : Option Byte) (a : Nat) (b : Byte) :
    ∀ (l : List Host.Cell) (c : Host.Cell), c ∈ setCell fill a b l → c ∈ l ∨ (c = (a, b) ∧ fill ≠ some b)
  | [], c, h => by
    unfold setCell at h
    split at h
    · cases h
    · simp_all
  | (x, v) :: rest, c, h => by
    unfold setCell at h
    split at h
    · split at h
      · exact .inl h
      · rcases List.mem_cons.mp h with h | h
        · exact .inr ⟨h, by assumption⟩
        · exact .inl h
    · split at h
      · split at h
        · exact .inl (List.mem_cons_of_mem _ h)
        · rcases List.mem_cons.mp h with h | h
          · exact .inr ⟨h, by assumption⟩
          · exact .inl (List.mem_cons_of_mem _ h)
      · rcases List.mem_cons.mp h with h | h
        · exact .inl (h ▸ List.mem_cons_self)
        · rcases mem_setCell fill a b rest c h with h | h
          · exact .inl (List.mem_cons_of_mem _ h)
          · exact .inr h

theorem insertAddress_rises (a : Nat) :
    ∀ (l : List Nat) (bound : Nat), bound ≤ a → risesFrom bound l = true → risesFrom bound (insertAddress a l) = true
  | [], bound, ha, _ => by simp [insertAddress, risesFrom, ha]
  | x :: rest, bound, ha, h => by
    simp only [risesFrom, Bool.and_eq_true, decide_eq_true_eq] at h
    unfold insertAddress
    split
    · simp only [risesFrom, Bool.and_eq_true, decide_eq_true_eq]
      exact ⟨ha, by omega, h.2⟩
    · split
      · simpa [risesFrom] using h
      · simp only [risesFrom, Bool.and_eq_true, decide_eq_true_eq]
        exact ⟨h.1, insertAddress_rises a rest (x + 1) (by omega) h.2⟩

theorem mem_insertAddress (a : Nat) : ∀ (l : List Nat) (c : Nat), c ∈ insertAddress a l → c ∈ l ∨ c = a
  | [], c, h => by simp_all [insertAddress]
  | x :: rest, c, h => by
    unfold insertAddress at h
    split at h
    · simp_all [or_comm]
    · split at h
      · exact .inl h
      · rcases List.mem_cons.mp h with h | h
        · exact .inl (h ▸ List.mem_cons_self)
        · rcases mem_insertAddress a rest c h with h | h
          · exact .inl (List.mem_cons_of_mem _ h)
          · exact .inr h

theorem removeAddress_rises (a : Nat) :
    ∀ (l : List Nat) (bound : Nat), risesFrom bound l = true → risesFrom bound (removeAddress a l) = true
  | [], _, _ => rfl
  | x :: rest, bound, h => by
    simp only [risesFrom, Bool.and_eq_true, decide_eq_true_eq] at h
    unfold removeAddress
    split
    · exact risesFrom_weaken (by omega) _ (removeAddress_rises a rest (x + 1) h.2)
    · simp only [risesFrom, Bool.and_eq_true, decide_eq_true_eq]
      exact ⟨h.1, removeAddress_rises a rest (x + 1) h.2⟩

theorem mem_removeAddress (a : Nat) : ∀ (l : List Nat) (c : Nat), c ∈ removeAddress a l → c ∈ l ∧ c ≠ a
  | [], c, h => by simp [removeAddress] at h
  | x :: rest, c, h => by
    unfold removeAddress at h
    split at h
    · have := mem_removeAddress a rest c h
      exact ⟨List.mem_cons_of_mem _ this.1, this.2⟩
    · rcases List.mem_cons.mp h with h | h
      · subst h
        exact ⟨List.mem_cons_self, by omega⟩
      · have := mem_removeAddress a rest c h
        exact ⟨List.mem_cons_of_mem _ this.1, this.2⟩

/-- A changed byte keeps the canonical form. -/
theorem setByte_wf (m : Memory) (address : Word) (b : Byte) (h : m.wf = true) : (m.setByte address b).wf = true := by
  simp only [Memory.wf, Bool.and_eq_true, List.all_eq_true, decide_eq_true_eq] at h ⊢
  obtain ⟨⟨⟨⟨hr, hf⟩, hc⟩, hfa⟩, hfill⟩ := h
  refine ⟨⟨⟨⟨setCell_rises _ _ _ _ _ (Nat.zero_le _) hr, hf⟩, ?_⟩, hfa⟩, ?_⟩
  · intro c hcm
    rcases mem_setCell _ _ _ _ _ hcm with h | ⟨rfl, _⟩
    · exact hc c h
    · exact address.isLt
  · intro c hcm
    rcases mem_setCell _ _ _ _ _ hcm with h | ⟨rfl, h⟩
    · exact hfill c h
    · exact h

/-- A changed word keeps the canonical form. -/
theorem setWord_wf (m : Memory) (address w : Word) (h : m.wf = true) : (m.setWord address w).wf = true := by
  unfold Memory.setWord
  exact setByte_wf _ _ _ (setByte_wf _ _ _ (setByte_wf _ _ _ (setByte_wf _ _ _ (setByte_wf _ _ _ (setByte_wf _ _ _
    (setByte_wf _ _ _ (setByte_wf _ _ _ h)))))))

/-- A change of where reads fail keeps the canonical form. -/
theorem setFailing_wf (m : Memory) (address : Word) (fails : Bool) (h : m.wf = true) :
    (m.setFailing address fails).wf = true := by
  simp only [Memory.wf, Bool.and_eq_true, List.all_eq_true, decide_eq_true_eq] at h ⊢
  obtain ⟨⟨⟨⟨hr, hf⟩, hc⟩, hfa⟩, hfill⟩ := h
  cases fails
  · exact ⟨⟨⟨⟨hr, removeAddress_rises _ _ _ hf⟩, hc⟩, fun c hcm => hfa c (mem_removeAddress _ _ _ hcm).1⟩, hfill⟩
  · refine ⟨⟨⟨⟨hr, insertAddress_rises _ _ _ (Nat.zero_le _) hf⟩, hc⟩, fun c hcm => ?_⟩, hfill⟩
    rcases mem_insertAddress _ _ _ hcm with h | rfl
    · exact hfa c h
    · exact address.isLt

/-- Reset's memory has the canonical form. -/
theorem reset_mem_wf : State.reset.mem.wf = true := rfl

/-- The cell just written is the one looked up; every other address is looked up as before. -/
theorem lookupCell_setCell (fill : Option Byte) (a a' : Nat) (b : Byte) :
    ∀ (l : List Host.Cell) (bound : Nat), risesFrom bound (l.map Prod.fst) = true →
      (lookupCell a' (setCell fill a b l)).or fill = if a' = a then some b else (lookupCell a' l).or fill := by
  have below : ∀ (l : List Host.Cell) (bound : Nat), risesFrom bound (l.map Prod.fst) = true → ∀ c, c < bound →
      lookupCell c l = none := by
    intro l
    induction l with
    | nil => intros; rfl
    | cons y rest ih =>
      intro bound h c hc
      simp only [List.map_cons, risesFrom, Bool.and_eq_true, decide_eq_true_eq] at h
      simp only [lookupCell]
      rw [if_neg (by omega)]
      exact ih _ h.2 c (by omega)
  intro l
  induction l with
  | nil =>
    intro bound _
    by_cases hf : fill = some b
    · subst hf
      by_cases ha : a' = a <;> simp [setCell, lookupCell, ha]
    · by_cases ha : a' = a
      · simp [setCell, lookupCell, hf, ha]
      · simp [setCell, lookupCell, hf, ha, Ne.symm ha]
  | cons y rest ih =>
    obtain ⟨x, v⟩ := y
    intro bound h
    simp only [List.map_cons, risesFrom, Bool.and_eq_true, decide_eq_true_eq] at h
    have hnone := below rest (x + 1) h.2
    unfold setCell
    split
    · rename_i hlt
      have hne : x ≠ a := by omega
      split
      · rename_i hf
        subst hf
        by_cases ha : a' = a
        · subst ha
          simp [lookupCell, hne, hnone a' (by omega)]
        · simp [ha]
      · by_cases ha : a' = a
        · simp [lookupCell, ha]
        · simp [lookupCell, ha, Ne.symm ha]
    · split
      · rename_i hax
        subst hax
        split
        · rename_i hf
          subst hf
          by_cases ha : a' = a
          · subst ha
            simp [hnone a' (by omega)]
          · simp [lookupCell, ha, Ne.symm ha]
        · by_cases ha : a' = a
          · simp [lookupCell, ha]
          · simp [lookupCell, ha, Ne.symm ha]
      · rename_i hlt hne
        by_cases hx : x = a'
        · have : a' ≠ a := by omega
          simp [lookupCell, hx, this]
        · simp only [lookupCell, if_neg hx]
          exact ih _ h.2

/-- What a byte change does to every byte of the inspected memory. -/
theorem byteAt_setByte (m : Memory) (address : Word) (b : Byte) (a : Nat) (h : m.wf = true) :
    (m.setByte address b).byteAt a = if a = address.toNat then some b else m.byteAt a := by
  have hr : risesFrom 0 (m.cells.map Prod.fst) = true := by
    simp only [Memory.wf, Bool.and_eq_true] at h
    exact h.1.1.1.1
  have hl := lookupCell_setCell m.fill address.toNat a b m.cells 0 hr
  unfold Memory.byteAt Memory.setByte
  by_cases ha : a = address.toNat
  · have := address.isLt
    rw [if_neg (by omega), hl, if_pos ha, if_pos ha]
  · simp only [hl, if_neg ha]

/-- Changes of where reads fail leave every byte. -/
@[simp] theorem byteAt_setFailing (m : Memory) (address : Word) (fails : Bool) (a : Nat) :
    (m.setFailing address fails).byteAt a = m.byteAt a := rfl

/-- Register changes: the one named takes the value, the others keep theirs. -/
theorem SysRegs.get_set (r : SysRegs) (sel sel' : RegSel) (v : Option Word) :
    (r.set sel v).get sel' = if sel' = sel then v else r.get sel' := by
  cases sel <;> cases sel' <;> rfl

end Sys2Proof.Machine
end

