-- ==== Sys2Proof/Laws/Ops.lean ====
section
/-!
SUPPORT. For each shared operation, what it can do, said once. Proofs cite these instead of unfolding the operation.
-/
namespace Sys2Proof.Machine

/-! ### The sink -/

theorem drain_of_not_pending (n : Nat) (s : State) (h : ∀ r, s.wait ≠ .rpt r) : drain n s = s := by
  cases n with
  | zero => rfl
  | succ n =>
    unfold drain
    split
    · rename_i r hr
      exact absurd hr (h r)
    all_goals rfl

theorem drain_of_stalled (n : Nat) (s : State) (h : s.sinkReady = false) : drain n s = s := by
  cases n with
  | zero => rfl
  | succ n =>
    unfold drain
    split <;> simp [h]

theorem drain_pending (n : Nat) (s : State) (r : Record) (hr : s.wait = .rpt r) (h : s.sinkReady = true) :
    drain (n + 1) s = drain n (takeRecord r s) := by
  conv => lhs; unfold drain
  simp [hr, h]

/-- With nothing pending, `settle` does nothing. -/
theorem settle_of_not_pending (s : State) (h : ∀ r, s.wait ≠ .rpt r) : settle s = s := drain_of_not_pending _ s h

/-- With a sink that does not take, `settle` does nothing. -/
theorem settle_of_stalled (s : State) (h : s.sinkReady = false) : settle s = s := drain_of_stalled _ s h

/-- A terminal record is taken by a ready sink, and the engine is idle, its registers unspecified. -/
theorem settle_terminal (s : State) (r : Record) (hr : s.wait = .rpt r) (h : s.sinkReady = true)
    (ht : r.terminal = true) : settle s = finish (logRecord r s) := by
  have hf : afterRecord r (logRecord r s) = finish (logRecord r s) := by cases r <;> first | rfl | cases ht
  unfold settle
  rw [drain_pending 5 s r hr h, takeRecord, hf, drain_of_not_pending _ _ (by simp)]

/-- What the engine does to its registers when an operation ends is not seen outside them. -/
theorem finish_withoutRegisters (s : State) : (finish s).withoutRegisters = State.withoutRegisters { s with wait := .idle } := rfl

/-- A terminal record taken, seen from outside the registers. -/
theorem settle_terminal_withoutRegisters (s : State) (r : Record) (hr : s.wait = .rpt r) (h : s.sinkReady = true)
    (ht : r.terminal = true) :
    (settle s).withoutRegisters = State.withoutRegisters { s with wait := .idle, trace := s.trace ++ [.record r] } := by
  rw [settle_terminal s r hr h ht]
  rfl

/-- What follows a terminal record is the idle engine (R261). -/
theorem afterRecord_terminal (r : Record) (s : State) (h : r.terminal = true) : afterRecord r s = finish s := by
  cases r <;> first | rfl | cases h

/-! ### Acceptance and delivery -/

/-- An idle engine accepts a packet: latched, begun, settled. -/
theorem accept_idle (p : Packet) (begin : State → State) (s : State) (h : s.wait = .idle) :
    accept p begin s = settle (begin (latch p s)) := by
  unfold accept
  rw [h]

/-- A busy engine holds a packet. -/
theorem accept_busy (p : Packet) (begin : State → State) (s : State) (h : s.wait ≠ .idle) :
    accept p begin s = hold p s := by
  unfold accept
  split
  · rename_i hw
    exact absurd hw h
  all_goals rfl

/-- A descriptor word for the outstanding request is received by the walk or the enumeration in progress. -/
theorem deliver_awaited (level : Level) (raw : Word) (d : Descriptor) (s : State) (q : MemReq) (h : s.wait = .mem q)
    (hl : currentLevel s = level) :
    deliver level raw d s = settle (if isEnumeration s.op then enumReceive raw d s else walkReceive raw d s) := by
  unfold deliver
  rw [h]
  simp [hl]

/-- A descriptor word no request waits for is discarded. -/
theorem deliver_unawaited (level : Level) (raw : Word) (d : Descriptor) (s : State) (h : ∀ q, s.wait ≠ .mem q) :
    deliver level raw d s = s := by
  unfold deliver
  split
  · rename_i q hq
    exact absurd hq (h q)
  all_goals rfl

/-- The row a word decodes to hands the engine the decode of the word at its level (R150, R94). -/
theorem exec_decodeRow (level : Level) (raw : Word) (s : State) :
    exec (decodeRow level raw) s = .next (deliver level raw (decodeDescriptor raw level) s) := by
  have hw : ∀ b : Bool, raw.getLsbD 1 = b → execDescTableL0 raw s = .next (deliver .l0 raw (.table (tableOrPageAddress raw) (permOf raw) (!b)) s) := by
    intro b hb; rw [← hb]; rfl
  generalize h0 : raw.getLsbD 0 = b0
  generalize h1 : raw.getLsbD 1 = b1
  cases b0 <;> cases b1 <;> cases level <;>
    simp only [decodeRow, decodeDescriptor, validBit, kindOf, l0TypeWarn, typeBit, h0, h1, exec, hw _ h1,
      ↓reduceIte, Bool.false_eq_true] <;> rfl

/-- Every instruction answers a next state: no meaning faults and none refuses. -/
theorem exec_answers_next (i : Instr) (s : State) : ∃ t, exec i s = .next t := by
  cases i <;> exact ⟨_, rfl⟩

/-! ### The enumeration's loop head -/

/-- No index left: the table closes. -/
theorem enumVisit_exhausted (s : State) (h : 512 ≤ (topFrame s).index) : enumVisit s = closeTable s := by
  unfold enumVisit
  exact if_pos h

/-- The cap reached with an index left: the table closes, truncated. -/
theorem enumVisit_capped (s : State) (h : (topFrame s).index < 512)
    (hc : capReached s.filt s.cap.toNat (topFrame s).emitted = true) :
    enumVisit s = closeTable (setTopFrame { topFrame s with truncated := true } s) := by
  unfold enumVisit
  rw [if_neg (by simp only [Config.entries]; omega), if_pos hc]

/-- Otherwise the next entry is read. -/
theorem enumVisit_reads (s : State) (h : (topFrame s).index < 512)
    (hc : capReached s.filt s.cap.toNat (topFrame s).emitted = false) :
    enumVisit s = requestMem (entryAddress (topFrame s).base (topIndex s)) s := by
  unfold enumVisit
  rw [if_neg (by simp only [Config.entries]; omega), if_neg (by simp [hc])]

/-! ### Events only grow, and the outside is left alone -/

/-- What the engine's own operations keep: the outside world, the CMD channel and the inputs as they were, and the events so far a
prefix of the events now. -/
def Extends (s t : State) : Prop :=
  t.mem = s.mem ∧ t.regs = s.regs ∧ t.readerLive = s.readerLive ∧ t.sinkReady = s.sinkReady ∧ t.inputs = s.inputs ∧
    t.cmd = s.cmd ∧ s.txn ≤ t.txn ∧ ∃ events, t.trace = s.trace ++ events

theorem Extends.refl (s : State) : Extends s s := ⟨rfl, rfl, rfl, rfl, rfl, rfl, le_refl _, [], by simp⟩

theorem Extends.trans {s t u : State} (h : Extends s t) (k : Extends t u) : Extends s u := by
  obtain ⟨h1, h2, h3, h4, h5, h6, h7, e, h8⟩ := h
  obtain ⟨k1, k2, k3, k4, k5, k6, k7, f, k8⟩ := k
  exact ⟨k1.trans h1, k2.trans h2, k3.trans h3, k4.trans h4, k5.trans h5, k6.trans h6, h7.trans k7, e ++ f, by
    rw [k8, h8, List.append_assoc]⟩

theorem offer_extends (r : Record) (s : State) : Extends s (offer r s) := ⟨rfl, rfl, rfl, rfl, rfl, rfl, le_refl _, [], by simp⟩

theorem logRecord_extends (r : Record) (s : State) : Extends s (logRecord r s) :=
  ⟨rfl, rfl, rfl, rfl, rfl, rfl, le_refl _, [.record r], rfl⟩

theorem requestMem_extends (ea : PA) (s : State) : Extends s (requestMem ea s) :=
  ⟨rfl, rfl, rfl, rfl, rfl, rfl, Nat.le_succ _, _, rfl⟩

theorem requestReg_extends (sel : RegSel) (s : State) : Extends s (requestReg sel s) :=
  ⟨rfl, rfl, rfl, rfl, rfl, rfl, Nat.le_succ _, _, rfl⟩

theorem closeTable_extends (s : State) : Extends s (closeTable s) := offer_extends _ _

theorem enumVisit_extends (s : State) : Extends s (enumVisit s) := by
  unfold enumVisit
  split
  · exact closeTable_extends s
  · split
    · exact closeTable_extends (setTopFrame _ s)
    · exact requestMem_extends _ s

theorem openTable_extends (base : PA) (vprefix : Word) (level : Level) (s : State) :
    Extends s (openTable base vprefix level s) := enumVisit_extends { s with frames := _, top := level }

theorem enumAdvance_extends (s : State) : Extends s (enumAdvance s) := enumVisit_extends (setTopFrame _ s)

theorem walkFetch_extends (s : State) : Extends s (walkFetch s) := requestMem_extends _ s

theorem afterWEntry_extends (s : State) : Extends s (afterWEntry s) := by
  unfold afterWEntry
  split
  · exact offer_extends _ { s with pathLen := s.pathLen + 1 }
  · exact walkFetch_extends { s with pathLen := s.pathLen + 1, base := _, level := s.level.succ }
  · exact offer_extends _ { s with pathLen := s.pathLen + 1 }
  · exact offer_extends _ { s with pathLen := s.pathLen + 1 }

theorem afterEEntry_extends (s : State) : Extends s (afterEEntry s) := by
  unfold afterEEntry
  simp only
  split
  · exact openTable_extends _ _ _ (setTopFrame _ s)
  · exact enumAdvance_extends (setTopFrame _ s)
  · exact enumAdvance_extends (setTopFrame _ s)
  · exact enumAdvance_extends (setTopFrame _ s)

theorem afterTableEnd_extends (s : State) : Extends s (afterTableEnd s) := by
  unfold afterTableEnd
  split
  · exact offer_extends _ s
  · exact enumAdvance_extends { s with top := s.top.pred }

theorem afterRecord_extends (r : Record) (s : State) : Extends s (afterRecord r s) := by
  have fin : Extends s (finish s) := ⟨rfl, rfl, rfl, rfl, rfl, rfl, le_refl _, [], by simp⟩
  cases r
  case wEntry => exact afterWEntry_extends s
  case eEntry => exact afterEEntry_extends s
  case eUnread => exact enumAdvance_extends s
  case eTableEnd => exact afterTableEnd_extends s
  all_goals exact fin

theorem takeRecord_extends (r : Record) (s : State) : Extends s (takeRecord r s) :=
  (logRecord_extends r s).trans (afterRecord_extends r _)

theorem drain_extends : ∀ (n : Nat) (s : State), Extends s (drain n s)
  | 0, s => Extends.refl s
  | n + 1, s => by
    unfold drain
    split
    · split
      · exact (takeRecord_extends _ s).trans (drain_extends n _)
      · exact Extends.refl s
    all_goals exact Extends.refl s

/-- Taking records leaves the outside alone and only adds events. -/
theorem settle_extends (s : State) : Extends s (settle s) := drain_extends 6 s

/-! ### Reset and the step -/

/-- Reset leaves an idle engine, the inspected system, the inputs to come and the request count, and its events only grow. -/
theorem engineReset_extends (s : State) : Extends s (engineReset s) := ⟨rfl, rfl, rfl, rfl, rfl, rfl, le_refl _, [], by simp⟩

/-- Reset inside a move, by what the engine waits for. -/
theorem resetMidway_idle (s : State) (h : s.wait = .idle) : resetMidway s = engineReset { s with cmd := s.cmd.tail } := by
  unfold resetMidway
  rw [h]

theorem resetMidway_pending (s : State) (r : Record) (h : s.wait = .rpt r) : resetMidway s = engineReset (logRecord r s) := by
  unfold resetMidway
  rw [h]

theorem resetMidway_waiting (s : State) (hi : s.wait ≠ .idle) (hr : ∀ r, s.wait ≠ .rpt r) : resetMidway s = engineReset s := by
  unfold resetMidway
  split
  · rename_i h
    exact absurd h hi
  · rfl
  · rfl
  · rename_i r h
    exact absurd h (hr r)

/-- After a reset inside a move the engine is idle, and the outside but the CMD port is as it was. -/
theorem resetMidway_outside (s : State) :
    (resetMidway s).wait = .idle ∧ (resetMidway s).mem = s.mem ∧ (resetMidway s).regs = s.regs ∧
      (resetMidway s).readerLive = s.readerLive ∧ (resetMidway s).sinkReady = s.sinkReady ∧
      (resetMidway s).inputs = s.inputs ∧ (resetMidway s).txn = s.txn := by
  unfold resetMidway
  split <;> exact ⟨rfl, rfl, rfl, rfl, rfl, rfl, rfl⟩

theorem step_no_input (s : State) (h : s.inputs = []) : step s = advance s := by
  unfold step
  rw [h]

theorem step_input (s : State) (i : Input) (rest : List Input) (h : s.inputs = i :: rest) :
    step s = absorb i { s with inputs := rest } := by
  unfold step
  rw [h]

/-- A turn of the engine is its own next move when it has one. -/
theorem takeTurn_next (s t : State) (h : advance s = .next t) : takeTurn s = .next t := by
  unfold takeTurn
  rw [h]

/-- A turn passes when the engine has no move of its own. -/
theorem takeTurn_fault (s : State) (f : Fault) (h : advance s = .fault f) : takeTurn s = .next s := by
  unfold takeTurn
  rw [h]

end Sys2Proof.Machine
end

