-- ==== Sys2Proof/Laws/PerInstr.lean ====
section
/-!
SUPPORT. Per-instruction statements over the syntax: every well-formed instruction's encoding lies in its row of the opcode table
(R94, R112).
-/
namespace Sys2Proof.Laws

/-- The mask and match of an instruction's row of the opcode table, zero-extended to 64 bits, and whether the row admits the
instruction's level. -/
def RowMatch.row : Instr → Word × Word × Bool
  | .decompose _ => (0xFFFFFFFF#64, 0x1#64, true)
  | .selroot _ => (0xFFFFFFFF#64, 0x2#64, true)
  | .decode _ _ => (0xFFFFFFCF#64, 0x3#64, true)
  | .walk _ => (0xFFFFFFFF#64, 0x4#64, true)
  | .walkr _ => (0xFFFFFFFF#64, 0x5#64, true)
  | .walkpc _ => (0xFFFFFFFF#64, 0x6#64, true)
  | .enum _ _ _ => (0xFFFC00CF#64, 0x7#64, true)
  | .enumt _ _ _ => (0xFFFC00CF#64, 0x8#64, true)
  | .describe _ => (0xFFFFFFFF#64, 0x9#64, true)
  | .descInvalid _ _ => (0x1#64, 0x0#64, true)
  | .descTableL0 _ => (0x1#64, 0x1#64, true)
  | .descTableL1L2 level _ => (0x3#64, 0x3#64, level == .l1 || level == .l2)
  | .descBlockL1 _ => (0x3#64, 0x1#64, true)
  | .descBlockL2 _ => (0x3#64, 0x1#64, true)
  | .descPageL3 _ => (0x1#64, 0x1#64, true)

/-- The word an instruction is known by: its command word, or the descriptor word. -/
def RowMatch.word : Instr → Word := fun i =>
  match encode i with
  | .command p => p.cmdw.setWidth 64
  | .descriptor _ raw => raw

/-- A well-formed instruction's word lies in its row. -/
def RowMatch.Statement (i : Instr) : Prop :=
  i.wf = true →
    RowMatch.word i &&& (RowMatch.row i).1 = (RowMatch.row i).2.1 ∧ (RowMatch.row i).2.2 = true

/-- Bit 0 of a word, as a mask. -/
theorem and_one_eq (w : Word) : w &&& 0x1#64 = if w.getLsbD 0 then 0x1#64 else 0x0#64 := by
  ext i hi
  rcases Nat.eq_zero_or_pos i with rfl | h
  · cases h0 : w.getLsbD 0 <;> simp_all [BitVec.getLsbD_eq_getElem]
  · have : (1#64)[i] = false := by simp [BitVec.getElem_one]; omega
    split <;> simp [this]

/-- Bits 0 and 1 of a word, as a mask. -/
theorem and_three_eq (w : Word) :
    w &&& 0x3#64 = (if w.getLsbD 0 then 0x1#64 else 0x0#64) ||| (if w.getLsbD 1 then 0x2#64 else 0x0#64) := by
  have h3 : (0x3#64 : Word) = 0x1#64 ||| 0x2#64 := by decide
  have h2 : w &&& 0x2#64 = if w.getLsbD 1 then 0x2#64 else 0x0#64 := by
    ext i hi
    by_cases h : i = 1
    · subst h
      cases h1 : w.getLsbD 1 <;> simp_all [BitVec.getLsbD_eq_getElem]
    · have : (2#64 : Word)[i] = false := by
        rw [← BitVec.getLsbD_eq_getElem]
        revert i; decide
      split <;> simp [this]
  rw [h3, BitVec.and_or_distrib_left, and_one_eq, h2]

/-- A command word under the mask of ENUM and ENUMT is its `OP`, whatever `LVL` and `CAP` hold (R111, R112). -/
theorem commandWord_and_enumMask (op : BitVec 4) (lvl : BitVec 2) (cap : BitVec 10) (x : Operands) :
    (commandPacket op lvl cap x).cmdw.setWidth 64 &&& 0xFFFC00CF#64 = op.setWidth 64 := by
  ext i hi
  simp only [commandPacket]
  interval_cases i <;> simp [BitVec.getElem_setWidth]

theorem RowMatch.decompose (x : Operands) : RowMatch.Statement (.decompose x) := fun _ =>
  ⟨show (commandPacket 1#4 0#2 0#10 ⟨0, 0, 0⟩).cmdw.setWidth 64 &&& 0xFFFFFFFF#64 = 0x1#64 by decide, rfl⟩

theorem RowMatch.selroot (x : Operands) : RowMatch.Statement (.selroot x) := fun _ =>
  ⟨show (commandPacket 2#4 0#2 0#10 ⟨0, 0, 0⟩).cmdw.setWidth 64 &&& 0xFFFFFFFF#64 = 0x2#64 by decide, rfl⟩

theorem RowMatch.decode (level : Level) (x : Operands) : RowMatch.Statement (.decode level x) := fun _ =>
  ⟨show (commandPacket 3#4 level.bits 0#10 ⟨0, 0, 0⟩).cmdw.setWidth 64 &&& 0xFFFFFFCF#64 = 0x3#64 by
    cases level <;> decide, rfl⟩

theorem RowMatch.walk (x : Operands) : RowMatch.Statement (.walk x) := fun _ =>
  ⟨show (commandPacket 4#4 0#2 0#10 ⟨0, 0, 0⟩).cmdw.setWidth 64 &&& 0xFFFFFFFF#64 = 0x4#64 by decide, rfl⟩

theorem RowMatch.walkr (x : Operands) : RowMatch.Statement (.walkr x) := fun _ =>
  ⟨show (commandPacket 5#4 0#2 0#10 ⟨0, 0, 0⟩).cmdw.setWidth 64 &&& 0xFFFFFFFF#64 = 0x5#64 by decide, rfl⟩

theorem RowMatch.walkpc (x : Operands) : RowMatch.Statement (.walkpc x) := fun _ =>
  ⟨show (commandPacket 6#4 0#2 0#10 ⟨0, 0, 0⟩).cmdw.setWidth 64 &&& 0xFFFFFFFF#64 = 0x6#64 by decide, rfl⟩

theorem RowMatch.enum (level : Level) (cap : BitVec 10) (x : Operands) : RowMatch.Statement (.enum level cap x) :=
  fun _ => ⟨commandWord_and_enumMask 7#4 level.bits cap x, rfl⟩

theorem RowMatch.enumt (level : Level) (cap : BitVec 10) (x : Operands) : RowMatch.Statement (.enumt level cap x) :=
  fun _ => ⟨commandWord_and_enumMask 8#4 level.bits cap x, rfl⟩

theorem RowMatch.describe (x : Operands) : RowMatch.Statement (.describe x) := fun _ =>
  ⟨show (commandPacket 9#4 0#2 0#10 ⟨0, 0, 0⟩).cmdw.setWidth 64 &&& 0xFFFFFFFF#64 = 0x9#64 by decide, rfl⟩

theorem RowMatch.descInvalid (level : Level) (raw : Word) : RowMatch.Statement (.descInvalid level raw) := fun h => by
  have h0 : raw.getLsbD 0 = false := by simpa [Instr.wf] using h
  exact ⟨show raw &&& 0x1#64 = 0x0#64 by rw [and_one_eq, h0]; rfl, rfl⟩

theorem RowMatch.descTableL0 (raw : Word) : RowMatch.Statement (.descTableL0 raw) := fun h =>
  ⟨show raw &&& 0x1#64 = 0x1#64 by rw [and_one_eq]; exact if_pos h, rfl⟩

theorem RowMatch.descTableL1L2 (level : Level) (raw : Word) : RowMatch.Statement (.descTableL1L2 level raw) := fun h => by
  simp only [Instr.wf, Bool.and_eq_true] at h
  exact ⟨show raw &&& 0x3#64 = 0x3#64 by rw [and_three_eq, if_pos h.1.2, if_pos h.2]; rfl, h.1.1⟩

/-- A word with bit 0 set and bit 1 clear, under the mask of the two Block rows. -/
theorem and_three_of_block (raw : Word) (h : (raw.getLsbD 0 && !raw.getLsbD 1) = true) : raw &&& 0x3#64 = 0x1#64 := by
  simp only [Bool.and_eq_true, Bool.not_eq_true'] at h
  rw [and_three_eq, if_pos h.1, h.2]
  rfl

theorem RowMatch.descBlockL1 (raw : Word) : RowMatch.Statement (.descBlockL1 raw) := fun h =>
  ⟨and_three_of_block raw h, rfl⟩

theorem RowMatch.descBlockL2 (raw : Word) : RowMatch.Statement (.descBlockL2 raw) := fun h =>
  ⟨and_three_of_block raw h, rfl⟩

theorem RowMatch.descPageL3 (raw : Word) : RowMatch.Statement (.descPageL3 raw) := fun h =>
  ⟨show raw &&& 0x1#64 = 0x1#64 by rw [and_one_eq]; exact if_pos h, rfl⟩

end Sys2Proof.Laws
end

