-- ==== Sys2Proof/Tests/Slice0.lean ====
section
/-!
SUPPORT. Tests of the model's own: what WellFormed refuses, words written out from R94 and R112, one step of each instruction on
the spec's vectors (V and P numbers are those of spec/95_test_vectors.md), and a witness for the hypotheses of each statement.
-/
namespace Sys2Proof.Tests
open Sys2Proof.Machine

/-! ### Helpers -/

/-- Operand words. -/
def ops (a0 a1 a2 : Word) : Operands := ⟨a0, a1, a2⟩

/-- The events after an outcome. -/
def eventsOf : Host.Outcome State Fault Refusal → List Event
  | .next s => s.trace
  | .fault _ => []
  | .refused _ => []

/-- Whether the engine is idle after an outcome. -/
def idleAfter : Host.Outcome State Fault Refusal → Bool
  | .next s => s.status == .idle
  | .fault _ => false
  | .refused _ => false

/-- The fault of an outcome. -/
def faultOf : Host.Outcome State Fault Refusal → Option Fault
  | .next _ => none
  | .fault f => some f
  | .refused _ => none

/-- A request record of 8 bytes. -/
def mem8 (a : Word) : Event := .mem a 8#8

/-- An engine in a walk of `va` that waits for the descriptor of a level, in a table. -/
def walkingAt (va : Word) (level : Level) (base : PA) : State :=
  { State.reset with
    op := 4#4
    va := va
    idx := (decompose va).idx
    off := (decompose va).off
    base := base
    level := level
    pathLen := level.toNat
    ea := entryAddress base ((decompose va).idx.get level)
    wait := .mem ⟨(entryAddress base ((decompose va).idx.get level)).setWidth 64, 8#8, 0⟩
    txn := 1 }

/-- An engine in an ENUM that waits for an entry of its root table, with so many emitted. -/
def listingAt (level : Level) (base : PA) (index emitted : Nat) (cap : BitVec 10) : State :=
  { State.reset with
    op := 7#4
    cap := cap
    start := level
    top := level
    frames := State.reset.frames.set level ⟨base, 0#64, index, emitted, false⟩
    ea := entryAddress base (BitVec.ofNat 9 index)
    wait := .mem ⟨(entryAddress base (BitVec.ofNat 9 index)).setWidth 64, 8#8, 0⟩
    txn := 1 }

/-- An engine in an ENUMT that waits for the target's entry of its root table. -/
def targetingAt (level : Level) (base : PA) (target : Word) : State :=
  { listingAt level base (indexAt target level).toNat 0 0#10 with op := 8#4, filt := true, target := target }

/-- An engine in a WALKPC that waits for a register. -/
def readingRegister (sel : RegSel) : State := { State.reset with op := 6#4, wait := .reg ⟨sel, 0⟩, txn := 1 }

/-- A state with one record pending. -/
def pendingWith (r : Record) : State := { State.reset with wait := .rpt r }

/-! ### WellFormed refuses what is no word of its row -/

theorem test_wf_invalid_needs_bit0_clear : (Instr.descInvalid .l0 1#64).wf = false := by decide

theorem test_wf_table_l0_needs_bit0 : (Instr.descTableL0 2#64).wf = false := by decide

theorem test_wf_table_l1l2_refuses_level_0 : (Instr.descTableL1L2 .l0 3#64).wf = false := by decide

theorem test_wf_table_l1l2_refuses_level_3 : (Instr.descTableL1L2 .l3 3#64).wf = false := by decide

theorem test_wf_table_l1l2_needs_bit0 : (Instr.descTableL1L2 .l1 2#64).wf = false := by decide

theorem test_wf_table_l1l2_needs_bit1 : (Instr.descTableL1L2 .l2 1#64).wf = false := by decide

theorem test_wf_block_l1_needs_bit0 : (Instr.descBlockL1 0#64).wf = false := by decide

theorem test_wf_block_l1_needs_bit1_clear : (Instr.descBlockL1 3#64).wf = false := by decide

theorem test_wf_block_l2_needs_bit0 : (Instr.descBlockL2 0#64).wf = false := by decide

theorem test_wf_block_l2_needs_bit1_clear : (Instr.descBlockL2 3#64).wf = false := by decide

theorem test_wf_page_needs_bit0 : (Instr.descPageL3 2#64).wf = false := by decide

/-! ### Words written out from R112 and R94 -/

theorem test_decode_decompose :
    decodePacket ⟨0b00000000000000000000000000000001#32, 5#64, 0#64, 0#64⟩ = some (.decompose (ops 5 0 0)) := by decide

theorem test_decode_selroot :
    decodePacket ⟨0b00000000000000000000000000000010#32, 5#64, 6#64, 7#64⟩ = some (.selroot (ops 5 6 7)) := by decide

/-- V111. -/
theorem test_decode_decode :
    decodePacket ⟨0b00000000000000000000000000010011#32, 5#64, 0#64, 0#64⟩ = some (.decode .l1 (ops 5 0 0)) := by decide

theorem test_decode_walk :
    decodePacket ⟨0b00000000000000000000000000000100#32, 5#64, 6#64, 7#64⟩ = some (.walk (ops 5 6 7)) := by decide

theorem test_decode_walkr :
    decodePacket ⟨0b00000000000000000000000000000101#32, 5#64, 0#64, 0#64⟩ = some (.walkr (ops 5 0 0)) := by decide

theorem test_decode_walkpc :
    decodePacket ⟨0b00000000000000000000000000000110#32, 0#64, 0#64, 0#64⟩ = some (.walkpc (ops 0 0 0)) := by decide

/-- V113. -/
theorem test_decode_enum :
    decodePacket ⟨0b00000000000000111111111100110111#32, 5#64, 6#64, 0#64⟩ = some (.enum .l3 1023#10 (ops 5 6 0)) := by
  decide

/-- V115. -/
theorem test_decode_enumt :
    decodePacket ⟨0b00000000000000000000101000111000#32, 5#64, 6#64, 7#64⟩ = some (.enumt .l3 10#10 (ops 5 6 7)) := by
  decide

theorem test_decode_describe :
    decodePacket ⟨0b00000000000000000000000000001001#32, 5#64, 0#64, 0#64⟩ = some (.describe (ops 5 0 0)) := by decide

/-- V22. -/
theorem test_decode_desc_invalid :
    decode (.descriptor .l0 0x0000000040001002#64) = some (.descInvalid .l0 0x0000000040001002#64) := by decide

/-- V23: type bit 0 at level 0. -/
theorem test_decode_desc_table_l0 :
    decode (.descriptor .l0 0x0000000040000601#64) = some (.descTableL0 0x0000000040000601#64) := by decide

/-- V29. -/
theorem test_decode_desc_table_l1l2 :
    decode (.descriptor .l2 0x0000000040001003#64) = some (.descTableL1L2 .l2 0x0000000040001003#64) := by decide

/-- V24. -/
theorem test_decode_desc_block_l1 :
    decode (.descriptor .l1 0x0000000040000601#64) = some (.descBlockL1 0x0000000040000601#64) := by decide

/-- V25. -/
theorem test_decode_desc_block_l2 :
    decode (.descriptor .l2 0x0000000040000601#64) = some (.descBlockL2 0x0000000040000601#64) := by decide

/-- V26: type bit 0 at level 3. -/
theorem test_decode_desc_page_l3 :
    decode (.descriptor .l3 0x0000000040000601#64) = some (.descPageL3 0x0000000040000601#64) := by decide

/-- V116 to V123. -/
theorem test_illegal_command_words :
    [0x00000000#32, 0x0000000A#32, 0x0000000F#32, 0x00000011#32, 0x00000104#32, 0x00000103#32, 0x00000043#32, 0x00040007#32,
      0x80000009#32].all (fun c => (decodePacket ⟨c, 0#64, 0#64, 0#64⟩).isNone) = true := by
  decide

/-- The words of the opcode table as the host numbers them. -/
theorem test_table_words :
    decodeTableWord 32 0x00000001 = some (.decompose (ops 0 0 0)) ∧
      decodeTableWord 32 0x00000A37 = some (.enum .l3 10#10 (ops 0 0 0)) ∧
      decodeTableWord 64 0x0000000040001003 = some (.descTableL1L2 .l1 0x0000000040001003#64) ∧
      decodeTableWord 32 0x00000043 = none := by
  decide

/-! ### One step of each command -/

/-- V3. -/
theorem test_decompose_user_address :
    eventsOf (exec (.decompose (ops 0x0000000123456789#64 0 0)) State.reset) =
      [.record (.rDecomp ⟨⟨0x000#9, 0x004#9, 0x11A#9, 0x056#9⟩, 0x789#12, false⟩)] := by
  decide

/-- V6: only bit 55 makes an address a kernel address. -/
theorem test_decompose_bit_55 :
    eventsOf (exec (.decompose (ops 0x0080000000000000#64 0 0)) State.reset) =
      [.record (.rDecomp ⟨⟨0#9, 0#9, 0#9, 0#9⟩, 0#12, true⟩)] := by
  decide

/-- V11. -/
theorem test_selroot_user :
    eventsOf (exec (.selroot (ops 0x0000000123456789#64 0x0001000040000001#64 0x0002000080000FFF#64)) State.reset) =
      [.record (.rRoot 0x000040000000#48)] := by
  decide

/-- V13. -/
theorem test_selroot_kernel :
    eventsOf (exec (.selroot (ops 0x0080000000000000#64 0x0000000000001111#64 0xABCD00004567F123#64)) State.reset) =
      [.record (.rRoot 0x00004567F000#48)] := by
  decide

/-- V40. -/
theorem test_decode_block_level_2 :
    eventsOf (exec (.decode .l2 (ops 0x00000000403FF701#64 0 0)) State.reset) =
      [.record (.rDesc 0x0100000040200701#64)] := by
  decide

/-- V35: the level-0 warning. -/
theorem test_decode_level_0_warning :
    eventsOf (exec (.decode .l0 (ops 0xFFFFFFFFFFFFFFFD#64 0 0)) State.reset) =
      [.record (.rDesc 0x02E0FFFFFFFFF7DD#64)] := by
  decide

/-- V98. -/
theorem test_describe_page :
    eventsOf (exec (.describe (ops 0x01C0000041000745#64 0 0)) State.reset) =
      [.record (.rPerm ⟨.rwAll, .notExecutable, .executable, true, .innerShareable, 1#3⟩)] := by
  decide

/-- V96. -/
theorem test_describe_reserved_shareability :
    eventsOf (exec (.describe (ops 0x0000000000000100#64 0 0)) State.reset) =
      [.record (.rPerm ⟨.rwPrivOnly, .executable, .executable, false, .reserved, 0#3⟩)] := by
  decide

/-- P1, first event. -/
theorem test_walk_first_read :
    eventsOf (exec (.walk (ops 0x000000808060495C#64 0x0001000040000001#64 0x0002000080000FFF#64)) State.reset) =
      [mem8 0x40000008#64] := by
  decide

/-- V59, first event. -/
theorem test_walkr_reads_ttbr0_first :
    eventsOf (exec (.walkr (ops 0x0000000123456789#64 0 0)) State.reset) = [.reg .ttbr0El1] := by
  decide

/-- V60, first event. -/
theorem test_walkpc_reads_pc_first : eventsOf (exec (.walkpc (ops 0 0 0)) State.reset) = [.reg .pc] := by decide

/-- V79, first event: the base is masked. -/
theorem test_enum_first_read :
    eventsOf (exec (.enum .l2 1#10 (ops 0x0BAD000050005FFF#64 0x00000000C0000000#64 0)) State.reset) =
      [mem8 0x50005000#64] := by
  decide

/-- V74, `CAP = 0`. -/
theorem test_enum_cap_zero :
    eventsOf (exec (.enum .l3 0#10 (ops 0x60000000#64 0 0)) State.reset) =
      [.record (.eTableEnd .l3 0x60000000#48 0#10 true), .record .rEnumDone] := by
  decide

/-- V71, first event. -/
theorem test_enumt_reads_the_target :
    eventsOf (exec (.enumt .l3 10#10 (ops 0x60000000#64 0 0x5000#64)) State.reset) = [mem8 0x60000028#64] := by
  decide

/-! ### One step of each descriptor row -/

/-- V52. -/
theorem test_invalid_ends_walk :
    eventsOf (exec (.descInvalid .l0 0x0000000040001002#64) (walkingAt 0x0000000123456789#64 .l0 0x40000000#48)) =
      [.record (.wEntry .l0 0#9 0x40000000#48 0x40000000#48 0x0000000040001002#64 0#64),
        .record (.rFault .l0 .invalidEntry 0x000040000000#48)] := by
  decide

/-- R202: an invalid entry of an enumeration produces nothing. -/
theorem test_invalid_skipped_in_enumeration :
    eventsOf (exec (.descInvalid .l2 0#64) (listingAt .l2 0x50005000#48 0 0 1#10)) = [mem8 0x50005008#64] := by
  decide

/-- V56. -/
theorem test_table_l0_warns_and_descends :
    eventsOf (exec (.descTableL0 0x0000000040001001#64) (walkingAt 0x0000000123456789#64 .l0 0x40000000#48)) =
      [.record (.wEntry .l0 0#9 0x40000000#48 0x40000000#48 0x0000000040001001#64 0x0280000040001001#64),
        mem8 0x40001020#64] := by
  decide

/-- V73, the entry of index 256 and the opening of its table. -/
theorem test_table_l0_opens_in_enumeration :
    eventsOf (exec (.descTableL0 0x0000000050003003#64) (listingAt .l0 0x50000000#48 256 2 512#10)) =
      [.record (.eEntry .l0 256#9 0x50000000#48 0x50000800#48 0x0000000050003003#64 0xFFFF800000000000#64
          0x0080000050003001#64),
        mem8 0x50003000#64] := by
  decide

/-- V51, level 1. -/
theorem test_table_l1_descends :
    eventsOf (exec (.descTableL1L2 .l1 0x40002003#64) (walkingAt 0x00000080806ABCDE#64 .l1 0x40001000#48)) =
      [.record (.wEntry .l1 2#9 0x40001000#48 0x40001010#48 0x40002003#64 0x0080000040002001#64), mem8 0x40002018#64] := by
  decide

/-- V75, level 2: the target's index of the child is read. -/
theorem test_table_l2_opens_at_target :
    eventsOf (exec (.descTableL1L2 .l2 0x50006003#64) (targetingAt .l2 0x50005000#48 0xC0C08123#64)) =
      [.record (.eEntry .l2 6#9 0x50005000#48 0x50005030#48 0x50006003#64 0x0000000000C00000#64 0x0080000050006001#64),
        mem8 0x50006040#64] := by
  decide

/-- V50, level 1. -/
theorem test_block_l1_maps :
    eventsOf (exec (.descBlockL1 0x40000601#64) (walkingAt 0x0000000123456789#64 .l1 0x40001000#48)) =
      [.record (.wEntry .l1 4#9 0x40001000#48 0x40001020#48 0x40000601#64 0x0100000040000601#64),
        .record (.rMapped 0x000063456789#48 .l1 .block)] := by
  decide

/-- V51, level 2. -/
theorem test_block_l2_maps :
    eventsOf (exec (.descBlockL2 0x00000000403FF701#64) (walkingAt 0x00000080806ABCDE#64 .l2 0x40002000#48)) =
      [.record (.wEntry .l2 3#9 0x40002000#48 0x40002018#48 0x00000000403FF701#64 0x0100000040200701#64),
        .record (.rMapped 0x0000402ABCDE#48 .l2 .block)] := by
  decide

/-- V79, index 5: the cap is reached and the root table closes, truncated. -/
theorem test_block_l2_reaches_cap :
    eventsOf (exec (.descBlockL2 0x00400000C0A00F4D#64) (listingAt .l2 0x50005000#48 5 0 1#10)) =
      [.record (.eEntry .l2 5#9 0x50005000#48 0x50005028#48 0x00400000C0A00F4D#64 0x0000000000A00000#64
          0x01400000C0A0074D#64),
        .record (.eTableEnd .l2 0x50005000#48 1#10 true), .record .rEnumDone] := by
  decide

/-- P1, level 3. -/
theorem test_page_maps :
    eventsOf (exec (.descPageL3 0x0040000041000F47#64) (walkingAt 0x000000808060495C#64 .l3 0x40003000#48)) =
      [.record (.wEntry .l3 4#9 0x40003000#48 0x40003020#48 0x0040000041000F47#64 0x01C0000041000745#64),
        .record (.rMapped 0x00004100095C#48 .l3 .page)] := by
  decide

/-- V74: the 512th entry at index 511 ends the table by exhaustion. -/
theorem test_page_at_last_index_is_not_truncated :
    eventsOf (exec (.descPageL3 0x701FF003#64) (listingAt .l3 0x60000000#48 511 511 512#10)) =
      [.record (.eEntry .l3 511#9 0x60000000#48 0x60000FF8#48 0x701FF003#64 0x1FF000#64 0x01800000701FF001#64),
        .record (.eTableEnd .l3 0x60000000#48 512#10 false), .record .rEnumDone] := by
  decide

/-! ### The step -/

/-- A table word placed where the next step fetches it runs as the first instruction after reset. -/
theorem test_placed_packet_runs :
    eventsOf (step (State.reset.withFetchWord 32 0x00000001)) =
      [.record (.rDecomp ⟨⟨0#9, 0#9, 0#9, 0#9⟩, 0#12, false⟩)] := by
  decide

/-- A descriptor word placed likewise is read by the walk that waits for it, at level 1. -/
theorem test_placed_descriptor_runs :
    eventsOf (step (State.reset.withFetchWord 64 0x0000000040000601)) =
      [.record (.wEntry .l1 0#9 0#48 0#48 0x0000000040000601#64 0x0100000040000601#64),
        .record (.rMapped 0x000040000000#48 .l1 .block)] := by
  decide

/-- V123. -/
theorem test_illegal_packet :
    eventsOf (step (State.reset.withFetchWord 32 0x80000009)) = [.record (.rIllegal 0x80000009#32)] := by
  decide

/-- V54: an unreadable root. -/
theorem test_unreadable_root :
    eventsOf
        (step
          { walkingAt 0x0000000123456789#64 .l0 0x40000000#48 with
            mem := { cells := [], fill := some 0, failing := [0x40000000] } }) =
      [.record (.rFault .l0 .unreadableMemory 0x000040000000#48)] := by
  decide

/-- V78: an unreadable target entry of a root table at level 1. -/
theorem test_unreadable_entry_is_flagged :
    eventsOf
        (step
          { targetingAt .l1 0x50002000#48 0x0000010040000000#64 with
            mem := { cells := [], fill := some 0, failing := [0x50002008] } }) =
      [.record (.eUnread .l1 1#9 0x50002000#48 0x50002008#48), .record (.eTableEnd .l1 0x50002000#48 0#10 false),
        .record .rEnumDone] := by
  decide

/-- V60. -/
theorem test_walkpc_aborts :
    eventsOf (step { readingRegister .pc with regs := { State.reset.regs with pc := none } }) =
      [.record (.rAbort .registerUnavailable .pc)] := by
  decide

/-- R281: a response to an abandoned request is discarded. -/
theorem test_late_answer_is_discarded :
    step { State.reset with inputs := [.memAnswer 0 none], txn := 1 } = .next { State.reset with txn := 1 } := rfl

/-- R284: the engine's turn comes before a change of memory that is due after it. -/
theorem test_turn_precedes_a_later_change :
    eventsOf
        (step
          { walkingAt 0x0000000123456789#64 .l1 0x40001000#48 with
            inputs := [.turn, .memoryChange 0x40001020#64 0#8]
            mem := State.reset.mem.setWord 0x40001020#64 0x40000601#64 }) =
      [.record (.wEntry .l1 4#9 0x40001000#48 0x40001020#48 0x40000601#64 0x0100000040000601#64),
        .record (.rMapped 0x000063456789#48 .l1 .block)] := by
  decide

/-- A turn passes while the reader does not answer and an input is still due. -/
theorem test_turn_passes_while_waiting :
    step { walkingAt 0#64 .l0 0#48 with readerLive := false, inputs := [.turn, .setReader true] } =
      .next { walkingAt 0#64 .l0 0#48 with readerLive := false, inputs := [.setReader true] } := rfl

/-- R281: reset inside the move that accepts a packet; the packet is gone and nothing was requested. -/
theorem test_reset_midway_after_acceptance :
    let s := { State.reset with cmd := [⟨0x00000004#32, 0#64, 0#64, 0#64⟩], inputs := [.resetMidway] }
    idleAfter (step s) = true ∧ eventsOf (step s) = [] := by
  decide

/-- R281: reset inside the move in which the sink took a `W_ENTRY`; no request follows it. -/
theorem test_reset_midway_after_record :
    let s := { pendingWith (.wEntry .l0 0#9 0#48 0#48 3#64 0x0080000000000001#64) with inputs := [.resetMidway] }
    idleAfter (step s) = true ∧
      eventsOf (step s) = [.record (.wEntry .l0 0#9 0#48 0#48 3#64 0x0080000000000001#64)] := by
  decide

/-- R286. -/
theorem test_unanswered_request_hangs :
    faultOf (step { walkingAt 0#64 .l0 0#48 with readerLive := false }) = some .memoryUnanswered := by decide

/-- R287. -/
theorem test_stalled_sink_hangs :
    faultOf (step { pendingWith .rEnumDone with sinkReady := false }) = some .sinkStalled := by decide

/-- R63: a descriptor stored byte by byte is read with the lowest address least significant. -/
theorem test_memory_is_little_endian :
    (({ cells := [(0x40003020, 0x47#8), (0x40003021, 0x0F#8), (0x40003023, 0x41#8), (0x40003026, 0x40#8)], fill := some 0,
        failing := [] } : Memory).read8 0x40003020#64).map le64 = some 0x0040000041000F47#64 := by
  decide

/-! ### Witnesses: states and operands that meet the hypotheses of each statement, at the ends of each clause's range -/

theorem witness_DecodeOfEncodeIsIdentity : (Instr.descTableL1L2 .l2 3#64).wf = true ∧ (Instr.enum .l3 1023#10 (ops 0 0 0)).wf = true := by
  decide

theorem witness_EncodeOfDecodeIsIdentity :
    decode (.descriptor .l3 1#64) = some (.descPageL3 1#64) ∧
      decode (.command ⟨0x0003FF38#32, 0#64, 0#64, 0#64⟩) = some (.enumt .l3 1023#10 (ops 0 0 0)) := by
  decide

theorem witness_DecomposeReconstructs :
    (0xFFFF000000001000#64 : Word) &&& 0x0000FFFFFFFFFFFF#64 = 0x0000000000001000#64 &&& 0x0000FFFFFFFFFFFF#64 := by decide

theorem witness_SelectRootByBit55 :
    (0x0080000000000000#64 : Word).getLsbD 55 = (0xFFFFFFFFFFFFFFFF#64 : Word).getLsbD 55 ∧
      (0#64 : Word).getLsbD 55 = (0xFF7FFFFFFFFFFFFF#64 : Word).getLsbD 55 := by
  decide

theorem witness_DecodeProperties :
    (0xFFFFFFFFFFFFFFFE#64 : Word).getLsbD 0 = false ∧ (1#64 : Word).getLsbD 0 = true ∧ (1#64 : Word).getLsbD 1 = false ∧
      (3#64 : Word).getLsbD 1 = true ∧ (decodeDescriptor 1#64 .l1).kind = .block ∧
      (decodeDescriptor 3#64 .l1).kind ≠ .block ∧
      decodeDescriptor 0xFFFFFFFFFFFFFFFF#64 .l2 =
        .table 0xFFFFFFFFF000#48 (permOf 0xFFFFFFFFFFFFFFFF#64) false := by
  decide

theorem witness_DecodeIsLegalAndReadsItsSlices :
    (0xFF9F000000000821#64 : Word) &&& 0x0060FFFFFFFFF7DF#64 = 0x1#64 &&& 0x0060FFFFFFFFF7DF#64 := by decide

theorem witness_PackFormulaAndInjectivity :
    (0#64 : Word).getLsbD 0 = false ∧ decodeDescriptor 1#64 .l0 = .table 0#48 (permOf 1#64) true ∧
      decodeDescriptor 1#64 .l1 = .block 0#48 (permOf 1#64) ∧ decodeDescriptor 1#64 .l3 = .page 0#48 (permOf 1#64) ∧
      Descriptor.invalid.legalAt .l0 = true ∧ (decodeDescriptor 1#64 .l2).legalAt .l2 = true := by
  decide

theorem witness_EntryAddressHasNoCarry : pageAligned 0xFFFFFFFFF000#48 = true ∧ pageAligned 0#48 = true := by decide

theorem witness_FinalAddressKeepsOffset :
    decodeDescriptor 0xFFFFFFFFFFFFFFFD#64 .l1 = .block 0xFFFFC0000000#48 (permOf 0xFFFFFFFFFFFFFFFD#64) ∧
      decodeDescriptor 0xFFFFFFFFFFFFFFFD#64 .l2 = .block 0xFFFFFFE00000#48 (permOf 0xFFFFFFFFFFFFFFFD#64) ∧
      decodeDescriptor 0xFFFFFFFFFFFFFFFD#64 .l3 = .page 0xFFFFFFFFF000#48 (permOf 0xFFFFFFFFFFFFFFFD#64) ∧
      (0x40000001#64 : Word).toNat % 2 ^ Config.shift .l1 = (1#64 : Word).toNat % 2 ^ Config.shift .l1 := by
  decide

theorem witness_DescribeOfPackedIsDescribeOfRaw : decodeDescriptor 1#64 .l0 ≠ .invalid := by decide

theorem witness_ReadAfterInspectedStore :
    State.reset.mem.wf = true ∧ (0xFFFFFFFFFFFFFFF8#64 : Word).toNat + 8 ≤ 2 ^ 64 ∧
      (0xFFFFFFFFFFFFFFF7 < (0xFFFFFFFFFFFFFFF8#64 : Word).toNat) ∧ (0#64 : Word).toNat + 8 ≤ 8 := by
  decide

theorem witness_DecomposeReports : State.reset.wait = .idle ∧ State.reset.sinkReady = true := by decide

theorem witness_SelrootReports : State.reset.wait = .idle ∧ State.reset.sinkReady = true := by decide

theorem witness_DecodeReports : State.reset.wait = .idle ∧ State.reset.sinkReady = true := by decide

theorem witness_DescribeReports : State.reset.wait = .idle ∧ State.reset.sinkReady = true := by decide

theorem witness_WalkBegins : State.reset.wait = .idle := by decide

theorem witness_EnumBegins : State.reset.wait = .idle ∧ (1#10 : BitVec 10) ≠ 0#10 ∧ (1023#10 : BitVec 10) ≠ 0#10 := by decide

theorem witness_EnumWithCapZeroReadsNothing : State.reset.wait = .idle ∧ State.reset.sinkReady = true := by decide

theorem witness_EnumtBegins : State.reset.wait = .idle := by decide

/-- An idle engine before a sink that does not take. -/
def stalled : State := { State.reset with sinkReady := false }

theorem witness_PureCommandsWaitForTheSink : stalled.wait = .idle ∧ stalled.sinkReady = false := by decide

theorem witness_CommandsWhileBusyAreHeld :
    isCommand (.walkpc (ops 0 0 0)) = true ∧
      decodePacket ⟨0x00000006#32, 0#64, 0#64, 0#64⟩ = some (.walkpc (ops 0 0 0)) ∧
      (walkingAt 0#64 .l0 0#48).wait ≠ .idle ∧ (readingRegister .pc).wait ≠ .idle ∧ (pendingWith .rEnumDone).wait ≠ .idle := by
  decide

theorem witness_InvalidDescriptorEndsAWalk :
    (walkingAt 0#64 .l3 0#48).wait = .mem ⟨0#64, 8#8, 0⟩ ∧ isEnumeration (walkingAt 0#64 .l3 0#48).op = false ∧
      (walkingAt 0#64 .l3 0#48).sinkReady = true := by
  decide

theorem witness_TableDescriptorDescends :
    (∀ level : Level, level = .l0 ∨ level = .l1 ∨ level = .l2 →
      (walkingAt 0#64 level 0#48).wait = .mem ⟨0#64, 8#8, 0⟩ ∧ isEnumeration (walkingAt 0#64 level 0#48).op = false ∧
        (walkingAt 0#64 level 0#48).sinkReady = true ∧ (walkingAt 0#64 level 0#48).level = level) ∧
      (Instr.descTableL0 1#64).wf = true ∧ (Instr.descTableL1L2 .l1 3#64).wf = true ∧ (Instr.descTableL1L2 .l2 3#64).wf = true := by
  refine ⟨?_, by decide, by decide, by decide⟩
  intro level h
  rcases h with rfl | rfl | rfl <;> decide

theorem witness_BlockDescriptorMaps :
    (walkingAt 0#64 .l1 0#48).wait = .mem ⟨0#64, 8#8, 0⟩ ∧ (walkingAt 0#64 .l1 0#48).level = .l1 ∧
      (walkingAt 0#64 .l2 0#48).wait = .mem ⟨0#64, 8#8, 0⟩ ∧ (walkingAt 0#64 .l2 0#48).level = .l2 ∧
      isEnumeration (walkingAt 0#64 .l2 0#48).op = false ∧ (walkingAt 0#64 .l2 0#48).sinkReady = true := by
  decide

theorem witness_PageDescriptorMaps :
    (walkingAt 0#64 .l3 0#48).wait = .mem ⟨0#64, 8#8, 0⟩ ∧ isEnumeration (walkingAt 0#64 .l3 0#48).op = false ∧
      (walkingAt 0#64 .l3 0#48).sinkReady = true ∧ (walkingAt 0#64 .l3 0#48).level = .l3 := by
  decide

/-- A walk before a sink that does not take. -/
def stalledWalk : State := { walkingAt 0#64 .l2 0#48 with sinkReady := false }

theorem witness_WalkWaitsForTheSink :
    stalledWalk.wait = .mem ⟨0#64, 8#8, 0⟩ ∧ isEnumeration stalledWalk.op = false ∧ stalledWalk.sinkReady = false := by
  decide

/-- The last index but one, and the least cap that lets the next index be read. -/
theorem witness_EnumerationSkipsInvalid :
    let s := listingAt .l0 0#48 510 0 1#10
    s.wait = .mem ⟨0xFF0#64, 8#8, 0⟩ ∧ isEnumeration s.op = true ∧ s.filt = false ∧ (s.frames.get s.top).index + 1 < 512 ∧
      (s.frames.get s.top).emitted < s.cap.toNat := by
  decide

theorem witness_EnumerationEmitsLeaves :
    let s := listingAt .l3 0#48 510 0 2#10
    let u := listingAt .l1 0#48 0 0 2#10
    s.wait = .mem ⟨0xFF0#64, 8#8, 0⟩ ∧ isEnumeration s.op = true ∧ s.filt = false ∧ s.sinkReady = true ∧
      (s.frames.get s.top).index + 1 < 512 ∧ (s.frames.get s.top).emitted + 1 < s.cap.toNat ∧
      (decodeDescriptor 1#64 s.top).kind = .page ∧ (decodeDescriptor 1#64 u.top).kind = .block := by
  decide

theorem witness_CapClosesTheRootTable :
    let s := listingAt .l3 0#48 510 0 1#10
    s.wait = .mem ⟨0xFF0#64, 8#8, 0⟩ ∧ isEnumeration s.op = true ∧ s.filt = false ∧ s.sinkReady = true ∧ s.top = s.start ∧
      (s.frames.get s.top).index + 1 < 512 ∧ (s.frames.get s.top).emitted + 1 = s.cap.toNat ∧
      (decodeDescriptor 1#64 s.top).kind = .page := by
  decide

theorem witness_EnumerationOpensTables :
    let s := listingAt .l2 0#48 511 0 1#10
    let u := targetingAt .l0 0#48 0#64
    s.wait = .mem ⟨0xFF8#64, 8#8, 0⟩ ∧ isEnumeration s.op = true ∧ s.sinkReady = true ∧ s.cap ≠ 0#10 ∧ s.top ≠ .l3 ∧
      (decodeDescriptor 3#64 s.top).kind = .table ∧ u.wait = .mem ⟨0#64, 8#8, 0⟩ ∧ isEnumeration u.op = true ∧
      u.sinkReady = true ∧ u.filt = true ∧ u.top ≠ .l3 ∧ (decodeDescriptor 1#64 u.top).kind = .table := by
  decide

theorem witness_UnawaitedDescriptorsAreDiscarded :
    (∀ q, State.reset.wait ≠ .mem q) ∧ (∀ q, (readingRegister .pc).wait ≠ .mem q) ∧
      (∀ q, (pendingWith .rEnumDone).wait ≠ .mem q) :=
  ⟨fun _ => nofun, fun _ => nofun, fun _ => nofun⟩

/-- Memory in which nothing answers. -/
def noMemory : Memory := { cells := [], fill := none, failing := [] }

theorem witness_UnreadableMemoryEndsAWalk :
    let s := { walkingAt 0#64 .l0 0#48 with mem := noMemory }
    s.wait = .mem ⟨0#64, 8#8, 0⟩ ∧ s.responsive ∧ isEnumeration s.op = false ∧ (0#64 : Word) = s.ea.setWidth 64 ∧
      s.mem.read8 0#64 = none :=
  ⟨by decide, ⟨by decide, by decide, by decide⟩, by decide, by decide, by decide⟩

theorem witness_UnreadableEntryIsFlagged :
    let s := { listingAt .l0 0#48 510 0 1#10 with mem := noMemory }
    s.wait = .mem ⟨0xFF0#64, 8#8, 0⟩ ∧ s.responsive ∧ isEnumeration s.op = true ∧ s.filt = false ∧
      s.mem.read8 0xFF0#64 = none ∧ (s.frames.get s.top).index + 1 < 512 ∧
      (s.frames.get s.top).emitted < s.cap.toNat :=
  ⟨by decide, ⟨by decide, by decide, by decide⟩, by decide, by decide, by decide, by decide, by decide⟩

theorem witness_UnavailableRegisterAborts :
    let s := { readingRegister .ttbr1El1 with regs := { State.reset.regs with ttbr1El1 := none } }
    s.wait = .reg ⟨.ttbr1El1, 0⟩ ∧ s.responsive ∧ s.regs.get .ttbr1El1 = none :=
  ⟨by decide, ⟨by decide, by decide, by decide⟩, by decide⟩

theorem witness_RegistersAreReadInOrder :
    ((readingRegister .pc).responsive ∧ (readingRegister .pc).wait = .reg ⟨.pc, 0⟩ ∧ (readingRegister .pc).regs.pc = some 0#64) ∧
      ((readingRegister .ttbr0El1).responsive ∧ (readingRegister .ttbr0El1).wait = .reg ⟨.ttbr0El1, 0⟩ ∧
        (readingRegister .ttbr0El1).regs.ttbr0El1 = some 0#64) ∧
      ((readingRegister .ttbr1El1).responsive ∧ (readingRegister .ttbr1El1).wait = .reg ⟨.ttbr1El1, 0⟩ ∧
        (readingRegister .ttbr1El1).regs.ttbr1El1 = some 0#64) :=
  ⟨⟨⟨by decide, by decide, by decide⟩, by decide, by decide⟩, ⟨⟨by decide, by decide, by decide⟩, by decide, by decide⟩,
    ⟨⟨by decide, by decide, by decide⟩, by decide, by decide⟩⟩

/-- A reset between moves, inside a move from each kind of wait, a stale answer to an idle engine and to one with a request of its
own, and an idle engine with two walks, a reset and a stale answer to come. -/
theorem witness_ResetAbandonsTheOperation :
    let walkPacket : Packet := ⟨0x00000004#32, 0#64, 0#64, 0#64⟩
    let r := { walkingAt 0#64 .l0 0#48 with inputs := [.reset] }
    let m := { walkingAt 0#64 .l0 0#48 with inputs := [.resetMidway] }
    let k := { pendingWith .rEnumDone with inputs := [.resetMidway] }
    let i := { State.reset with inputs := [.resetMidway] }
    let u := { State.reset with txn := 1, inputs := [.memAnswer 0 none] }
    let v := { readingRegister .pc with inputs := [.regAnswer 1 none] }
    let w := { State.reset with cmd := [walkPacket, walkPacket], inputs := [.turn, .reset, .turn, .memAnswer 0 none] }
    r.inputs = [.reset] ∧ m.inputs = [.resetMidway] ∧ m.wait ≠ .idle ∧ (∀ c, m.wait ≠ .rpt c) ∧
      k.inputs = [.resetMidway] ∧ k.wait = .rpt .rEnumDone ∧ i.inputs = [.resetMidway] ∧ i.wait = .idle ∧
      (∀ q, u.wait ≠ .mem q) ∧ u.inputs = [.memAnswer 0 none] ∧ (∀ q, v.wait = .reg q → q.tag ≠ 1) ∧
      v.inputs = [.regAnswer 1 none] ∧ w.wait = .idle ∧ decodePacket walkPacket = some (.walk (ops 0 0 0)) ∧
      w.cmd = [walkPacket, walkPacket] ∧ w.inputs = [.turn, .reset, .turn, .memAnswer w.txn none] := by
  refine ⟨by decide, by decide, by decide, fun _ => nofun, by decide, by decide, by decide, by decide, fun _ => nofun, by decide, ?_,
    by decide, by decide, by decide, by decide, by decide⟩
  intro q hq
  cases hq
  decide

/-- A turn in which the engine moves, one in which it has no move, and the three ways to hang. -/
theorem witness_TheEngineHangsExactlyWhenUnanswered :
    let s := { walkingAt 0#64 .l0 0#48 with inputs := [.turn] }
    let u := { walkingAt 0#64 .l0 0#48 with inputs := [.turn], readerLive := false }
    let m := { walkingAt 0#64 .l0 0#48 with readerLive := false }
    let g := { readingRegister .pc with readerLive := false }
    let k := { pendingWith .rEnumDone with sinkReady := false }
    s.inputs = [.turn] ∧ (∃ t, step { s with inputs := [] } = .next t) ∧ u.inputs = [.turn] ∧
      step { u with inputs := [] } = .fault .memoryUnanswered ∧ m.inputs = [] ∧ m.wait = .mem ⟨0#64, 8#8, 0⟩ ∧
      m.readerLive = false ∧ g.inputs = [] ∧ g.wait = .reg ⟨.pc, 0⟩ ∧ g.readerLive = false ∧ k.inputs = [] ∧
      k.wait = .rpt .rEnumDone ∧ k.sinkReady = false :=
  ⟨rfl, ⟨_, rfl⟩, rfl, rfl, rfl, by decide, rfl, rfl, rfl, rfl, rfl, rfl, rfl⟩

theorem witness_StepRunsThePacket :
    let s := { State.reset with cmd := [⟨0x00000006#32, 0#64, 0#64, 0#64⟩], inputs := [.turn] }
    let u := { State.reset with cmd := [⟨0x00000000#32, 0#64, 0#64, 0#64⟩] }
    State.reset.turnDue [] ∧ State.reset.wait = .idle ∧ State.reset.cmd = [] ∧ s.turnDue [] ∧ s.wait = .idle ∧
      decodePacket ⟨0x00000006#32, 0#64, 0#64, 0#64⟩ = some (.walkpc (ops 0 0 0)) ∧ u.turnDue [] ∧ u.wait = .idle ∧
      u.sinkReady = true ∧ decodePacket ⟨0x00000000#32, 0#64, 0#64, 0#64⟩ = none :=
  ⟨.inl ⟨rfl, rfl⟩, rfl, rfl, .inr rfl, rfl, by decide, .inl ⟨rfl, rfl⟩, rfl, rfl, by decide⟩

theorem witness_StepRunsTheDescriptor :
    let s := walkingAt 0#64 .l0 0#48
    let u := { walkingAt 0#64 .l0 0#48 with inputs := [.memAnswer 0 (some (bytesOf 3#64))] }
    s.wait = .mem ⟨0#64, 8#8, 0⟩ ∧ s.turnDue [] ∧ { s with inputs := [.turn] }.turnDue [] ∧ s.readerLive = true ∧
      s.mem.read8 0#64 = some (bytesOf 0#64) ∧ u.wait = .mem ⟨0#64, 8#8, 0⟩ ∧
      u.inputs = [.memAnswer 0 (some (bytesOf 3#64))] :=
  ⟨by decide, .inl ⟨rfl, rfl⟩, .inr rfl, rfl, by decide, by decide, by decide⟩

/-- A walk and an enumeration that meet the invariant, each with a step. -/
theorem witness_EveryStepKeepsTheInvariant :
    (walkingAt 0x0000000123456789#64 .l0 0x40000000#48).Inv ∧ (listingAt .l2 0x50005000#48 5 0 1#10).Inv ∧
      (∃ t, step (walkingAt 0x0000000123456789#64 .l0 0x40000000#48) = .next t) ∧
      (∃ t, step (listingAt .l2 0x50005000#48 5 0 1#10) = .next t) := by
  refine ⟨⟨by decide, by decide, by decide, by decide, by decide, Or.inl (by decide)⟩,
    ⟨by decide, by decide, by decide, by decide, by decide, Or.inr ⟨⟨by decide, by decide, by decide, ?_, ?_⟩, by decide, by decide,
      by decide, by decide, by decide⟩⟩, ⟨_, rfl⟩, ⟨_, rfl⟩⟩
  · intro level h1 h2
    cases level <;> revert h1 h2 <;> decide
  · intro level h1 h2
    cases level <;> revert h1 h2 <;> decide

theorem witness_TheEngineOnlyReads :
    let s := walkingAt 0#64 .l0 0#48
    (∃ t, step s = .next t) ∧ (∀ rest a b, s.inputs ≠ .memoryChange a b :: rest) ∧
      (∀ rest a b, s.inputs ≠ .memoryFails a b :: rest) ∧ (∀ rest sel v, s.inputs ≠ .registerChange sel v :: rest) :=
  ⟨⟨_, rfl⟩, fun _ _ _ => nofun, fun _ _ _ => nofun, fun _ _ _ => nofun⟩

/-- The state of the invariant's witness has a ready sink and no input due. -/
theorem witness_ReadySinkLeavesNothingPending :
    let s := walkingAt 0x0000000123456789#64 .l0 0x40000000#48
    s.Inv ∧ s.turnDue [] ∧ s.sinkReady = true ∧ (∃ t, step s = .next t) :=
  ⟨witness_EveryStepKeepsTheInvariant.1, .inl ⟨rfl, rfl⟩, by decide, ⟨_, rfl⟩⟩

/-- Two idle engines that differ in their registers. -/
theorem witness_CommandsIgnoreOldRegisters :
    let s := State.reset
    let s' := { State.reset with raw := 1, cap := 3, top := .l2 }
    s.wait = .idle ∧ s.withoutRegisters = s'.withoutRegisters ∧ s ≠ s' := by
  decide

theorem witness_RunsIgnoreOldRegisters :
    let s := State.reset
    let s' := { State.reset with raw := 1, cap := 3, top := .l2 }
    s.wait = .idle ∧ s.withoutRegisters = s'.withoutRegisters ∧ s ≠ s' := by
  decide

theorem witness_WalksRefineTheBigStep : State.reset.wait = .idle ∧ State.reset.responsive := ⟨rfl, rfl, rfl, rfl⟩

theorem witness_EnumerationsRefineTheBigStep : State.reset.wait = .idle ∧ State.reset.responsive := ⟨rfl, rfl, rfl, rfl⟩

/-- A walk whose read fails, and a WALKR whose second register is unavailable: the inputs that answer their requests. -/
theorem witness_OperationsFollowTheirAnswers :
    let registers : RegSel → Option Word := fun sel => if sel = .ttbr1El1 then none else some 0#64
    State.reset.wait = .idle ∧ State.reset.sinkReady = true ∧
      answerInputs (fun _ _ => none) registers 0 0 (Machine.walk (fun _ _ => none) 0#64 0#64 0#64).1 = [.memAnswer 0 none] ∧
      answerInputs (fun _ _ => none) registers 0 0 (walkRegisters (fun _ _ => none) registers 0#64).1 =
        [.regAnswer 0 (some 0#64), .regAnswer 1 none] := by
  decide

/-- The caps 512 and 1023 (V74), and an `E_TABLE_END` of a sub-table in a stream with a filter: two tables are closed. -/
theorem witness_LargeCapsAndFilteredCapsAgree :
    let read : Reader := fun n _ => if n = 0 then some (bytesOf 3#64) else some (bytesOf 0#64)
    512 ≤ (512#10 : BitVec 10).toNat ∧ 512 ≤ (1023#10 : BitVec 10).toNat ∧
      Record.eTableEnd .l3 0#48 0#10 false ∈ recordsOf (enumerate read 0#64 0#64 .l2 (some 0#64) 0).events ∧
      Record.eTableEnd .l2 0#48 1#10 false ∈ recordsOf (enumerate read 0#64 0#64 .l2 (some 0#64) 0).events := by
  decide

/-- A truncated table under an untruncated root counts. -/
theorem test_untruncated_sees_sub_tables :
    (TableNode.node .l2 0#48
        [.entry .l2 0#48 0#9 0#48 3#64 0#64 (decodeDescriptor 3#64 .l2) (some (.node .l3 0#48 [] 0 true))] 1 false).untruncated =
      false := by
  decide

/-- A walk of nothing readable: one request and its terminal record. -/
theorem witness_OneTerminalRecordEndsEachStream :
    (Machine.walk (fun _ _ => none) 0#64 0#64 0#64).1 = [mem8 0#64, .record (.rFault .l0 .unreadableMemory 0#48)] := by
  decide

end Sys2Proof.Tests
end

section
/-!
The interface between the two readings of an operation. `Completes` follows the engine record by record and answer by answer,
whatever the outside; the run of `core` is linked to it once, for answers given as inputs and for a live reader alike.
-/
namespace Sys2Proof.Machine

/-! ### The inputs still due -/

/-- `s` with the inputs still due replaced. -/
def State.withInputs (rest : List Input) (s : State) : State := { s with inputs := rest }

@[simp] theorem withInputs_level (rest : List Input) (s : State) : (s.withInputs rest).level = s.level := rfl

/-! ### An answer, up to the next primitive -/

/-- The engine's reaction to the answer to its MEM request, before any record is taken. -/
def receiveMem (answer : Option Bytes8) (s : State) : State :=
  match answer with
  | none => if isEnumeration s.op then enumUnreadable s else walkUnreadable s
  | some b =>
    if isEnumeration s.op then enumReceive (le64 b) (decodeDescriptor (le64 b) s.top) s
    else walkReceive (le64 b) (decodeDescriptor (le64 b) s.level) s

/-- The engine's reaction to the answer to its REG request, before any record is taken. -/
def receiveReg (sel : RegSel) (answer : Option Word) (s : State) : State :=
  match answer with
  | none => raiseAbort sel s
  | some v => regReceive sel v s

theorem memoryAnswered_eq (answer : Option Bytes8) (s : State) (q : MemReq) (h : s.wait = .mem q) :
    memoryAnswered answer s = .next (settle (receiveMem answer s)) := by
  cases answer with
  | none => rfl
  | some b =>
    rw [memoryAnswered, exec_decodeRow, deliver_awaited _ _ _ s q h rfl]
    cases he : isEnumeration s.op <;> simp [receiveMem, currentLevel, he]

theorem registerAnswered_eq (sel : RegSel) (answer : Option Word) (s : State) :
    registerAnswered sel answer s = settle (receiveReg sel answer s) := by
  cases answer <;> rfl

theorem receiveMem_none_walk (s : State) (h : isEnumeration s.op = false) : receiveMem none s = walkUnreadable s := by
  simp [receiveMem, h]

theorem receiveMem_some_walk (b : Bytes8) (s : State) (h : isEnumeration s.op = false) :
    receiveMem (some b) s = walkReceive (le64 b) (decodeDescriptor (le64 b) s.level) s := by
  simp [receiveMem, h]

theorem receiveMem_none_enum (s : State) (h : isEnumeration s.op = true) : receiveMem none s = enumUnreadable s := by
  simp [receiveMem, h]

theorem receiveMem_some_enum (b : Bytes8) (s : State) (h : isEnumeration s.op = true) :
    receiveMem (some b) s = enumReceive (le64 b) (decodeDescriptor (le64 b) s.top) s := by
  simp [receiveMem, h]

theorem Extends.sinkReady_eq {s t : State} (h : Extends s t) : t.sinkReady = s.sinkReady := by
  obtain ⟨-, -, -, hsink, -⟩ := h
  exact hsink

theorem enumReceive_extends (raw : Word) (d : Descriptor) (s : State) : Extends s (enumReceive raw d s) := by
  cases d with
  | invalid => exact enumAdvance_extends { s with raw := raw, desc := .invalid }
  | table oa p w => exact offer_extends _ { s with raw := raw, desc := _ }
  | block oa p => exact offer_extends _ { s with raw := raw, desc := _ }
  | page oa p => exact offer_extends _ { s with raw := raw, desc := _ }

theorem receiveMem_extends (answer : Option Bytes8) (s : State) : Extends s (receiveMem answer s) := by
  unfold receiveMem
  split
  · split
    · exact offer_extends _ s
    · exact offer_extends _ s
  · split
    · exact enumReceive_extends _ _ s
    · exact offer_extends _ { s with raw := _, desc := _ }

theorem walkBegin_extends (va : Word) (s : State) : Extends s (walkBegin va s) :=
  requestMem_extends _ { s with va := va, base := _, idx := _, off := _, level := .l0, pathLen := 0 }

theorem receiveReg_extends (sel : RegSel) (answer : Option Word) (s : State) : Extends s (receiveReg sel answer s) := by
  cases answer with
  | none => exact offer_extends _ s
  | some v =>
    cases sel
    case pc => exact requestReg_extends _ { s with va := v }
    case ttbr0El1 => exact requestReg_extends _ { s with t0 := v }
    case ttbr1El1 => exact walkBegin_extends _ { s with t1 := v }
    all_goals exact Extends.refl s

/-! ### What a move issues -/

/-- Counted from the request number `tag` and the events `trace`, the engine has issued the one request it waits for, if it waits
for one, and nothing else. -/
def State.IssuedFrom (tag : Nat) (trace : List Event) (s : State) : Prop :=
  match s.wait with
  | .mem q => q.tag = tag ∧ s.txn = tag + 1 ∧ s.trace = trace ++ [.mem q.address q.length]
  | .reg q => q.tag = tag ∧ s.txn = tag + 1 ∧ s.trace = trace ++ [.reg q.sel]
  | .idle => s.txn = tag ∧ s.trace = trace
  | .rpt _ => s.txn = tag ∧ s.trace = trace

theorem issuedFrom_idle {tag : Nat} {trace : List Event} {s : State} (h : s.IssuedFrom tag trace) (hw : s.wait = .idle) :
    s.txn = tag ∧ s.trace = trace := by
  simpa only [State.IssuedFrom, hw] using h

theorem issuedFrom_rpt {tag : Nat} {trace : List Event} {s : State} {r : Record} (h : s.IssuedFrom tag trace)
    (hw : s.wait = .rpt r) : s.txn = tag ∧ s.trace = trace := by
  simpa only [State.IssuedFrom, hw] using h

theorem issuedFrom_mem {tag : Nat} {trace : List Event} {s : State} {q : MemReq} (h : s.IssuedFrom tag trace)
    (hw : s.wait = .mem q) : q.tag = tag ∧ s.txn = tag + 1 ∧ s.trace = trace ++ [.mem q.address q.length] := by
  simpa only [State.IssuedFrom, hw] using h

theorem issuedFrom_reg {tag : Nat} {trace : List Event} {s : State} {q : RegReq} (h : s.IssuedFrom tag trace)
    (hw : s.wait = .reg q) : q.tag = tag ∧ s.txn = tag + 1 ∧ s.trace = trace ++ [.reg q.sel] := by
  simpa only [State.IssuedFrom, hw] using h

theorem State.IssuedFrom.congr {tag tag' : Nat} {trace trace' : List Event} {s : State} (h : s.IssuedFrom tag trace)
    (htag : tag = tag') (htrace : trace = trace') : s.IssuedFrom tag' trace' :=
  htag ▸ htrace ▸ h

theorem offer_issues (r : Record) (s : State) : (offer r s).IssuedFrom s.txn s.trace := ⟨rfl, rfl⟩

theorem finish_issues (s : State) : (finish s).IssuedFrom s.txn s.trace := ⟨rfl, rfl⟩

theorem requestMem_issues (ea : PA) (s : State) : (requestMem ea s).IssuedFrom s.txn s.trace := ⟨rfl, rfl, rfl⟩

theorem requestReg_issues (sel : RegSel) (s : State) : (requestReg sel s).IssuedFrom s.txn s.trace := ⟨rfl, rfl, rfl⟩

theorem walkBegin_issues (va : Word) (s : State) : (walkBegin va s).IssuedFrom s.txn s.trace :=
  requestMem_issues _ { s with va := va, base := _, idx := _, off := _, level := .l0, pathLen := 0 }

theorem enumVisit_issues (s : State) : (enumVisit s).IssuedFrom s.txn s.trace := by
  unfold enumVisit
  split
  · exact offer_issues _ s
  · split
    · exact offer_issues _ (setTopFrame _ s)
    · exact requestMem_issues _ s

theorem afterWEntry_issues (s : State) : (afterWEntry s).IssuedFrom s.txn s.trace := by
  unfold afterWEntry
  split
  · exact offer_issues _ { s with pathLen := s.pathLen + 1 }
  · exact requestMem_issues _ { s with pathLen := s.pathLen + 1, base := _, level := s.level.succ }
  · exact offer_issues _ { s with pathLen := s.pathLen + 1 }
  · exact offer_issues _ { s with pathLen := s.pathLen + 1 }

theorem afterEEntry_issues (s : State) : (afterEEntry s).IssuedFrom s.txn s.trace := by
  unfold afterEEntry
  simp only
  split
  · exact enumVisit_issues { setTopFrame _ s with frames := _, top := _ }
  all_goals exact enumVisit_issues (setTopFrame _ (setTopFrame _ s))

theorem afterTableEnd_issues (s : State) : (afterTableEnd s).IssuedFrom s.txn s.trace := by
  unfold afterTableEnd
  split
  · exact offer_issues _ s
  · exact enumVisit_issues (setTopFrame _ { s with top := s.top.pred })

theorem takeRecord_issues (r : Record) (s : State) : (takeRecord r s).IssuedFrom s.txn (s.trace ++ [.record r]) := by
  cases r
  case wEntry => exact afterWEntry_issues (logRecord _ s)
  case eEntry => exact afterEEntry_issues (logRecord _ s)
  case eUnread => exact enumVisit_issues (setTopFrame _ (logRecord _ s))
  case eTableEnd => exact afterTableEnd_issues (logRecord _ s)
  all_goals exact finish_issues (logRecord _ s)

theorem enumReceive_issues (raw : Word) (d : Descriptor) (s : State) :
    (enumReceive raw d s).IssuedFrom s.txn s.trace := by
  cases d with
  | invalid => exact enumVisit_issues (setTopFrame _ { s with raw := raw, desc := .invalid })
  | table oa p w => exact offer_issues _ { s with raw := raw, desc := _ }
  | block oa p => exact offer_issues _ { s with raw := raw, desc := _ }
  | page oa p => exact offer_issues _ { s with raw := raw, desc := _ }

theorem receiveMem_issues (answer : Option Bytes8) (s : State) : (receiveMem answer s).IssuedFrom s.txn s.trace := by
  unfold receiveMem
  split
  · split
    · exact offer_issues _ s
    · exact offer_issues _ s
  · split
    · exact enumReceive_issues _ _ s
    · exact offer_issues _ { s with raw := _, desc := _ }

/-- Of the two names that are never requested no answer arrives (R38). -/
theorem receiveReg_issues (sel : RegSel) (answer : Option Word) (s : State) (h : sel.requested = true) :
    (receiveReg sel answer s).IssuedFrom s.txn s.trace := by
  cases answer with
  | none => exact offer_issues _ s
  | some v =>
    cases sel
    case pc => exact requestReg_issues _ { s with va := v }
    case ttbr0El1 => exact requestReg_issues _ { s with t0 := v }
    case ttbr1El1 => exact walkBegin_issues _ { s with t1 := v }
    all_goals cases h

/-! ### The rest of an operation -/

/-- From `s` the engine goes through exactly the events `es` and is then idle, when the sink takes every record and the requests are
answered by the oracles, `n` MEM requests having come before; a request among `es` is the one `s` waits for. Before the first
request at most `room` records come, and at most six after each, so that `settle` takes them all (notes/assumptions/4.md). The
inputs still due are whatever the outside likes at each answer. -/
def Completes (answers : Reader) (registers : RegSel → Option Word) : Nat → Nat → List Event → State → Prop
  | _, _, [], s => s.wait = .idle
  | room, n, .record r :: es, s =>
    0 < room ∧ s.wait = .rpt r ∧ Completes answers registers (room - 1) n es (takeRecord r s)
  | _, n, .mem address length :: es, s =>
    (∃ tag, s.wait = .mem ⟨address, length, tag⟩) ∧
      ∀ rest, Completes answers registers 6 (n + 1) es (receiveMem (answers n address) (s.withInputs rest))
  | _, n, .reg sel :: es, s =>
    sel.requested = true ∧ (∃ tag, s.wait = .reg ⟨sel, tag⟩) ∧
      ∀ rest, Completes answers registers 6 n es (receiveReg sel (registers sel) (s.withInputs rest))

variable {answers : Reader} {registers : RegSel → Option Word}

theorem Completes.mono {room room' n : Nat} {es : List Event} {s : State} (h : Completes answers registers room n es s)
    (hle : room ≤ room') : Completes answers registers room' n es s := by
  induction es generalizing room room' s with
  | nil => exact h
  | cons e es ih =>
    cases e with
    | mem address length => exact h
    | reg sel => exact h
    | record r =>
      obtain ⟨hpos, hw, hrest⟩ := h
      exact ⟨by omega, hw, ih hrest (by omega)⟩

/-- A record offered, then taken. -/
theorem completes_offer {room n : Nat} {es : List Event} {r : Record} {s : State}
    (h : Completes answers registers room n es (afterRecord r (logRecord r (offer r s)))) :
    Completes answers registers (room + 1) n (.record r :: es) (offer r s) :=
  ⟨Nat.succ_pos _, rfl, h⟩

/-- A terminal record ends the operation (R261). -/
theorem completes_terminal {room n : Nat} {r : Record} {s : State} (h : r.terminal = true) :
    Completes answers registers (room + 1) n [.record r] (offer r s) :=
  completes_offer (by rw [afterRecord_terminal r _ h]; rfl)

/-- A MEM request issued, then answered. -/
theorem completes_requestMem {room n : Nat} {es : List Event} {ea : PA} {s : State}
    (h : ∀ rest, Completes answers registers 6 (n + 1) es
      (receiveMem (answers n (ea.setWidth 64)) ((requestMem ea s).withInputs rest))) :
    Completes answers registers room n (memEvent ea :: es) (requestMem ea s) :=
  ⟨⟨s.txn, rfl⟩, h⟩

/-- A REG request issued, then answered. -/
theorem completes_requestReg {room n : Nat} {es : List Event} {sel : RegSel} {s : State} (hsel : sel.requested = true)
    (h : ∀ rest, Completes answers registers 6 n es
      (receiveReg sel (registers sel) ((requestReg sel s).withInputs rest))) :
    Completes answers registers room n (.reg sel :: es) (requestReg sel s) :=
  ⟨hsel, ⟨s.txn, rfl⟩, h⟩

/-! ### The run that answers the requests -/

/-- The outside will answer the requests among `es` as the oracles say, and then `more` is due: by inputs that carry the answers, or
by a live reader whose inspected system is the oracle. -/
def Supplied (answers : Reader) (registers : RegSel → Option Word) (more : List Input) (tag n : Nat) (es : List Event)
    (s : State) : Prop :=
  s.inputs = answerInputs answers registers tag n es ++ more ∨
    (s.inputs = [] ∧ more = [] ∧ s.readerLive = true ∧ answers = (fun _ => s.mem.read8) ∧ registers = s.regs.get)

variable {more : List Input} {tag n : Nat} {es : List Event} {s t : State}

theorem Supplied.of_extends (h : Supplied answers registers more tag n es s) (hst : Extends s t) :
    Supplied answers registers more tag n es t := by
  obtain ⟨hmem, hregs, hlive, -, hin, -⟩ := hst
  simpa only [Supplied, hmem, hregs, hlive, hin] using h

/-- With no request left to answer, `more` is due. -/
theorem Supplied.inputs_nil (h : Supplied answers registers more tag n [] s) : s.inputs = more := by
  rcases h with hin | ⟨hin, rfl, -⟩
  · exact hin
  · exact hin

theorem withInputs_self (s : State) (rest : List Input) (h : s.inputs = rest) : s.withInputs rest = s := by
  rw [← h]
  rfl

theorem absorb_memAnswer (answer : Option Bytes8) (s : State) (q : MemReq) (h : s.wait = .mem q) :
    absorb (.memAnswer q.tag answer) s = .next (settle (receiveMem answer s)) := by
  simp only [absorb, h, if_pos, memoryAnswered_eq answer s q h]

theorem absorb_regAnswer (answer : Option Word) (s : State) (q : RegReq) (h : s.wait = .reg q) :
    absorb (.regAnswer q.tag answer) s = .next (settle (receiveReg q.sel answer s)) := by
  simp only [absorb, h, if_pos, registerAnswered_eq]

theorem advance_mem (s : State) (q : MemReq) (h : s.wait = .mem q) (hlive : s.readerLive = true) :
    advance s = .next (settle (receiveMem (s.mem.read8 q.address) s)) := by
  simp only [advance, h, hlive, if_pos, memoryAnswered_eq _ s q h]

theorem advance_reg (s : State) (q : RegReq) (h : s.wait = .reg q) (hlive : s.readerLive = true) :
    advance s = .next (settle (receiveReg q.sel (s.regs.get q.sel) s)) := by
  simp only [advance, h, hlive, if_pos, registerAnswered_eq]

/-- The next step answers the outstanding MEM request. -/
theorem step_answers_mem {address : Word} {length : BitVec 8}
    (h : Supplied answers registers more tag n (.mem address length :: es) s)
    (hw : s.wait = .mem ⟨address, length, tag⟩) :
    ∃ rest, step s = .next (settle (receiveMem (answers n address) (s.withInputs rest))) ∧
      Supplied answers registers more (tag + 1) (n + 1) es (s.withInputs rest) := by
  rcases h with hin | ⟨hin, hmore, hlive, rfl, rfl⟩
  · let rest := answerInputs answers registers (tag + 1) (n + 1) es ++ more
    exact ⟨rest, (step_input s _ rest hin).trans (absorb_memAnswer _ (s.withInputs rest) _ hw), .inl rfl⟩
  · refine ⟨[], ?_, .inr ⟨rfl, hmore, hlive, rfl, rfl⟩⟩
    rw [withInputs_self s [] hin, step_no_input s hin, advance_mem s _ hw hlive]

/-- The next step answers the outstanding REG request. -/
theorem step_answers_reg {sel : RegSel} (h : Supplied answers registers more tag n (.reg sel :: es) s)
    (hw : s.wait = .reg ⟨sel, tag⟩) :
    ∃ rest, step s = .next (settle (receiveReg sel (registers sel) (s.withInputs rest))) ∧
      Supplied answers registers more (tag + 1) n es (s.withInputs rest) := by
  rcases h with hin | ⟨hin, hmore, hlive, rfl, rfl⟩
  · let rest := answerInputs answers registers (tag + 1) n es ++ more
    exact ⟨rest, (step_input s _ rest hin).trans (absorb_regAnswer _ (s.withInputs rest) _ hw), .inl rfl⟩
  · refine ⟨[], ?_, .inr ⟨rfl, hmore, hlive, rfl, rfl⟩⟩
    rw [withInputs_self s [] hin, step_no_input s hin, advance_reg s _ hw hlive]

theorem core_run_succ (k : Nat) (h : step s = .next t) : Sys2Proof.core.run (k + 1) s = Sys2Proof.core.run k t := by
  have hs : Sys2Proof.core.step s = .next t := h
  simp only [Host.Core.run, hs]

/-- `u` is where an operation ends that began in `s`: idle, the requests numbered from `tag` on issued, the events `es` added to
`trace`, `more` still due, and the rest of the outside as it was. -/
def EndsAs (s : State) (more : List Input) (tag : Nat) (trace : List Event) (u : State) : Prop :=
  u.wait = .idle ∧
    u.withoutRegisters = State.withoutRegisters { s with wait := .idle, inputs := more, txn := tag, trace := trace }

theorem EndsAs.of_extends {trace : List Event} {u : State} (h : EndsAs t more tag trace u) (hst : Extends s t) :
    EndsAs s more tag trace u := by
  obtain ⟨hmem, hregs, hlive, hsink, -, hcmd, -⟩ := hst
  obtain ⟨hidle, hout⟩ := h
  refine ⟨hidle, hout.trans ?_⟩
  simp only [State.withoutRegisters, hmem, hregs, hlive, hsink, hcmd]

/-- One step that answers a request, then the run from what the engine does with the answer. -/
theorem run_answer_then {room k : Nat} {rest : List Input} {trace : List Event} {e : Event}
    (hw : ∀ r, s.wait ≠ .rpt r) (hstep : step s = .next (settle t)) (hext : Extends (s.withInputs rest) t)
    (h : ∃ u : State, Sys2Proof.core.run k (drain 6 t) = .next u ∧ EndsAs t more (tag + 1 + k) (trace ++ [e] ++ es) u) :
    ∃ u : State, Sys2Proof.core.run (k + 1) (drain room s) = .next u ∧
      EndsAs s more (tag + (k + 1)) (trace ++ e :: es) u := by
  obtain ⟨u, hrun, hend⟩ := h
  refine ⟨u, ?_, ?_⟩
  · rw [drain_of_not_pending room s hw]
    exact (core_run_succ k hstep).trans hrun
  · rw [Nat.add_right_comm, List.append_assoc] at hend
    have hends : EndsAs (s.withInputs rest) more _ _ u := hend.of_extends hext
    exact hends

/-- With a ready sink, an operation whose requests are answered runs through its events, one step an answer. -/
theorem run_of_completes {room : Nat} {trace : List Event} (h : Completes answers registers room n es s)
    (hi : s.IssuedFrom tag trace) (hr : s.sinkReady = true) (hs : Supplied answers registers more tag n es s) :
    ∃ u : State, Sys2Proof.core.run (answerInputs answers registers tag n es).length (drain room s) = .next u ∧
      EndsAs s more (tag + (answerInputs answers registers tag n es).length) (trace ++ es) u := by
  induction es generalizing room n tag trace s with
  | nil =>
    have hidle : s.wait = .idle := h
    obtain ⟨rfl, rfl⟩ := issuedFrom_idle hi hidle
    refine ⟨s, ?_, hidle, ?_⟩
    · rw [drain_of_not_pending room s (by simp [hidle])]
      rfl
    · simp [answerInputs, State.withoutRegisters, hidle, hs.inputs_nil]
  | cons e es ih =>
    cases e with
    | record r =>
      obtain ⟨hpos, hw, hrest⟩ := h
      obtain ⟨rfl, rfl⟩ := issuedFrom_rpt hi hw
      have hext := takeRecord_extends r s
      obtain ⟨u, hrun, hend⟩ :=
        ih hrest (takeRecord_issues r s) (hext.sinkReady_eq.trans hr) (Supplied.of_extends (es := es) hs hext)
      refine ⟨u, ?_, by simpa [answerInputs] using hend.of_extends hext⟩
      obtain ⟨k, rfl⟩ : ∃ k, room = k + 1 := ⟨room - 1, by omega⟩
      rw [drain_pending k s r hw hr]
      exact hrun
    | mem address length =>
      obtain ⟨⟨tag, hw⟩, hrest⟩ := h
      obtain ⟨rfl, htxn, htrace⟩ := issuedFrom_mem hi hw
      obtain ⟨rest, hstep, hs'⟩ := step_answers_mem hs hw
      have hext := receiveMem_extends (answers n address) (s.withInputs rest)
      have hiss := (receiveMem_issues (answers n address) (s.withInputs rest)).congr htxn htrace
      exact run_answer_then (by simp [hw]) hstep hext
        (ih (hrest rest) hiss (hext.sinkReady_eq.trans hr) (hs'.of_extends hext))
    | reg sel =>
      obtain ⟨hsel, ⟨tag, hw⟩, hrest⟩ := h
      obtain ⟨rfl, htxn, htrace⟩ := issuedFrom_reg hi hw
      obtain ⟨rest, hstep, hs'⟩ := step_answers_reg hs hw
      have hext := receiveReg_extends sel (registers sel) (s.withInputs rest)
      have hiss := (receiveReg_issues sel (registers sel) (s.withInputs rest) hsel).congr htxn htrace
      exact run_answer_then (by simp [hw]) hstep hext
        (ih (hrest rest) hiss (hext.sinkReady_eq.trans hr) (hs'.of_extends hext))

/-- The instruction `i`, begun in `s`, completes with the events `es`. -/
def Begins (answers : Reader) (registers : RegSel → Option Word) (i : Instr) (s : State) (es : List Event) : Prop :=
  ∃ t, exec i s = .next (settle t) ∧ Extends s t ∧ t.IssuedFrom s.txn s.trace ∧ Completes answers registers 6 0 es t

theorem Begins.run {i : Instr} (h : Begins answers registers i s es) (hw : s.wait = .idle) (hr : s.sinkReady = true)
    (hs : Supplied answers registers more s.txn 0 es s) :
    ∃ t, exec i s = .next t ∧
      ∃ u : State, Sys2Proof.core.run (answerInputs answers registers s.txn 0 es).length t = .next u ∧ u.wait = .idle ∧
        u.withoutRegisters = State.withoutRegisters
          { s with
            inputs := more
            txn := s.txn + (answerInputs answers registers s.txn 0 es).length
            trace := s.trace ++ es } := by
  obtain ⟨t, hexec, hext, hiss, hcompletes⟩ := h
  obtain ⟨u, hrun, hend⟩ := run_of_completes hcompletes hiss (hext.sinkReady_eq.trans hr) (hs.of_extends hext)
  obtain ⟨hidle, hout⟩ := hend.of_extends hext
  exact ⟨_, hexec, u, hrun, hidle, hout.trans (by rw [hw])⟩

end Sys2Proof.Machine
end

section
/-!
The walks: the big-step walk at one level, the engine's walk through the same levels, and WALK, WALKR and WALKPC begun.
-/
namespace Sys2Proof.Machine

/-! ### The big-step walk at one level (R170) -/

section
variable {read : Reader} {va : Word} {level : Level} {rest : List Level} {base ea : PA} {path : List PathEntry} {n : Nat}
  {b : Bytes8} {d : Descriptor}

/-- What follows the `W_ENTRY` of a level: the levels below a Table, or the terminal record. -/
def walkTail (read : Reader) (va : Word) (level : Level) (rest : List Level) (ea : PA) (path : List PathEntry) (n : Nat) :
    Descriptor → List Event
  | .invalid => [.record (.rFault level .invalidEntry ea)]
  | .table oa _ _ => (walkFrom read va rest oa path n).1
  | .block oa _ => [.record (.rMapped (blockAddress oa va level) level .block)]
  | .page oa _ => [.record (.rMapped (pageAddress oa (decompose va).off) .l3 .page)]

/-- The read fails (R253). -/
theorem walkFrom_unread (hea : entryAddress base ((decompose va).idx.get level) = ea)
    (hb : read n (ea.setWidth 64) = none) :
    (walkFrom read va (level :: rest) base path n).1 = [memEvent ea, .record (.rFault level .unreadableMemory ea)] := by
  subst hea
  rw [walkFrom, hb]

/-- The read is answered: its `W_ENTRY`, and what the descriptor asks for. -/
theorem walkFrom_read (hea : entryAddress base ((decompose va).idx.get level) = ea)
    (hb : read n (ea.setWidth 64) = some b) (hd : decodeDescriptor (le64 b) level = d) :
    ∃ path', (walkFrom read va (level :: rest) base path n).1 =
      memEvent ea :: .record (.wEntry level ((decompose va).idx.get level) base ea (le64 b) (pack d)) ::
        walkTail read va level rest ea path' (n + 1) d := by
  subst hea
  refine ⟨path ++ [⟨level, (decompose va).idx.get level, base,
    entryAddress base ((decompose va).idx.get level), le64 b, d⟩], ?_⟩
  rw [walkFrom, hb]
  cases d <;> simp only [hd, walkTail, PathEntry.record]

/-- A walk asks for at most one answer a level (R170). -/
theorem answerInputs_walkFrom_length (registers : RegSel → Option Word) (va : Word) (levels : List Level) :
    ∀ (base : PA) (path : List PathEntry) (n tag m : Nat),
      (answerInputs read registers tag m (walkFrom read va levels base path n).1).length ≤ levels.length := by
  induction levels with
  | nil => simp [walkFrom, answerInputs]
  | cons level rest ih =>
    intro base path n tag m
    cases hb : read n ((entryAddress base ((decompose va).idx.get level)).setWidth 64) with
    | none =>
      rw [walkFrom_unread rfl hb]
      simp [memEvent, answerInputs]
    | some b =>
      obtain ⟨path', heq⟩ := walkFrom_read (rest := rest) (path := path) rfl hb rfl
      rw [heq]
      cases decodeDescriptor (le64 b) level with
      | table oa p w => simpa [walkTail, memEvent, answerInputs] using ih oa path' (n + 1) (tag + 1) (m + 1)
      | _ => simp [walkTail, memEvent, answerInputs]

end

/-! ### The engine's walk at one level -/

/-- A walk of `va` about to read its entry at `level` of the table at `base` (R32, R170). -/
structure WalksAt (va : Word) (level : Level) (base : PA) (s : State) : Prop where
  op_walk : isEnumeration s.op = false
  va_eq : s.va = va
  idx_eq : s.idx = (decompose va).idx
  off_eq : s.off = (decompose va).off
  level_eq : s.level = level
  base_eq : s.base = base

/-- From `level` on, the engine's walk goes through the events of the big-step walk over `levels`. -/
def WalkRefines (answers : Reader) (registers : RegSel → Option Word) (level : Level) (levels : List Level) : Prop :=
  ∀ (va : Word) (base : PA) (path : List PathEntry) (room n : Nat) (s : State), WalksAt va level base s →
    Completes answers registers room n (walkFrom answers va levels base path n).1 (walkFetch s)

variable {answers : Reader} {registers : RegSel → Option Word}

/-- At level 3 no descriptor is a Table (R152). -/
theorem decodeDescriptor_table_level {raw : Word} {level : Level} {oa : PA} {p : Perm} {w : Bool}
    (h : decodeDescriptor raw level = .table oa p w) : level ≠ .l3 := by
  rintro rfl
  unfold decodeDescriptor at h
  split at h <;> cases h

/-- One level of the walk: what the descriptor asks for after its `W_ENTRY` is what the big-step walk does (R170). -/
theorem walkRefines_cons {level : Level} {rest : List Level}
    (h : level ≠ .l3 → WalkRefines answers registers level.succ rest) :
    WalkRefines answers registers level (level :: rest) := by
  intro va base path room n s hs
  obtain ⟨hop, rfl, hidx, hoff, rfl, rfl⟩ := hs
  generalize hea : entryAddress s.base ((decompose s.va).idx.get s.level) = ea
  have hfetch : walkFetch s = requestMem ea s := by rw [walkFetch, hidx, hea]
  have hop' : ∀ inputs, isEnumeration ((requestMem ea s).withInputs inputs).op = false := fun _ => hop
  rw [hfetch]
  cases hb : answers n (ea.setWidth 64) with
  | none =>
    rw [walkFrom_unread hea hb]
    refine completes_requestMem fun inputs => ?_
    rw [hb, receiveMem_none_walk _ (hop' inputs)]
    exact completes_terminal rfl
  | some b =>
    generalize hd : decodeDescriptor (le64 b) s.level = d
    obtain ⟨path', heq⟩ := walkFrom_read (rest := rest) (path := path) hea hb hd
    rw [heq]
    refine completes_requestMem fun inputs => ?_
    rw [hb, receiveMem_some_walk _ _ (hop' inputs)]
    simp only [withInputs_level, requestMem_level, hd, ← hidx]
    refine completes_offer ?_
    cases d with
    | invalid => exact completes_terminal rfl
    | table oa p w => exact h (decodeDescriptor_table_level hd) _ _ _ _ _ _ ⟨hop, rfl, hidx, hoff, rfl, rfl⟩
    | block oa p => exact completes_terminal rfl
    | page oa p =>
      simp only [walkTail, ← hoff]
      exact completes_terminal rfl

/-- The four levels of a walk. -/
theorem walkRefines_root : WalkRefines answers registers .l0 [.l0, .l1, .l2, .l3] :=
  walkRefines_cons fun _ => walkRefines_cons fun _ => walkRefines_cons fun _ => walkRefines_cons (absurd rfl)

/-- `Walk` from its first read (R170, steps 1 and 2). -/
theorem walkBegin_completes (va : Word) (room : Nat) (s : State) (hop : isEnumeration s.op = false) :
    Completes answers registers room 0 (walk answers va s.t0 s.t1).1 (walkBegin va s) :=
  walkRefines_root va _ _ room 0 _ ⟨hop, rfl, rfl, rfl, rfl, rfl⟩

/-- The two TTBR registers are read, then the address is walked: `A0` of WALKR, the PC's value of WALKPC (R177, R178). -/
theorem walkRegisters_completes (va : Word) (room : Nat) (s : State) (hop : isEnumeration s.op = false)
    (hva : (if s.op = 5#4 then s.a0 else s.va) = va) :
    Completes answers registers room 0 (walkRegisters answers registers va).1 (requestReg .ttbr0El1 s) := by
  cases h0 : registers .ttbr0El1 with
  | none =>
    simp only [walkRegisters, h0]
    refine completes_requestReg rfl fun inputs => ?_
    rw [h0]
    exact completes_terminal rfl
  | some t0 =>
    cases h1 : registers .ttbr1El1 with
    | none =>
      simp only [walkRegisters, h0, h1]
      refine completes_requestReg rfl fun inputs => ?_
      rw [h0]
      refine completes_requestReg rfl fun inputs' => ?_
      rw [h1]
      exact completes_terminal rfl
    | some t1 =>
      simp only [walkRegisters, h0, h1]
      refine completes_requestReg rfl fun inputs => ?_
      rw [h0]
      refine completes_requestReg rfl fun inputs' => ?_
      rw [h1]
      subst hva
      let s0 : State := { requestReg .ttbr0El1 s with inputs := inputs, t0 := t0 }
      exact walkBegin_completes _ _ { requestReg .ttbr1El1 s0 with inputs := inputs', t1 := t1 } hop

/-- The PC is read, then the registers (R178). -/
theorem walkProgramCounter_completes (room : Nat) (s : State) (hop : s.op = 6#4) :
    Completes answers registers room 0 (walkProgramCounter answers registers).1 (requestReg .pc s) := by
  cases hpc : registers .pc with
  | none =>
    simp only [walkProgramCounter, hpc]
    refine completes_requestReg rfl fun inputs => ?_
    rw [hpc]
    exact completes_terminal rfl
  | some va =>
    simp only [walkProgramCounter, hpc]
    refine completes_requestReg rfl fun inputs => ?_
    rw [hpc]
    exact walkRegisters_completes va _ { requestReg _ s with inputs := inputs, va := va } (by simp [hop, isEnumeration])
      (by simp [hop])

/-! ### The walk commands begun -/

theorem latch_extends (p : Packet) (s : State) : Extends s (latch p s) :=
  ⟨rfl, rfl, rfl, rfl, rfl, rfl, le_refl _, [], by simp⟩

theorem walk_begins (x : Operands) (s : State) (hw : s.wait = .idle) :
    Begins answers registers (.walk x) s (walk answers x.a0 x.a1 x.a2).1 := by
  let p : Packet := commandPacket 4#4 0#2 0#10 x
  let s1 : State := { latch p s with t0 := x.a1, t1 := x.a2 }
  refine ⟨walkBegin x.a0 s1, congrArg _ (accept_idle _ _ s hw), ?_, ?_, ?_⟩
  · exact Extends.trans (t := s1) (latch_extends p s) (walkBegin_extends _ s1)
  · exact walkBegin_issues _ s1
  · exact walkBegin_completes _ _ s1 (by simp [s1, p, isEnumeration])

theorem walkr_begins (x : Operands) (s : State) (hw : s.wait = .idle) :
    Begins answers registers (.walkr x) s (walkRegisters answers registers x.a0).1 := by
  let s1 : State := latch (commandPacket 5#4 0#2 0#10 x) s
  refine ⟨requestReg .ttbr0El1 s1, congrArg _ (accept_idle _ _ s hw), ?_, ?_, ?_⟩
  · exact (latch_extends _ s).trans (requestReg_extends _ _)
  · exact requestReg_issues _ _
  · exact walkRegisters_completes _ _ s1 (by simp [s1, isEnumeration]) (by simp [s1])

theorem walkpc_begins (x : Operands) (s : State) (hw : s.wait = .idle) :
    Begins answers registers (.walkpc x) s (walkProgramCounter answers registers).1 := by
  let s1 : State := latch (commandPacket 6#4 0#2 0#10 x) s
  refine ⟨requestReg .pc s1, congrArg _ (accept_idle _ _ s hw), ?_, ?_, ?_⟩
  · exact (latch_extends _ s).trans (requestReg_extends _ _)
  · exact requestReg_issues _ _
  · exact walkProgramCounter_completes _ s1 (by simp [s1])

end Sys2Proof.Machine
end

section
/-!
The enumerations: the big-step loop at one index, the frame stack against the recursion, and ENUM and ENUMT begun.
-/
namespace Sys2Proof

/-! ### Neighbouring levels -/

theorem Level.lt_succ_cases {l level : Level} (hl : level ≠ .l3) (h : l.toNat < level.succ.toNat) :
    l = level ∨ l ≠ level ∧ l.toNat < level.toNat := by
  rw [Level.toNat_succ level hl] at h
  by_cases heq : l = level
  · exact .inl heq
  · exact .inr ⟨heq, lt_of_le_of_ne (Nat.lt_succ_iff.mp h) fun h' => heq (Level.toNat_inj l level h')⟩

theorem Level.pred_succ {level : Level} (hl : level ≠ .l3) : level.succ.pred = level := by
  cases level with
  | l3 => exact absurd rfl hl
  | _ => rfl

end Sys2Proof

namespace Sys2Proof.Machine

/-- A descriptor that is reported and has no table below it: a Block or a Page. -/
def Descriptor.isLeaf : Descriptor → Bool
  | .invalid => false
  | .table _ _ _ => false
  | .block _ _ => true
  | .page _ _ => true

/-- The `E_ENTRY` of an index of a table (R206, R117). -/
def entryRecord (level : Level) (base : PA) (vprefix : Word) (i : Nat) (ea : PA) (raw : Word) (d : Descriptor) : Record :=
  .eEntry level (BitVec.ofNat 9 i) base ea raw (recordedPrefix (childPrefix vprefix (BitVec.ofNat 9 i) level)) (pack d)

/-! ### The big-step loop at one index (R200) -/

section
variable {read : Reader} {sub : PA → Word → Nat → TableRun} {filt : Bool} {cap : Nat} {level : Level} {base ea : PA}
  {vprefix : Word} {i : Nat} {rest : List Nat} {emitted n : Nat} {b : Bytes8} {d : Descriptor}

/-- The cap stops the table before its next index (R204). -/
theorem enumLoop_capped (hc : capReached filt cap emitted = true) :
    enumLoop read sub filt cap level base vprefix (i :: rest) emitted n =
      { events := [], children := [], emitted := emitted, truncated := true, requests := n } := by
  rw [enumLoop, if_pos hc]

/-- The read fails (R203). -/
theorem enumLoop_unread (hc : capReached filt cap emitted = false) (hea : entryAddress base (BitVec.ofNat 9 i) = ea)
    (hb : read n (ea.setWidth 64) = none) :
    let r := enumLoop read sub filt cap level base vprefix rest emitted (n + 1)
    enumLoop read sub filt cap level base vprefix (i :: rest) emitted n =
      { r with
        events := memEvent ea :: .record (.eUnread level (BitVec.ofNat 9 i) base ea) :: r.events
        children := .unread level base (BitVec.ofNat 9 i) ea :: r.children } := by
  subst hea
  simp only [enumLoop, hc, hb, Bool.false_eq_true, ↓reduceIte]

/-- An Invalid descriptor is skipped (R202). -/
theorem enumLoop_invalid (hc : capReached filt cap emitted = false) (hea : entryAddress base (BitVec.ofNat 9 i) = ea)
    (hb : read n (ea.setWidth 64) = some b) (hd : decodeDescriptor (le64 b) level = .invalid) :
    let r := enumLoop read sub filt cap level base vprefix rest emitted (n + 1)
    enumLoop read sub filt cap level base vprefix (i :: rest) emitted n = { r with events := memEvent ea :: r.events } := by
  subst hea
  simp only [enumLoop, hc, hb, hd, Bool.false_eq_true, ↓reduceIte]

/-- A Block or a Page is reported and counted. -/
theorem enumLoop_leaf (hc : capReached filt cap emitted = false) (hea : entryAddress base (BitVec.ofNat 9 i) = ea)
    (hb : read n (ea.setWidth 64) = some b) (hd : decodeDescriptor (le64 b) level = d) (hleaf : d.isLeaf = true) :
    let r := enumLoop read sub filt cap level base vprefix rest (emitted + 1) (n + 1)
    ∃ child, enumLoop read sub filt cap level base vprefix (i :: rest) emitted n =
      { r with
        events := memEvent ea :: .record (entryRecord level base vprefix i ea (le64 b) d) :: r.events
        children := child :: r.children } := by
  subst hea
  refine ⟨.entry level base (BitVec.ofNat 9 i) (entryAddress base (BitVec.ofNat 9 i)) (le64 b)
    (recordedPrefix (childPrefix vprefix (BitVec.ofNat 9 i) level)) d none, ?_⟩
  cases d with
  | invalid => cases hleaf
  | table oa p w => cases hleaf
  | _ => simp only [enumLoop, hc, hb, hd, entryRecord, Bool.false_eq_true, ↓reduceIte]

/-- A Table is reported and counted, and its table enumerated at once (R205). -/
theorem enumLoop_table {oa : PA} {p : Perm} {w : Bool} (hc : capReached filt cap emitted = false)
    (hea : entryAddress base (BitVec.ofNat 9 i) = ea) (hb : read n (ea.setWidth 64) = some b)
    (hd : decodeDescriptor (le64 b) level = .table oa p w) :
    let t := sub oa (childPrefix vprefix (BitVec.ofNat 9 i) level) (n + 1)
    let r := enumLoop read sub filt cap level base vprefix rest (emitted + 1) t.requests
    ∃ child, enumLoop read sub filt cap level base vprefix (i :: rest) emitted n =
      { r with
        events := memEvent ea :: .record (entryRecord level base vprefix i ea (le64 b) (.table oa p w)) ::
          (t.events ++ r.events)
        children := child :: r.children } := by
  subst hea
  refine ⟨.entry level base (BitVec.ofNat 9 i) (entryAddress base (BitVec.ofNat 9 i)) (le64 b)
    (recordedPrefix (childPrefix vprefix (BitVec.ofNat 9 i) level)) (.table oa p w)
    (some (sub oa (childPrefix vprefix (BitVec.ofNat 9 i) level) (n + 1)).node), ?_⟩
  simp only [enumLoop, hc, hb, hd, entryRecord, Bool.false_eq_true, ↓reduceIte]

end

/-! ### The indices of a table's loop (R201) -/

/-- The list is what the loop visits from index `i` on. -/
def Visits (filt : Bool) : List Nat → Nat → Prop
  | [], i => 512 ≤ i
  | j :: rest, i => j = i ∧ i < 512 ∧ Visits filt rest (nextIndex filt i)

theorem visits_range' (k i : Nat) (h : i + k = 512) : Visits false (List.range' i k) i := by
  induction k generalizing i with
  | zero => exact h.ge
  | succ k ih => exact ⟨rfl, by omega, ih (i + 1) (by omega)⟩

theorem visits_tableIndices (filter : Option Word) (target : Word) (level : Level) (h : ∀ v, filter = some v → target = v) :
    Visits filter.isSome (tableIndices filter level) (firstIndex filter.isSome target level) := by
  cases filter with
  | none =>
    rw [tableIndices, List.range_eq_range']
    exact visits_range' 512 0 rfl
  | some v =>
    rw [h v rfl]
    exact ⟨rfl, (indexAt v level).isLt, le_refl 512⟩

/-! ### The frame stack of an enumeration (R33) -/

/-- What an enumeration is asked for, beside its root: the level it starts at, the filter, and the cap. -/
structure EnumCall where
  start : Level
  filter : Option Word
  cap : Nat

/-- The enumeration `c` runs, and below `level` the frames are those of `stack`. -/
structure Enumerates (c : EnumCall) (stack : Level → Frame) (level : Level) (s : State) : Prop where
  op_enum : isEnumeration s.op = true
  start_eq : s.start = c.start
  filt_eq : s.filt = c.filter.isSome
  target_eq : ∀ v, c.filter = some v → s.target = v
  cap_eq : s.cap.toNat = c.cap
  below : ∀ l : Level, l.toNat < level.toNat → s.frames.get l = stack l

/-- The innermost table of the enumeration `c` is at `level` and has the frame `f`. -/
structure InTable (c : EnumCall) (stack : Level → Frame) (level : Level) (f : Frame) (s : State) : Prop
    extends Enumerates c stack level s where
  top_eq : s.top = level
  frame_eq : s.frames.get level = f

section
variable {c : EnumCall} {stack : Level → Frame} {level : Level} {f g : Frame} {s t : State}

theorem InTable.topFrame_eq (h : InTable c stack level f s) : topFrame s = f := by
  rw [topFrame, h.top_eq, h.frame_eq]

theorem InTable.topIndex_eq (h : InTable c stack level f s) : topIndex s = BitVec.ofNat 9 f.index := by
  rw [topIndex, h.topFrame_eq]

theorem InTable.topChildPrefix_eq (h : InTable c stack level f s) :
    topChildPrefix s = childPrefix f.vprefix (BitVec.ofNat 9 f.index) level := by
  rw [topChildPrefix, h.topFrame_eq, h.topIndex_eq, h.top_eq]

theorem InTable.capReached_eq (h : InTable c stack level f s) :
    capReached s.filt s.cap.toNat (topFrame s).emitted = capReached c.filter.isSome c.cap f.emitted := by
  rw [h.filt_eq, h.cap_eq, h.topFrame_eq]

/-- What leaves the registers of the enumeration alone leaves it in its table. -/
theorem InTable.transfer (h : InTable c stack level f s) (hop : t.op = s.op) (hstart : t.start = s.start)
    (hfilt : t.filt = s.filt) (htarget : t.target = s.target) (hcap : t.cap = s.cap) (hframes : t.frames = s.frames)
    (htop : t.top = s.top) : InTable c stack level f t where
  op_enum := hop ▸ h.op_enum
  start_eq := hstart ▸ h.start_eq
  filt_eq := hfilt ▸ h.filt_eq
  target_eq := htarget ▸ h.target_eq
  cap_eq := hcap ▸ h.cap_eq
  below := hframes ▸ h.below
  top_eq := htop ▸ h.top_eq
  frame_eq := hframes ▸ h.frame_eq

/-- A table opened at `level` leaves the frames below alone. -/
theorem Enumerates.opened (h : Enumerates c stack level s) (f : Frame) :
    InTable c stack level f { s with frames := s.frames.set level f, top := level } where
  op_enum := h.op_enum
  start_eq := h.start_eq
  filt_eq := h.filt_eq
  target_eq := h.target_eq
  cap_eq := h.cap_eq
  below l hl := (Frames.get_set_other _ level l f (by rintro rfl; omega)).trans (h.below l hl)
  top_eq := rfl
  frame_eq := Frames.get_set_same _ _ _

/-- `EnumTable` begins at the first index of its level (R200, R201). -/
theorem Enumerates.openTable_eq (h : Enumerates c stack level s) (base : PA) (vprefix : Word) :
    openTable base vprefix level s =
      enumVisit { s with
        frames := s.frames.set level ⟨base, vprefix, firstIndex c.filter.isSome s.target level, 0, false⟩
        top := level } := by
  rw [← h.filt_eq]
  rfl

theorem InTable.setTopFrame (h : InTable c stack level f s) (g : Frame) : InTable c stack level g (setTopFrame g s) := by
  have heq : Machine.setTopFrame g s = { s with frames := s.frames.set level g, top := level } := by
    rw [← h.top_eq]
    rfl
  rw [heq]
  exact h.toEnumerates.opened g

/-- Seen from the level below, the innermost table is part of the stack. -/
theorem InTable.asParent (h : InTable c stack level f s) (hl : level ≠ .l3) :
    Enumerates c (Function.update stack level f) level.succ s where
  __ := h.toEnumerates
  below l hlt := by
    rcases Level.lt_succ_cases hl hlt with rfl | ⟨hne, hlt⟩
    · rw [Function.update_self, h.frame_eq]
    · rw [Function.update_of_ne hne, h.below l hlt]

/-- A table below closed, the enumeration is back in the table above it. -/
theorem InTable.returned (h : InTable c (Function.update stack level f) level.succ g s) (hl : level ≠ .l3) :
    InTable c stack level f { s with top := s.top.pred } where
  op_enum := h.op_enum
  start_eq := h.start_eq
  filt_eq := h.filt_eq
  target_eq := h.target_eq
  cap_eq := h.cap_eq
  below l hlt := by
    rw [h.below l (by rw [Level.toNat_succ level hl]; omega), Function.update_of_ne (by rintro rfl; omega)]
  top_eq := by rw [h.top_eq, Level.pred_succ hl]
  frame_eq := by rw [h.below level (by rw [Level.toNat_succ level hl]; omega), Function.update_self]

/-- The loop head, with an index left and the cap not reached, reads the entry of its index. -/
theorem InTable.enumVisit_reads (h : InTable c stack level f s) (hi : f.index < 512)
    (hc : capReached c.filter.isSome c.cap f.emitted = false) :
    enumVisit s = requestMem (entryAddress f.base (BitVec.ofNat 9 f.index)) s := by
  rw [Machine.enumVisit_reads s (by rwa [h.topFrame_eq]) (by rwa [h.capReached_eq]), h.topFrame_eq, h.topIndex_eq]

theorem InTable.closeTable_eq (h : InTable c stack level f s) :
    closeTable s = offer (.eTableEnd level f.base (BitVec.ofNat 10 f.emitted) f.truncated) s := by
  rw [closeTable, h.topFrame_eq, h.top_eq]

/-- The loop goes on at its next index. -/
theorem InTable.enumAdvance_eq (h : InTable c stack level f s) :
    enumAdvance s = enumVisit (Machine.setTopFrame { f with index := nextIndex c.filter.isSome f.index } s) := by
  rw [enumAdvance, h.topFrame_eq, h.filt_eq]

theorem InTable.enumUnreadable_eq (h : InTable c stack level f s) :
    enumUnreadable s = offer (.eUnread level (BitVec.ofNat 9 f.index) f.base s.ea) s := by
  rw [enumUnreadable, h.topFrame_eq, h.topIndex_eq, h.top_eq]

/-- A descriptor that is not Invalid is reported. -/
theorem InTable.enumReceive_eq (h : InTable c stack level f s) (raw : Word) (d : Descriptor) (hd : d ≠ .invalid) :
    enumReceive raw d s =
      offer (entryRecord level f.base f.vprefix f.index s.ea raw d) { s with raw := raw, desc := d } := by
  have hrec : Record.eEntry s.top (topIndex s) (topFrame s).base s.ea raw (recordedPrefix (topChildPrefix s)) (pack d) =
      entryRecord level f.base f.vprefix f.index s.ea raw d := by
    rw [h.topFrame_eq, h.topIndex_eq, h.topChildPrefix_eq, h.top_eq]
    rfl
  rw [← hrec]
  cases d with
  | invalid => exact absurd rfl hd
  | _ => rfl

theorem InTable.afterEEntry_leaf (h : InTable c stack level f s) (hd : s.desc.isLeaf = true) :
    afterEEntry s = enumAdvance (Machine.setTopFrame { f with emitted := f.emitted + 1 } s) := by
  rw [afterEEntry, h.topFrame_eq]
  cases hdesc : s.desc with
  | block oa p | page oa p => rfl
  | invalid | table oa p w => simp [hdesc, Descriptor.isLeaf] at hd

theorem InTable.afterEEntry_table {oa : PA} {p : Perm} {w : Bool} (h : InTable c stack level f s)
    (hd : s.desc = .table oa p w) :
    afterEEntry s = openTable oa (childPrefix f.vprefix (BitVec.ofNat 9 f.index) level) level.succ
      (Machine.setTopFrame { f with emitted := f.emitted + 1 } s) := by
  rw [afterEEntry, h.topFrame_eq, h.topChildPrefix_eq, h.top_eq, hd]

end

/-! ### The loop and the recursion -/

section
variable {answers : Reader} {registers : RegSel → Option Word} {c : EnumCall} {stack : Level → Frame} {level : Level}

/-- How many records can come in a row once a table at `level` is about to close: the ends of the open tables, and
`R_ENUM_DONE`. -/
def closingRoom (c : EnumCall) (level : Level) : Nat := level.toNat - c.start.toNat + 2

theorem closingRoom_le (c : EnumCall) (level : Level) : closingRoom c level ≤ 5 := by
  have := Level.toNat_le level
  unfold closingRoom
  omega

theorem closingRoom_succ {c : EnumCall} {level : Level} (hl : level ≠ .l3) (hle : c.start.toNat ≤ level.toNat) :
    closingRoom c level.succ - 1 = closingRoom c level := by
  rw [closingRoom, closingRoom, Level.toNat_succ level hl]
  omega

/-- A table opened at `level` goes through the events of `table`, and on to whatever follows its `E_TABLE_END`. -/
def TableRefines (answers : Reader) (registers : RegSel → Option Word) (c : EnumCall) (level : Level)
    (table : PA → Word → Nat → TableRun) : Prop :=
  ∀ (stack : Level → Frame) (base : PA) (vprefix : Word) (n : Nat) (es : List Event) (s : State),
    Enumerates c stack level s →
    (∀ f t, InTable c stack level f t →
      Completes answers registers (closingRoom c level - 1) (table base vprefix n).requests es (afterTableEnd t)) →
    Completes answers registers (closingRoom c level) n ((table base vprefix n).events ++ es)
      (openTable base vprefix level s)

/-- A table below closed, the loop above it goes on. -/
theorem afterTableEnd_returns {f g : Frame} {s : State} (h : InTable c (Function.update stack level f) level.succ g s)
    (hl : level ≠ .l3) (hle : c.start.toNat ≤ level.toNat) :
    afterTableEnd s = enumAdvance { s with top := s.top.pred } := by
  have hne : s.top ≠ s.start := by
    rw [h.top_eq, h.start_eq]
    intro heq
    have := Level.toNat_succ level hl
    rw [heq] at this
    omega
  rw [afterTableEnd, if_neg hne]

/-! What follows an answer while the innermost table has the frame `f`: the loop goes on, or the table below opens. -/

section
variable {f : Frame} {s : State} {n : Nat} {es : List Event} {b : Bytes8} {d : Descriptor}

theorem completes_entry_unread (hs : InTable c stack level f s)
    (h : ∀ t, InTable c stack level f t → Completes answers registers 5 n es (enumAdvance t)) :
    Completes answers registers 6 n (.record (.eUnread level (BitVec.ofNat 9 f.index) f.base s.ea) :: es)
      (receiveMem none s) := by
  rw [receiveMem_none_enum s hs.op_enum, hs.enumUnreadable_eq]
  exact completes_offer (h (logRecord _ (offer _ s)) (hs.transfer rfl rfl rfl rfl rfl rfl rfl))

theorem completes_entry_invalid (hs : InTable c stack level f s) (hd : decodeDescriptor (le64 b) level = .invalid)
    (h : ∀ t, InTable c stack level f t → Completes answers registers 5 n es (enumAdvance t)) :
    Completes answers registers 6 n es (receiveMem (some b) s) := by
  rw [receiveMem_some_enum b s hs.op_enum, hs.top_eq, hd]
  exact (h { s with raw := le64 b, desc := .invalid } (hs.transfer rfl rfl rfl rfl rfl rfl rfl)).mono (by decide)

/-- Whatever descriptor is reported, the entry is taken with its descriptor in `D`. -/
theorem completes_entry_reported (hs : InTable c stack level f s) (hd : decodeDescriptor (le64 b) level = d)
    (hv : d ≠ .invalid)
    (h : ∀ t, InTable c stack level f t → t.desc = d → Completes answers registers 5 n es (afterEEntry t)) :
    Completes answers registers 6 n
      (.record (entryRecord level f.base f.vprefix f.index s.ea (le64 b) d) :: es) (receiveMem (some b) s) := by
  rw [receiveMem_some_enum b s hs.op_enum, hs.top_eq, hd, hs.enumReceive_eq _ d hv]
  exact completes_offer
    (h (logRecord _ (offer _ { s with raw := le64 b, desc := d })) (hs.transfer rfl rfl rfl rfl rfl rfl rfl) rfl)

theorem completes_entry_leaf (hs : InTable c stack level f s) (hd : decodeDescriptor (le64 b) level = d)
    (hleaf : d.isLeaf = true)
    (h : ∀ t, InTable c stack level { f with emitted := f.emitted + 1 } t →
      Completes answers registers 5 n es (enumAdvance t)) :
    Completes answers registers 6 n
      (.record (entryRecord level f.base f.vprefix f.index s.ea (le64 b) d) :: es) (receiveMem (some b) s) := by
  refine completes_entry_reported hs hd (by rintro rfl; cases hleaf) fun t ht hdesc => ?_
  rw [ht.afterEEntry_leaf (hdesc ▸ hleaf)]
  exact h _ (ht.setTopFrame _)

theorem completes_entry_table {oa : PA} {p : Perm} {w : Bool} (hs : InTable c stack level f s)
    (hd : decodeDescriptor (le64 b) level = .table oa p w)
    (h : ∀ t, InTable c stack level { f with emitted := f.emitted + 1 } t →
      Completes answers registers 5 n es
        (openTable oa (childPrefix f.vprefix (BitVec.ofNat 9 f.index) level) level.succ t)) :
    Completes answers registers 6 n
      (.record (entryRecord level f.base f.vprefix f.index s.ea (le64 b) (.table oa p w)) :: es)
      (receiveMem (some b) s) := by
  refine completes_entry_reported hs hd (by simp) fun t ht hdesc => ?_
  rw [ht.afterEEntry_table hdesc]
  exact h _ (ht.setTopFrame _)

end

/-- Once the loop has run as `r` says, closing the table leads on through the events `es`. -/
def ClosesWith (answers : Reader) (registers : RegSel → Option Word) (c : EnumCall) (stack : Level → Frame) (level : Level)
    (base : PA) (vprefix : Word) (es : List Event) (r : LoopRun) : Prop :=
  ∀ i t, InTable c stack level ⟨base, vprefix, i, r.emitted, r.truncated⟩ t →
    Completes answers registers (closingRoom c level) r.requests es (closeTable t)

/-- The loop over a table's indices (R200, R201): from its head with `f` in the frame, through the events of the big-step loop, to
the table's close. -/
theorem enumVisit_completes {sub : PA → Word → Nat → TableRun} (hle : c.start.toNat ≤ level.toNat)
    (hsub : level ≠ .l3 → TableRefines answers registers c level.succ sub) (base : PA) (vprefix : Word) (es : List Event)
    (indices : List Nat) :
    ∀ (i emitted n : Nat) (s : State),
      let r := enumLoop answers sub c.filter.isSome c.cap level base vprefix indices emitted n
      Visits c.filter.isSome indices i → InTable c stack level ⟨base, vprefix, i, emitted, false⟩ s →
      ClosesWith answers registers c stack level base vprefix es r →
      Completes answers registers (closingRoom c level) n (r.events ++ es) (enumVisit s) := by
  induction indices with
  | nil =>
    intro i emitted n s r hv hs hclose
    rw [enumVisit_exhausted s (by rw [hs.topFrame_eq]; exact hv)]
    exact hclose i s hs
  | cons j rest ih =>
    intro i emitted n s r hv hs hclose
    obtain ⟨rfl, hj, hrest⟩ := hv
    cases hc : capReached c.filter.isSome c.cap emitted with
    | true =>
      have hr : r = _ := enumLoop_capped hc
      rw [hr] at hclose ⊢
      rw [enumVisit_capped s (by rwa [hs.topFrame_eq]) (by rwa [hs.capReached_eq]), hs.topFrame_eq]
      exact hclose j _ (hs.setTopFrame _)
    | false =>
      have hadvance : ∀ emitted' n' t, InTable c stack level ⟨base, vprefix, j, emitted', false⟩ t →
          let r' := enumLoop answers sub c.filter.isSome c.cap level base vprefix rest emitted' n'
          ClosesWith answers registers c stack level base vprefix es r' →
          Completes answers registers (closingRoom c level) n' (r'.events ++ es) (enumAdvance t) := by
        intro emitted' n' t ht r' hclose'
        rw [ht.enumAdvance_eq]
        exact ih _ emitted' n' _ hrest (ht.setTopFrame _) hclose'
      generalize hea : entryAddress base (BitVec.ofNat 9 j) = ea
      have hreq : ∀ inputs,
          InTable c stack level ⟨base, vprefix, j, emitted, false⟩ ((requestMem ea s).withInputs inputs) :=
        fun _ => hs.transfer rfl rfl rfl rfl rfl rfl rfl
      rw [hs.enumVisit_reads hj hc, hea]
      cases hb : answers n (ea.setWidth 64) with
      | none =>
        have hr : r = _ := enumLoop_unread hc hea hb
        rw [hr] at hclose ⊢
        refine completes_requestMem fun inputs => ?_
        rw [hb]
        exact completes_entry_unread (hreq inputs) fun t ht =>
          (hadvance _ _ t ht hclose).mono (closingRoom_le c level)
      | some b =>
        cases hd : decodeDescriptor (le64 b) level with
        | invalid =>
          have hr : r = _ := enumLoop_invalid hc hea hb hd
          rw [hr] at hclose ⊢
          refine completes_requestMem fun inputs => ?_
          rw [hb]
          exact completes_entry_invalid (hreq inputs) hd fun t ht =>
            (hadvance _ _ t ht hclose).mono (closingRoom_le c level)
        | table oa p w =>
          have hl := decodeDescriptor_table_level hd
          obtain ⟨child, hr⟩ : ∃ child, r = _ := enumLoop_table hc hea hb hd
          rw [hr] at hclose ⊢
          refine completes_requestMem fun inputs => ?_
          rw [hb]
          simp only [List.append_eq, List.cons_append, List.append_assoc]
          refine completes_entry_table (hreq inputs) hd fun t ht => ?_
          refine (hsub hl _ _ _ _ _ t (ht.asParent hl) fun g u hu => ?_).mono (closingRoom_le c level.succ)
          rw [afterTableEnd_returns hu hl hle, closingRoom_succ hl hle]
          exact hadvance _ _ _ (hu.returned hl) hclose
        | block oa p | page oa p =>
          obtain ⟨child, hr⟩ : ∃ child, r = _ := enumLoop_leaf hc hea hb hd rfl
          rw [hr] at hclose ⊢
          refine completes_requestMem fun inputs => ?_
          rw [hb]
          exact completes_entry_leaf (hreq inputs) hd rfl fun t ht =>
            (hadvance _ _ t ht hclose).mono (closingRoom_le c level)
/-- `EnumTable` (R200) with the tables below it: its loop, its `E_TABLE_END`, and what follows that. -/
theorem tableRefines_succ {left : Nat} (hle : c.start.toNat ≤ level.toNat)
    (hsub : level ≠ .l3 →
      TableRefines answers registers c level.succ (enumTable answers c.filter c.cap left level.succ)) :
    TableRefines answers registers c level (enumTable answers c.filter c.cap (left + 1) level) := by
  intro stack base vprefix n es s hs hend
  rw [enumTable, List.append_assoc, hs.openTable_eq]
  refine enumVisit_completes hle hsub base vprefix _ _ _ 0 n _ (visits_tableIndices _ s.target _ hs.target_eq)
    (hs.opened _) fun i t ht => ?_
  rw [ht.closeTable_eq]
  exact completes_offer (hend _ (logRecord _ (offer _ t)) (ht.transfer rfl rfl rfl rfl rfl rfl rfl))

/-- `EnumTable` at every level from `START` down. -/
theorem tableRefines_enumTable (left : Nat) : ∀ level : Level, level.toNat + left = 4 → c.start.toNat ≤ level.toNat →
    TableRefines answers registers c level (enumTable answers c.filter c.cap left level) := by
  induction left with
  | zero =>
    intro level hleft
    have := Level.toNat_le level
    omega
  | succ left ih =>
    intro level hleft hle
    refine tableRefines_succ hle fun hl => ?_
    have := Level.toNat_succ level hl
    exact ih level.succ (by omega) (by omega)

/-- The root's `E_TABLE_END` ends the enumeration. -/
theorem afterTableEnd_root {f : Frame} {s : State} (h : InTable c stack c.start f s) :
    afterTableEnd s = offer .rEnumDone s := by
  rw [afterTableEnd, if_pos (h.top_eq.trans h.start_eq.symm)]

/-- `Enumerate` (R200), from an engine that holds its operands. -/
theorem enumBegin_completes (base vprefix : Word) (s : State) (hs : Enumerates c stack c.start { s with start := c.start }) :
    Completes answers registers 6 0 (enumerate answers base vprefix c.start c.filter c.cap).events
      (enumBegin base vprefix c.start s) := by
  have hroot := tableRefines_enumTable (answers := answers) (registers := registers) (c := c) (4 - c.start.toNat) c.start
    (by have := Level.toNat_le c.start; omega) (le_refl _)
  refine (hroot stack _ vprefix 0 [.record .rEnumDone] _ hs fun f t ht => ?_).mono
    ((closingRoom_le c c.start).trans (by decide))
  rw [afterTableEnd_root ht]
  exact completes_terminal rfl

end

/-! ### The enumeration commands begun -/

section
variable {answers : Reader} {registers : RegSel → Option Word}

theorem enumBegin_extends (base vprefix : Word) (level : Level) (s : State) : Extends s (enumBegin base vprefix level s) :=
  openTable_extends _ _ _ { s with start := level }

theorem enumBegin_issues (base vprefix : Word) (level : Level) (s : State) :
    (enumBegin base vprefix level s).IssuedFrom s.txn s.trace :=
  enumVisit_issues { s with start := level, frames := _, top := level }

theorem enum_begins (level : Level) (cap : BitVec 10) (x : Operands) (s : State) (hw : s.wait = .idle) :
    Begins answers registers (.enum level cap x) s (enumerate answers x.a0 x.a1 level none cap.toNat).events := by
  let p : Packet := commandPacket 7#4 level.bits cap x
  let s1 : State := { latch p s with filt := false }
  let c : EnumCall := { start := level, filter := none, cap := cap.toNat }
  refine ⟨enumBegin x.a0 x.a1 level s1, congrArg _ (accept_idle _ _ s hw), ?_, ?_, ?_⟩
  · exact Extends.trans (t := s1) (latch_extends p s) (enumBegin_extends _ _ _ s1)
  · exact enumBegin_issues _ _ _ s1
  · exact enumBegin_completes (c := c) (stack := s.frames.get) x.a0 x.a1 s1
      ⟨by simp [s1, p, isEnumeration], rfl, rfl, by simp [c], by simp [s1, p, c], fun l _ => rfl⟩

theorem enumt_begins (level : Level) (cap : BitVec 10) (x : Operands) (s : State) (hw : s.wait = .idle) :
    Begins answers registers (.enumt level cap x) s (enumerate answers x.a0 x.a1 level (some x.a2) cap.toNat).events := by
  let p : Packet := commandPacket 8#4 level.bits cap x
  let s1 : State := { latch p s with filt := true, target := x.a2 }
  let c : EnumCall := { start := level, filter := some x.a2, cap := cap.toNat }
  refine ⟨enumBegin x.a0 x.a1 level s1, congrArg _ (accept_idle _ _ s hw), ?_, ?_, ?_⟩
  · exact Extends.trans (t := s1) (latch_extends p s) (enumBegin_extends _ _ _ s1)
  · exact enumBegin_issues _ _ _ s1
  · exact enumBegin_completes (c := c) (stack := s.frames.get) x.a0 x.a1 s1
      ⟨by simp [s1, p, isEnumeration], rfl, rfl, by simp [s1, c], by simp [s1, p, c], fun l _ => rfl⟩

end
end Sys2Proof.Machine
end

section
/-!
The four statements on how operations run, from their commands begun.
-/
namespace Sys2Proof.Machine

/-! ### The sink stalls (R287) -/

section
variable {r : Record} {s : State}

/-- A record offered to a sink that does not take stays pending. -/
theorem accept_offer_stalled (p : Packet) (r : Record) (s : State) (hw : s.wait = .idle) (hr : s.sinkReady = false) :
    accept p (offer r) s = offer r (latch p s) := by
  rw [accept_idle p _ s hw]
  exact settle_of_stalled _ hr

/-- The sink takes the terminal record that is pending, and the operation is over (R116, R261). -/
theorem sinkTake_terminal (hw : s.wait = .rpt r) (ht : r.terminal = true) :
    absorb .sinkTake s = .next (finish (logRecord r s)) := by
  simp only [absorb, hw, takeRecord, afterRecord_terminal r _ ht]
  rw [settle_of_not_pending _ (by simp)]

/-- A command that does no more than offer its terminal record waits for the sink. -/
theorem offered_waits {i : Instr} {p : Packet} (hexec : exec i s = .next (accept p (offer r) s)) (ht : r.terminal = true)
    (hw : s.wait = .idle) (hr : s.sinkReady = false) :
    ∃ t : State,
      exec i s = .next t ∧ t.withoutRegisters = State.withoutRegisters { s with wait := .rpt r } ∧ t.status = .busy ∧
      ∃ u : State, absorb .sinkTake t = .next u ∧ u.status = .idle ∧
        u.withoutRegisters = State.withoutRegisters { t with wait := .idle, trace := t.trace ++ [.record r] } := by
  rw [accept_offer_stalled p r s hw hr] at hexec
  exact ⟨_, hexec, rfl, rfl, _, sinkTake_terminal rfl ht, rfl, rfl⟩

end

/-- Settles O24: each pure command only offers its terminal record. -/
theorem pureCommandsWaitForTheSink : Obligations.PureCommandsWaitForTheSink := by
  unfold Obligations.PureCommandsWaitForTheSink
  rintro level x s hw hr i r (⟨rfl, rfl⟩ | ⟨rfl, rfl⟩ | ⟨rfl, rfl⟩ | ⟨rfl, rfl⟩) <;>
    exact offered_waits rfl rfl hw hr

/-! ### The reader answers at once -/

/-- A live reader that no input precedes answers every request from the inspected system. -/
theorem State.responsive.supplied {s : State} (h : s.responsive) (tag n : Nat) (es : List Event) :
    Supplied (fun _ => s.mem.read8) s.regs.get [] tag n es s := by
  obtain ⟨hin, hlive, -⟩ := h
  exact .inr ⟨hin, rfl, hlive, rfl, rfl⟩

/-- An instruction begun with a live reader runs, in one step an answer, to the end of its events. -/
theorem Begins.run_responsive {i : Instr} {s : State} {es : List Event}
    (h : Begins (fun _ => s.mem.read8) s.regs.get i s es) (hw : s.wait = .idle) (hr : s.responsive) :
    ∃ t, exec i s = .next t ∧
      ∃ u : State, Sys2Proof.core.run (answerInputs (fun _ => s.mem.read8) s.regs.get s.txn 0 es).length t = .next u ∧
        u.wait = .idle ∧ u.withoutRegisters = State.withoutRegisters { s with txn := u.txn, trace := s.trace ++ es } := by
  obtain ⟨hin, -, hsink⟩ := id hr
  obtain ⟨t, hexec, u, hrun, hidle, hout⟩ := h.run hw hsink (hr.supplied s.txn 0 es)
  refine ⟨t, hexec, u, hrun, hidle, ?_⟩
  have htxn : u.txn = s.txn + _ := congrArg State.txn hout
  rw [hout, htxn, hin]

/-- The number of answers a walk command asks for: those of its walk, and those of its registers (R176 to R178). -/
theorem answerInputs_walk_length (answers : Reader) (registers : RegSel → Option Word) (va t0 t1 : Word) (tag n : Nat) :
    (answerInputs answers registers tag n (walk answers va t0 t1).1).length ≤ 4 :=
  answerInputs_walkFrom_length registers va [.l0, .l1, .l2, .l3] _ _ _ _ _

theorem answerInputs_walkRegisters_length (answers : Reader) (registers : RegSel → Option Word) (va : Word) (tag n : Nat) :
    (answerInputs answers registers tag n (walkRegisters answers registers va).1).length ≤ 6 := by
  unfold walkRegisters
  split
  · simp [answerInputs]
  · split
    · simp [answerInputs]
    · exact Nat.add_le_add_right (answerInputs_walk_length answers registers va _ _ (tag + 1 + 1) n) 2

theorem answerInputs_walkProgramCounter_length (answers : Reader) (registers : RegSel → Option Word) (tag n : Nat) :
    (answerInputs answers registers tag n (walkProgramCounter answers registers).1).length ≤ 7 := by
  unfold walkProgramCounter
  split
  · simp [answerInputs]
  · exact Nat.succ_le_succ (answerInputs_walkRegisters_length answers registers _ (tag + 1) n)

/-- Settles O51: one step an answer, and the answers counted. -/
theorem walksRefineTheBigStep : Obligations.WalksRefineTheBigStep := by
  unfold Obligations.WalksRefineTheBigStep
  intro x s hw hr i events bound hi
  obtain ⟨hbegins, hbound⟩ : Begins (fun _ => s.mem.read8) s.regs.get i s events ∧
      (answerInputs (fun _ => s.mem.read8) s.regs.get s.txn 0 events).length ≤ bound := by
    rcases hi with ⟨rfl, rfl, rfl⟩ | ⟨rfl, rfl, rfl⟩ | ⟨rfl, rfl, rfl⟩
    · exact ⟨walk_begins x s hw, answerInputs_walk_length _ _ _ _ _ _ _⟩
    · exact ⟨walkr_begins x s hw, answerInputs_walkRegisters_length _ _ _ _ _⟩
    · exact ⟨walkpc_begins x s hw, answerInputs_walkProgramCounter_length _ _ _ _⟩
  obtain ⟨t, hexec, hrun⟩ := hbegins.run_responsive hw hr
  exact ⟨t, hexec, _, hbound, hrun⟩

/-- Settles O52: the frame stack follows the recursion, one step an answer. -/
theorem enumerationsRefineTheBigStep : Obligations.EnumerationsRefineTheBigStep := by
  unfold Obligations.EnumerationsRefineTheBigStep
  intro level cap x s hw hr i events hi
  have hbegins : Begins (fun _ => s.mem.read8) s.regs.get i s events := by
    rcases hi with ⟨rfl, rfl⟩ | ⟨rfl, rfl⟩
    · exact enum_begins level cap x s hw
    · exact enumt_begins level cap x s hw
  obtain ⟨t, hexec, hrun⟩ := hbegins.run_responsive hw hr
  exact ⟨t, hexec, _, hrun⟩

/-! ### The requests are answered by inputs -/

/-- Settles O53: every operation completes whatever its oracles answer, and the inputs supply the answers. -/
theorem operationsFollowTheirAnswers : Obligations.OperationsFollowTheirAnswers := by
  unfold Obligations.OperationsFollowTheirAnswers
  intro answers registers level cap x more s hw hr i events hi due hin
  have hbegins : Begins answers registers i s events := by
    rcases hi with ⟨rfl, rfl⟩ | ⟨rfl, rfl⟩ | ⟨rfl, rfl⟩ | ⟨rfl, rfl⟩ | ⟨rfl, rfl⟩
    · exact walk_begins x s hw
    · exact walkr_begins x s hw
    · exact walkpc_begins x s hw
    · exact enum_begins level cap x s hw
    · exact enumt_begins level cap x s hw
  exact hbegins.run hw hr (.inl hin)

end Sys2Proof.Machine
end

section
/-!
The descriptor decoder: which descriptors a word can decode to at each level (R25, R152, R153), and which of its bits it reads (R97).
-/
namespace Sys2Proof.Machine

/-! ### Alignment by masks -/

/-- A mask whose low `n` bits are clear aligns a physical address to `2^n`. -/
theorem extractLsb'_setWidth_and_eq_zero (raw mask : Word) (n : Nat) (hn : n ≤ 48) (hmask : mask.extractLsb' 0 n = 0#n) :
    ((raw &&& mask).setWidth 48 : PA).extractLsb' 0 n = 0#n := by
  ext i hi
  have hbit : mask.getLsbD i = false := by
    have h := congrArg (fun b : BitVec n => b.getLsbD i) hmask
    simpa [hi] using h
  have h48 : i < 48 := by omega
  simp [BitVec.getElem_extractLsb', h48, hbit]

theorem pageAligned_and_tpMask (v : Word) : pageAligned ((v &&& Config.tpMask).setWidth 48) = true :=
  beq_iff_eq.mpr (extractLsb'_setWidth_and_eq_zero v Config.tpMask 12 (by decide) (by decide))

theorem pageAligned_tableOrPageAddress (raw : Word) : pageAligned (tableOrPageAddress raw) = true :=
  pageAligned_and_tpMask raw

theorem block1Address_aligned (raw : Word) : (block1Address raw).extractLsb' 0 30 = 0#30 :=
  extractLsb'_setWidth_and_eq_zero raw _ 30 (by decide) (by decide)

theorem block2Address_aligned (raw : Word) : (block2Address raw).extractLsb' 0 21 = 0#21 :=
  extractLsb'_setWidth_and_eq_zero raw _ 21 (by decide) (by decide)

/-! ### The descriptors of a level -/

theorem decodeDescriptor_of_not_valid {raw : Word} (level : Level) (hv : validBit raw = false) :
    decodeDescriptor raw level = .invalid := by
  simp [decodeDescriptor, hv]

/-- A valid word at level 0 (R152, R155). -/
theorem decodeDescriptor_l0 {raw : Word} (hv : validBit raw = true) :
    decodeDescriptor raw .l0 = .table (tableOrPageAddress raw) (permOf raw) (!typeBit raw) := by
  simp [decodeDescriptor, kindOf, l0TypeWarn, hv]

/-- A valid word at level 1 (R152, R153). -/
theorem decodeDescriptor_l1 {raw : Word} (hv : validBit raw = true) :
    decodeDescriptor raw .l1 =
      if typeBit raw then .table (tableOrPageAddress raw) (permOf raw) false
      else .block (block1Address raw) (permOf raw) := by
  cases ht : typeBit raw <;> simp [decodeDescriptor, kindOf, l0TypeWarn, blockOutputAddress, hv, ht]

/-- A valid word at level 2 (R152, R153). -/
theorem decodeDescriptor_l2 {raw : Word} (hv : validBit raw = true) :
    decodeDescriptor raw .l2 =
      if typeBit raw then .table (tableOrPageAddress raw) (permOf raw) false
      else .block (block2Address raw) (permOf raw) := by
  cases ht : typeBit raw <;> simp [decodeDescriptor, kindOf, l0TypeWarn, blockOutputAddress, hv, ht]

/-- A valid word at level 3 (R152). -/
theorem decodeDescriptor_l3 {raw : Word} (hv : validBit raw = true) :
    decodeDescriptor raw .l3 = .page (tableOrPageAddress raw) (permOf raw) := by
  simp [decodeDescriptor, kindOf, hv]

/-- What the decoder answers is a descriptor of its level, aligned to what it maps (R25, R153). -/
theorem decodeDescriptor_legalAt (raw : Word) (level : Level) : (decodeDescriptor raw level).legalAt level = true := by
  cases hv : validBit raw with
  | false =>
    rw [decodeDescriptor_of_not_valid level hv]
    rfl
  | true =>
    cases level with
    | l0 => simp [decodeDescriptor_l0 hv, Descriptor.legalAt, pageAligned_tableOrPageAddress]
    | l1 =>
      rw [decodeDescriptor_l1 hv]
      split <;> simp [Descriptor.legalAt, pageAligned_tableOrPageAddress, block1Address_aligned]
    | l2 =>
      rw [decodeDescriptor_l2 hv]
      split <;> simp [Descriptor.legalAt, pageAligned_tableOrPageAddress, block2Address_aligned]
    | l3 => simp [decodeDescriptor_l3 hv, Descriptor.legalAt, pageAligned_tableOrPageAddress]

/-- The warning is set exactly on a valid level-0 word with type bit 0 (R155). -/
theorem decodeDescriptor_warns_iff (raw : Word) (level : Level) :
    (∃ oa p, decodeDescriptor raw level = .table oa p true) ↔
      level = .l0 ∧ validBit raw = true ∧ typeBit raw = false := by
  cases hv : validBit raw with
  | false => simp [decodeDescriptor_of_not_valid level hv]
  | true =>
    cases level with
    | l0 => simp [decodeDescriptor_l0 hv]
    | l1 =>
      rw [decodeDescriptor_l1 hv]
      split <;> simp
    | l2 =>
      rw [decodeDescriptor_l2 hv]
      split <;> simp
    | l3 => simp [decodeDescriptor_l3 hv]

/-! ### The bits the decoder reads -/

/-- Every bit but {5, 11, [52:48], [63:55]}: what the decoder reads of a word (R97). -/
def decodedMask : Word := 0x0060FFFFFFFFF7DF#64

theorem getLsbD_and_decodedMask (raw : Word) {n : Nat} (h : decodedMask.getLsbD n = true) :
    (raw &&& decodedMask).getLsbD n = raw.getLsbD n := by
  rw [BitVec.getLsbD_and, h, Bool.and_true]

theorem extractLsb'_and_decodedMask (raw : Word) (start n : Nat)
    (h : decodedMask.extractLsb' start n = BitVec.allOnes n) :
    (raw &&& decodedMask).extractLsb' start n = raw.extractLsb' start n := by
  rw [BitVec.extractLsb'_and, h, BitVec.and_allOnes]

theorem permOf_and_decodedMask (raw : Word) : permOf (raw &&& decodedMask) = permOf raw := by
  simp only [permOf, extractLsb'_and_decodedMask raw 6 2 (by decide), extractLsb'_and_decodedMask raw 8 2 (by decide),
    extractLsb'_and_decodedMask raw 2 3 (by decide), getLsbD_and_decodedMask raw (n := 54) (by decide),
    getLsbD_and_decodedMask raw (n := 53) (by decide), getLsbD_and_decodedMask raw (n := 10) (by decide)]

/-- Any address mask within the decoded bits. -/
theorem and_decodedMask_and (raw mask : Word) (h : decodedMask &&& mask = mask) :
    raw &&& decodedMask &&& mask = raw &&& mask := by
  rw [BitVec.and_assoc, h]

/-- The decode of a word is that of its decoded bits. -/
theorem decodeDescriptor_and_decodedMask (raw : Word) (level : Level) :
    decodeDescriptor (raw &&& decodedMask) level = decodeDescriptor raw level := by
  have hvalid : validBit (raw &&& decodedMask) = validBit raw := getLsbD_and_decodedMask raw (by decide)
  have htype : typeBit (raw &&& decodedMask) = typeBit raw := getLsbD_and_decodedMask raw (by decide)
  have htp : tableOrPageAddress (raw &&& decodedMask) = tableOrPageAddress raw :=
    congrArg (BitVec.setWidth 48) (and_decodedMask_and raw Config.tpMask (by decide))
  have hblk1 : block1Address (raw &&& decodedMask) = block1Address raw :=
    congrArg (BitVec.setWidth 48) (and_decodedMask_and raw Config.blk1Mask (by decide))
  have hblk2 : block2Address (raw &&& decodedMask) = block2Address raw :=
    congrArg (BitVec.setWidth 48) (and_decodedMask_and raw Config.blk2Mask (by decide))
  cases hv : validBit raw with
  | false => rw [decodeDescriptor_of_not_valid level hv, decodeDescriptor_of_not_valid level (hvalid.trans hv)]
  | true =>
    have hv' := hvalid.trans hv
    cases level with
    | l0 => rw [decodeDescriptor_l0 hv, decodeDescriptor_l0 hv', htp, htype, permOf_and_decodedMask]
    | l1 => rw [decodeDescriptor_l1 hv, decodeDescriptor_l1 hv', htp, htype, hblk1, permOf_and_decodedMask]
    | l2 => rw [decodeDescriptor_l2 hv, decodeDescriptor_l2 hv', htp, htype, hblk2, permOf_and_decodedMask]
    | l3 => rw [decodeDescriptor_l3 hv, decodeDescriptor_l3 hv', htp, permOf_and_decodedMask]

/-- Settles O8: legality and the warning level by level, and the decode through the decoded bits alone. -/
theorem decodeIsLegalAndReadsItsSlices : Obligations.DecodeIsLegalAndReadsItsSlices := by
  unfold Obligations.DecodeIsLegalAndReadsItsSlices
  intro raw level
  refine ⟨decodeDescriptor_legalAt raw level, decodeDescriptor_warns_iff raw level, fun raw' h => ?_⟩
  rw [← decodeDescriptor_and_decodedMask raw level, ← decodeDescriptor_and_decodedMask raw' level]
  exact congrArg (decodeDescriptor · level) h

end Sys2Proof.Machine
end

section
/-!
The invariant of the machine (O46): each operation of the engine, from a state whose registers agree with what it waited for, leaves
one whose registers agree with what it waits for next. The steps are put together record by record.
-/
namespace Sys2Proof.Machine

/-! ### Addresses -/

theorem pageAligned_iff (a : PA) : pageAligned a = true ↔ a.toNat % 4096 = 0 := by
  rw [pageAligned, beq_iff_eq, ← BitVec.toNat_inj, BitVec.extractLsb'_toNat]
  simp

theorem pageAligned_selectRoot (va t0 t1 : Word) : pageAligned (selectRoot va t0 t1) = true := by
  unfold selectRoot
  split <;> exact pageAligned_and_tpMask _

/-- Entries of an aligned table stand at multiples of 8 (R64, R66). -/
theorem entryAddress_aligned {base : PA} (h : pageAligned base = true) (index : BitVec 9) :
    (entryAddress base index).extractLsb' 0 3 = 0#3 := by
  rw [pageAligned_iff] at h
  rw [← BitVec.toNat_inj, BitVec.extractLsb'_toNat]
  simp only [entryAddress, BitVec.toNat_add, BitVec.toNat_shiftLeft, BitVec.toNat_setWidth, Nat.shiftLeft_eq, Nat.shiftRight_zero,
    BitVec.toNat_ofNat]
  omega

/-- A request for an aligned physical address is within the contract (R61, R64, R65). -/
theorem memEvent_sound {ea : PA} (h : ea.extractLsb' 0 3 = 0#3) : (memEvent ea).sound = true := by
  have hlow : (ea.setWidth 64).extractLsb' 0 3 = 0#3 := by
    rw [← h, ← BitVec.toNat_inj, BitVec.extractLsb'_toNat, BitVec.extractLsb'_toNat, BitVec.toNat_setWidth]
    omega
  have hhigh : (ea.setWidth 64).extractLsb' 48 16 = 0#16 := by
    rw [← BitVec.toNat_inj, BitVec.extractLsb'_toNat, BitVec.toNat_setWidth, Nat.shiftRight_eq_div_pow]
    have := ea.isLt
    simp only [BitVec.toNat_ofNat]
    omega
  simp [memEvent, Event.sound, Config.readLen, hlow, hhigh]

/-! ### What the engine does not wait for -/

/-- The part of the invariant that is not about what the engine waits for: memory canonical, and every event so far sound. -/
def State.PastSound (s : State) : Prop := s.mem.wf = true ∧ s.trace.all Event.sound = true

variable {s t : State}

theorem inv_iff (s : State) : s.Inv ↔ s.PastSound ∧ s.waitSound := and_assoc.symm

theorem State.Inv.past (h : s.Inv) : s.PastSound := ((inv_iff s).mp h).1

theorem State.Inv.wait_sound (h : s.Inv) : s.waitSound := ((inv_iff s).mp h).2

theorem State.PastSound.log (h : s.PastSound) {e : Event} (he : e.sound = true) (htrace : t.trace = s.trace ++ [e])
    (hmem : t.mem = s.mem) : t.PastSound := by
  obtain ⟨hwf, hall⟩ := h
  refine ⟨hmem ▸ hwf, ?_⟩
  rw [htrace, List.all_append, hall]
  simp [he]

theorem State.PastSound.idle_inv (h : s.PastSound) (hw : s.wait = .idle) : s.Inv :=
  (inv_iff s).mpr ⟨h, by simp [State.waitSound, hw]⟩

/-- A terminal record needs no more than to be sound: nothing follows it (R261). -/
theorem offer_terminal_inv {r : Record} (h : s.PastSound) (hr : r.sound = true) (ht : r.terminal = true) :
    (offer r s).Inv := by
  refine (inv_iff _).mpr ⟨h, hr, ?_⟩
  cases r
  case wEntry | eEntry | eUnread | eTableEnd => cases ht
  all_goals trivial

theorem requestMem_inv {ea : PA} (h : s.PastSound) (hea : ea.extractLsb' 0 3 = 0#3)
    (hregs : (requestMem ea s).walkSound = true ∨ (requestMem ea s).entrySound) : (requestMem ea s).Inv :=
  (inv_iff _).mpr ⟨h.log (memEvent_sound hea) rfl rfl, rfl, rfl, Nat.lt_succ_self _, hregs⟩

theorem requestReg_inv {sel : RegSel} (h : s.PastSound) (hsel : sel.requested = true) (hop : s.op = 5#4 ∨ s.op = 6#4) :
    (requestReg sel s).Inv :=
  (inv_iff _).mpr ⟨h.log (e := .reg sel) hsel rfl rfl, hsel, Nat.lt_succ_self _, hop⟩

/-! ### The walk -/

/-- A walk about to read the entry of its level: all of `walkSound` but the entry's address. -/
structure State.WalkReady (s : State) : Prop where
  op_walk : isEnumeration s.op = false
  base_aligned : pageAligned s.base = true
  idx_eq : s.idx = (decompose s.va).idx
  off_eq : s.off = (decompose s.va).off
  pathLen_eq : s.pathLen = s.level.toNat

theorem walkSound_iff (s : State) :
    s.walkSound = true ↔ s.WalkReady ∧ s.ea = entryAddress s.base (s.idx.get s.level) := by
  simp only [State.walkSound, Bool.and_eq_true, Bool.not_eq_true', beq_iff_eq, decide_eq_true_eq]
  constructor
  · rintro ⟨⟨⟨⟨⟨hop, hbase⟩, hidx⟩, hoff⟩, hea⟩, hlen⟩
    exact ⟨⟨hop, hbase, hidx, hoff, hlen⟩, hea⟩
  · rintro ⟨⟨hop, hbase, hidx, hoff, hlen⟩, hea⟩
    exact ⟨⟨⟨⟨⟨hop, hbase⟩, hidx⟩, hoff⟩, hea⟩, hlen⟩

theorem walkSound_ea_aligned (h : s.walkSound = true) : s.ea.extractLsb' 0 3 = 0#3 := by
  obtain ⟨hready, hea⟩ := (walkSound_iff s).mp h
  exact hea ▸ entryAddress_aligned hready.base_aligned _

theorem walkFetch_inv (h : s.PastSound) (hready : s.WalkReady) : (walkFetch s).Inv :=
  requestMem_inv h (entryAddress_aligned hready.base_aligned _) (.inl ((walkSound_iff _).mpr
    ⟨⟨hready.op_walk, hready.base_aligned, hready.idx_eq, hready.off_eq, hready.pathLen_eq⟩, rfl⟩))

theorem walkBegin_inv (va : Word) (h : s.PastSound) (hop : isEnumeration s.op = false) : (walkBegin va s).Inv :=
  walkFetch_inv h ⟨hop, pageAligned_selectRoot _ _ _, rfl, rfl, rfl⟩

theorem walkUnreadable_inv (h : s.PastSound) (hw : s.walkSound = true) : (walkUnreadable s).Inv :=
  offer_terminal_inv h (by simp [Record.sound, walkSound_ea_aligned hw]) rfl

theorem walkReceive_inv (raw : Word) (h : s.PastSound) (hw : s.walkSound = true) :
    (walkReceive raw (decodeDescriptor raw s.level) s).Inv := by
  obtain ⟨hready, hea⟩ := (walkSound_iff s).mp hw
  refine (inv_iff _).mpr ⟨h, ?_, hw, rfl, rfl, rfl, rfl, rfl, rfl⟩
  simp [Record.sound, hready.base_aligned, hea]

/-- A Table's output address is a table base (R22, R153). -/
theorem decodeDescriptor_table_aligned {raw : Word} {level : Level} {oa : PA} {p : Perm} {w : Bool}
    (h : decodeDescriptor raw level = .table oa p w) : pageAligned oa = true := by
  have hlegal := decodeDescriptor_legalAt raw level
  simp only [h, Descriptor.legalAt, Bool.and_eq_true] at hlegal
  obtain ⟨⟨-, haligned⟩, -⟩ := hlegal
  exact haligned

/-- Blocks are met at levels 1 and 2 only (R152). -/
theorem decodeDescriptor_block_level {raw : Word} {level : Level} {oa : PA} {p : Perm}
    (h : decodeDescriptor raw level = .block oa p) : level = .l1 ∨ level = .l2 := by
  have hlegal := decodeDescriptor_legalAt raw level
  rw [h] at hlegal
  cases level <;> simp [Descriptor.legalAt] at hlegal ⊢

theorem afterWEntry_inv {raw : Word} (h : s.PastSound) (hw : s.walkSound = true)
    (hdesc : s.desc = decodeDescriptor raw s.level) : (afterWEntry s).Inv := by
  unfold afterWEntry
  cases hd : s.desc with
  | invalid => exact offer_terminal_inv h (by simp [Record.sound, walkSound_ea_aligned hw]) rfl
  | table oa p w =>
    obtain ⟨⟨hop, -, hidx, hoff, hlen⟩, -⟩ := (walkSound_iff s).mp hw
    have hdec := hdesc.symm.trans hd
    refine walkFetch_inv h ⟨hop, decodeDescriptor_table_aligned hdec, hidx, hoff, ?_⟩
    show s.pathLen + 1 = s.level.succ.toNat
    rw [Level.toNat_succ _ (decodeDescriptor_table_level hdec), hlen]
  | block oa p =>
    have hlevel := decodeDescriptor_block_level (hdesc.symm.trans hd)
    exact offer_terminal_inv h (by simpa [Record.sound] using hlevel) rfl
  | page oa p => exact offer_terminal_inv h rfl rfl

theorem receiveReg_inv {q : RegReq} (answer : Option Word) (h : s.Inv) (hw : s.wait = .reg q) :
    (receiveReg q.sel answer s).Inv := by
  have hwait := h.wait_sound
  simp only [State.waitSound, hw] at hwait
  obtain ⟨hsel, -, hop⟩ := hwait
  cases answer with
  | none => exact offer_terminal_inv h.past (by simpa [Record.sound] using hsel) rfl
  | some v =>
    cases hq : q.sel with
    | pc => exact requestReg_inv h.past rfl hop
    | ttbr0El1 => exact requestReg_inv h.past rfl hop
    | ttbr1El1 =>
      have hwalk : isEnumeration s.op = false := by
        rcases hop with hop | hop <;> simp [isEnumeration, hop]
      exact walkBegin_inv _ h.past hwalk
    | tcrEl1 | sctlrEl1 => simp [hq, RegSel.requested] at hsel

/-! ### The frame stack of an enumeration -/

theorem frame_sound_iff (filt : Bool) (cap : Nat) (f : Frame) :
    f.sound filt cap = true ↔
      pageAligned f.base = true ∧ f.index ≤ 512 ∧ f.emitted ≤ 512 ∧ f.emitted ≤ f.index + 1 ∧
        (filt = true → f.emitted ≤ 1) ∧ (filt = false → f.emitted ≤ cap) := by
  cases filt <;> simp [Frame.sound, and_assoc]

theorem stackSound_topFrame (h : s.stackSound) : (topFrame s).sound s.filt s.cap.toNat = true := by
  obtain ⟨-, -, hle, hsound, -⟩ := h
  exact hsound s.top hle (le_refl _)

/-- The innermost table's frame may take any sound value. -/
theorem setTopFrame_stackSound {f : Frame} (h : s.stackSound) (hf : f.sound s.filt s.cap.toNat = true) :
    (setTopFrame f s).stackSound := by
  obtain ⟨hop, hfilt, hle, hsound, hopen⟩ := h
  refine ⟨hop, hfilt, hle, fun level h1 h2 => ?_, fun level h1 h2 => ?_⟩
  · by_cases htop : level = s.top
    · subst htop
      simpa using hf
    · simpa [Frames.get_set_other _ _ _ _ htop] using hsound level h1 h2
  · have htop : level ≠ s.top := by
      rintro rfl
      exact lt_irrefl _ h2
    simpa [Frames.get_set_other _ _ _ _ htop] using hopen level h1 h2

theorem closeTable_inv (h : s.PastSound) (hs : s.stackSound) : (closeTable s).Inv := by
  obtain ⟨haligned, -, hemitted, -⟩ := (frame_sound_iff _ _ _).mp (stackSound_topFrame hs)
  have hsmall : (topFrame s).emitted % 1024 ≤ 512 := by omega
  exact (inv_iff _).mpr ⟨h, by simp [Record.sound, haligned, hsmall], hs, rfl, rfl⟩

/-- The loop head with an index left or none (R200): the index, when there is one, was not counted yet. -/
theorem enumVisit_inv (h : s.PastSound) (hs : s.stackSound)
    (hfresh : (topFrame s).index < 512 → (topFrame s).emitted ≤ (topFrame s).index ∧
      (s.filt = true → (topFrame s).emitted = 0)) : (enumVisit s).Inv := by
  have hframe := stackSound_topFrame hs
  by_cases hi : (topFrame s).index < 512
  · obtain ⟨hle, hzero⟩ := hfresh hi
    cases hc : capReached s.filt s.cap.toNat (topFrame s).emitted with
    | true =>
      rw [enumVisit_capped s hi hc]
      exact closeTable_inv h (setTopFrame_stackSound hs hframe)
    | false =>
      rw [enumVisit_reads s hi hc]
      have hcap : s.filt = false → (topFrame s).emitted < s.cap.toNat := by
        intro hfilt
        simpa [capReached, hfilt] using hc
      obtain ⟨haligned, -⟩ := (frame_sound_iff _ _ _).mp hframe
      exact requestMem_inv h (entryAddress_aligned haligned _) (.inr ⟨hs, hi, hle, hzero, hcap, rfl⟩)
  · rw [enumVisit_exhausted s (Nat.le_of_not_lt hi)]
    exact closeTable_inv h hs

/-- The loop goes on from an index it visited (R201). -/
theorem enumAdvance_inv (h : s.PastSound) (hs : s.stackSound) (hi : (topFrame s).index < 512) : (enumAdvance s).Inv := by
  obtain ⟨haligned, -, hemitted, hle, hone, hcap⟩ := (frame_sound_iff _ _ _).mp (stackSound_topFrame hs)
  refine enumVisit_inv h (setTopFrame_stackSound hs ?_) ?_
  · rw [frame_sound_iff]
    refine ⟨haligned, ?_, hemitted, ?_, hone, hcap⟩ <;> simp only [nextIndex, Config.entries] <;> split <;> omega
  · simp only [topFrame_setTopFrame, setTopFrame_filt, nextIndex, Config.entries]
    cases s.filt with
    | true => simp
    | false => exact fun _ => ⟨hle, nofun⟩

/-- A table may be opened at `level`: every table from `START` to the one above is open, at an index it visited (R205). -/
structure State.OpensAt (level : Level) (s : State) : Prop where
  op_enum : isEnumeration s.op = true
  filt_eq : s.filt = (s.op == 8#4)
  start_le : s.start.toNat ≤ level.toNat
  above : ∀ l : Level, s.start.toNat ≤ l.toNat → l.toNat < level.toNat →
    (s.frames.get l).sound s.filt s.cap.toNat = true ∧ (s.frames.get l).index < 512

theorem openTable_inv {base : PA} {level : Level} (vprefix : Word) (h : s.PastSound) (hopens : s.OpensAt level)
    (haligned : pageAligned base = true) : (openTable base vprefix level s).Inv := by
  obtain ⟨hop, hfilt, hle, habove⟩ := hopens
  have hfirst : firstIndex s.filt s.target level < 512 := by
    unfold firstIndex
    split <;> omega
  refine enumVisit_inv (s := { s with frames := _, top := level }) h
    ⟨hop, hfilt, hle, fun l h1 h2 => ?_, fun l h1 h2 => ?_⟩ ?_
  · by_cases hl : l = level
    · subst hl
      simp only [Frames.get_set_same, frame_sound_iff]
      exact ⟨haligned, hfirst.le, by simp, by simp, by simp, by simp⟩
    · rw [Frames.get_set_other _ _ _ _ hl]
      exact (habove l h1 (lt_of_le_of_ne h2 fun heq => hl (Level.toNat_inj _ _ heq))).1
  · have hl : l ≠ level := by
      rintro rfl
      exact lt_irrefl _ h2
    rw [Frames.get_set_other _ _ _ _ hl]
    exact (habove l h1 h2).2
  · simp [topFrame]

/-- The root table of an enumeration (R200). -/
theorem enumBegin_inv (base vprefix : Word) (level : Level) (h : s.PastSound) (hop : isEnumeration s.op = true)
    (hfilt : s.filt = (s.op == 8#4)) : (enumBegin base vprefix level s).Inv :=
  openTable_inv (s := { s with start := level }) vprefix h
    ⟨hop, hfilt, le_refl _, fun _ h1 h2 => absurd h2 (Nat.not_lt_of_le h1)⟩ (pageAligned_and_tpMask base)

/-! ### The entries of an enumeration -/

theorem enumUnreadable_inv (h : s.PastSound) (hs : s.entrySound) : (enumUnreadable s).Inv := by
  obtain ⟨hstack, -, -, -, -, hea⟩ := id hs
  obtain ⟨haligned, -⟩ := (frame_sound_iff _ _ _).mp (stackSound_topFrame hstack)
  exact (inv_iff _).mpr ⟨h, by simp [Record.sound, haligned, hea], hs, rfl, rfl, rfl, rfl⟩

theorem validBit_of_decodeDescriptor {raw : Word} {level : Level} (h : decodeDescriptor raw level ≠ .invalid) :
    raw.getLsbD 0 = true := by
  by_contra hv
  exact h (decodeDescriptor_of_not_valid level (Bool.eq_false_iff.mpr hv))

theorem enumReceive_inv (raw : Word) (h : s.PastSound) (hs : s.entrySound) :
    (enumReceive raw (decodeDescriptor raw s.top) s).Inv := by
  obtain ⟨hstack, hi, -, -, -, hea⟩ := id hs
  cases hd : decodeDescriptor raw s.top with
  | invalid => exact enumAdvance_inv (s := { s with raw := raw, desc := .invalid }) h hstack hi
  | table oa p w | block oa p | page oa p =>
    have hvalid : decodeDescriptor raw s.top ≠ .invalid := by simp [hd]
    obtain ⟨haligned, -⟩ := (frame_sound_iff _ _ _).mp (stackSound_topFrame hstack)
    refine (inv_iff _).mpr ⟨h, ?_, hs, rfl, rfl, rfl, rfl, rfl, hd.symm, nofun⟩
    simp only [Record.sound, haligned, hea, validBit_of_decodeDescriptor hvalid, hd, beq_self_eq_true, Bool.and_self]

/-- A counted entry's frame is sound, and its index was visited. -/
theorem counted_stackSound (hs : s.entrySound) :
    (setTopFrame { topFrame s with emitted := (topFrame s).emitted + 1 } s).stackSound := by
  obtain ⟨hstack, hi, hle, hzero, hcap, -⟩ := hs
  refine setTopFrame_stackSound hstack ?_
  obtain ⟨haligned, hindex, -⟩ := (frame_sound_iff _ _ _).mp (stackSound_topFrame hstack)
  rw [frame_sound_iff]
  refine ⟨haligned, hindex, ?_, ?_, fun hf => ?_, fun hf => hcap hf⟩
  · show (topFrame s).emitted + 1 ≤ 512
    omega
  · show (topFrame s).emitted + 1 ≤ (topFrame s).index + 1
    omega
  · show (topFrame s).emitted + 1 ≤ 1
    rw [hzero hf]

/-- Below an open table at an index it visited, another may be opened. -/
theorem stackSound_opensAt_succ (hs : s.stackSound) (hi : (topFrame s).index < 512) (hl : s.top ≠ .l3) :
    s.OpensAt s.top.succ := by
  obtain ⟨hop, hfilt, hle, hsound, hopen⟩ := hs
  have hsucc := Level.toNat_succ s.top hl
  refine ⟨hop, hfilt, by omega, fun l h1 h2 => ?_⟩
  rcases Level.lt_succ_cases hl h2 with rfl | ⟨-, hlt⟩
  · exact ⟨hsound _ h1 (le_refl _), hi⟩
  · exact ⟨hsound l h1 hlt.le, hopen l h1 hlt⟩

theorem afterEEntry_inv {raw : Word} (h : s.PastSound) (hs : s.entrySound)
    (hdesc : s.desc = decodeDescriptor raw s.top) : (afterEEntry s).Inv := by
  obtain ⟨-, hi, -⟩ := id hs
  have hstack := counted_stackSound hs
  have hi' : (topFrame (setTopFrame { topFrame s with emitted := (topFrame s).emitted + 1 } s)).index < 512 := by
    rwa [topFrame_setTopFrame]
  unfold afterEEntry
  cases hd : s.desc with
  | table oa p w =>
    have hdec := hdesc.symm.trans hd
    exact openTable_inv _ h (stackSound_opensAt_succ hstack hi' (decodeDescriptor_table_level hdec))
      (decodeDescriptor_table_aligned hdec)
  | invalid | block oa p | page oa p => exact enumAdvance_inv h hstack hi'

theorem afterTableEnd_inv (h : s.PastSound) (hs : s.stackSound) : (afterTableEnd s).Inv := by
  unfold afterTableEnd
  split
  · exact offer_terminal_inv h rfl rfl
  · next hne =>
    obtain ⟨hop, hfilt, hle, hsound, hopen⟩ := hs
    have hlt : s.start.toNat < s.top.toNat :=
      lt_of_le_of_ne hle fun heq => hne (Level.toNat_inj _ _ heq).symm
    have hpred : s.top.pred.toNat + 1 = s.top.toNat :=
      Level.toNat_pred s.top fun h0 => Nat.not_lt_zero _ (h0 ▸ hlt : s.start.toNat < Level.l0.toNat)
    have hle' : s.start.toNat ≤ s.top.pred.toNat := by omega
    have hlt' : s.top.pred.toNat < s.top.toNat := by omega
    exact enumAdvance_inv (s := { s with top := s.top.pred }) h
      ⟨hop, hfilt, hle', fun l h1 h2 => hsound l h1 (h2.trans hlt'.le), fun l h1 h2 => hopen l h1 (h2.trans hlt')⟩
      (hopen _ hle' hlt')

/-! ### Records taken, answers received, packets accepted -/

theorem takeRecord_inv {r : Record} (h : s.Inv) (hw : s.wait = .rpt r) : (takeRecord r s).Inv := by
  have hwait := h.wait_sound
  simp only [State.waitSound, hw] at hwait
  obtain ⟨hr, hregs⟩ := hwait
  have hpast : (logRecord r s).PastSound := h.past.log (e := .record r) hr rfl rfl
  cases r
  case wEntry =>
    obtain ⟨hwalk, -, -, -, -, -, hdesc⟩ := hregs
    exact afterWEntry_inv hpast hwalk hdesc
  case eEntry =>
    obtain ⟨hentry, -, -, -, -, -, hdesc, -⟩ := hregs
    exact afterEEntry_inv hpast hentry hdesc
  case eUnread =>
    obtain ⟨⟨hstack, hi, -⟩, -⟩ := hregs
    exact enumAdvance_inv hpast hstack hi
  case eTableEnd =>
    obtain ⟨hstack, -⟩ := hregs
    exact afterTableEnd_inv hpast hstack
  all_goals exact State.PastSound.idle_inv hpast rfl

theorem drain_inv (n : Nat) : ∀ {s : State}, s.Inv → (drain n s).Inv := by
  induction n with
  | zero => exact id
  | succ n ih =>
    intro s h
    unfold drain
    split
    · next r hw =>
      split
      · exact ih (takeRecord_inv h hw)
      · exact h
    all_goals exact h

theorem settle_inv (h : s.Inv) : (settle s).Inv := drain_inv 6 h

theorem receiveMem_inv {q : MemReq} (answer : Option Bytes8) (h : s.Inv) (hw : s.wait = .mem q) :
    (receiveMem answer s).Inv := by
  have hwait := h.wait_sound
  simp only [State.waitSound, hw] at hwait
  obtain ⟨-, -, -, hwalk | hentry⟩ := hwait
  · have hop := ((walkSound_iff s).mp hwalk).1.op_walk
    cases answer with
    | none => exact receiveMem_none_walk s hop ▸ walkUnreadable_inv h.past hwalk
    | some b => exact receiveMem_some_walk b s hop ▸ walkReceive_inv _ h.past hwalk
  · obtain ⟨⟨hop, -⟩, -⟩ := id hentry
    cases answer with
    | none => exact receiveMem_none_enum s hop ▸ enumUnreadable_inv h.past hentry
    | some b => exact receiveMem_some_enum b s hop ▸ enumReceive_inv _ h.past hentry

end Sys2Proof.Machine
end

section
/-!
Where an operation begins, and the moves of the engine: what an instruction or a packet does to an idle engine before any record is
taken, and one equation for each way a step can go.
-/
namespace Sys2Proof.Machine

/-! ### An operation begun -/

/-- What an instruction does to an idle engine before any record is taken; no request waits for a descriptor word then. -/
def begun : Instr → State → State
  | .decompose x, s => offer (.rDecomp (decompose x.a0)) (latch (commandPacket 1#4 0#2 0#10 x) s)
  | .selroot x, s => offer (.rRoot (selectRoot x.a0 x.a1 x.a2)) (latch (commandPacket 2#4 0#2 0#10 x) s)
  | .decode level x, s =>
    offer (.rDesc (pack (decodeDescriptor x.a0 level))) (latch (commandPacket 3#4 level.bits 0#10 x) s)
  | .walk x, s => walkBegin x.a0 { latch (commandPacket 4#4 0#2 0#10 x) s with t0 := x.a1, t1 := x.a2 }
  | .walkr x, s => requestReg .ttbr0El1 (latch (commandPacket 5#4 0#2 0#10 x) s)
  | .walkpc x, s => requestReg .pc (latch (commandPacket 6#4 0#2 0#10 x) s)
  | .enum level cap x, s =>
    enumBegin x.a0 x.a1 level { latch (commandPacket 7#4 level.bits cap x) s with filt := false }
  | .enumt level cap x, s =>
    enumBegin x.a0 x.a1 level { latch (commandPacket 8#4 level.bits cap x) s with filt := true, target := x.a2 }
  | .describe x, s => offer (.rPerm (describe (permOfDD x.a0))) (latch (commandPacket 9#4 0#2 0#10 x) s)
  | .descInvalid _ _, s | .descTableL0 _, s | .descTableL1L2 _ _, s | .descBlockL1 _, s | .descBlockL2 _, s
  | .descPageL3 _, s => s

/-- What a packet does to an idle engine before any record is taken (R110, R115). -/
def begunPacket (p : Packet) (s : State) : State :=
  match decodePacket p with
  | some i => begun i s
  | none => raiseIllegal p.cmdw (latch p s)

/-- A descriptor word changes nothing on an idle engine. -/
theorem deliver_idle (level : Level) (raw : Word) (d : Descriptor) (s : State) (hw : s.wait = .idle) :
    deliver level raw d s = settle s := by
  rw [deliver_unawaited level raw d s (by simp [hw]), settle_of_not_pending s (by simp [hw])]

theorem exec_idle (i : Instr) (s : State) (hw : s.wait = .idle) : exec i s = .next (settle (begun i s)) := by
  cases i
  case descInvalid | descTableL0 | descTableL1L2 | descBlockL1 | descBlockL2 | descPageL3 =>
    exact congrArg _ (deliver_idle _ _ _ s hw)
  all_goals exact congrArg _ (accept_idle _ _ s hw)

theorem begunPacket_illegal {p : Packet} (hp : decodePacket p = none) (s : State) :
    begunPacket p s = offer (.rIllegal p.cmdw) (latch p s) := by
  simp only [begunPacket, hp, raiseIllegal]

theorem runPacket_idle (p : Packet) (s : State) (hw : s.wait = .idle) :
    runPacket p s = .next (settle (begunPacket p s)) := by
  cases hd : decodePacket p with
  | some i => simp only [runPacket, begunPacket, hd, exec_idle i s hw]
  | none => simp only [runPacket, begunPacket, hd, execIllegal, accept_idle _ _ s hw]

/-- The latches after a built packet is accepted (R31). -/
theorem latch_commandPacket (op : BitVec 4) (lvl : BitVec 2) (cap : BitVec 10) (x : Operands) (s : State) :
    latch (commandPacket op lvl cap x) s =
      { s with op := op, lvl := lvl, cap := cap, a0 := x.a0, a1 := x.a1, a2 := x.a2 } := by
  simp [latch]

/-! ### The engine's own move -/

section
variable {s : State}

theorem advance_idle_empty (hw : s.wait = .idle) (hc : s.cmd = []) : advance s = .next s := by
  simp only [advance, hw, hc]

theorem advance_idle_packet {p : Packet} {rest : List Packet} (hw : s.wait = .idle) (hc : s.cmd = p :: rest) :
    advance s = runPacket p { s with cmd := rest } := by
  simp only [advance, hw, hc]

theorem advance_mem_unanswered {q : MemReq} (hw : s.wait = .mem q) (hlive : s.readerLive = false) :
    advance s = .fault .memoryUnanswered := by
  simp [advance, hw, hlive]

theorem advance_reg_unanswered {q : RegReq} (hw : s.wait = .reg q) (hlive : s.readerLive = false) :
    advance s = .fault .registerUnanswered := by
  simp [advance, hw, hlive]

theorem advance_rpt {r : Record} (hw : s.wait = .rpt r) (hready : s.sinkReady = true) :
    advance s = .next (settle s) := by
  simp [advance, hw, hready]

theorem advance_rpt_stalled {r : Record} (hw : s.wait = .rpt r) (hready : s.sinkReady = false) :
    advance s = .fault .sinkStalled := by
  simp [advance, hw, hready]

/-- An idle engine always has a move. -/
theorem advance_idle_next (hw : s.wait = .idle) : ∃ t, advance s = .next t := by
  cases hc : s.cmd with
  | nil => exact ⟨s, advance_idle_empty hw hc⟩
  | cons p rest => exact ⟨_, (advance_idle_packet hw hc).trans (runPacket_idle p { s with cmd := rest } hw)⟩

/-- An idle engine whose turn it is makes its own move (notes/assumptions/10.md). -/
theorem step_turnDue_idle {due : List Input} (hdue : s.turnDue due) (hw : s.wait = .idle) :
    step s = advance { s with inputs := due } := by
  rcases hdue with ⟨hin, rfl⟩ | hin
  · rw [step_no_input s hin, ← hin]
  · obtain ⟨t, ht⟩ := advance_idle_next (s := { s with inputs := due }) hw
    rw [step_input s _ due hin, ht]
    exact takeTurn_next _ t ht

end

/-! ### An input absorbed -/

section
variable {s : State}

/-- An answer that the outstanding request did not ask for is discarded (R281). -/
theorem absorb_memAnswer_late {tag : Nat} (answer : Option Bytes8) (h : ∀ q, s.wait = .mem q → q.tag ≠ tag) :
    absorb (.memAnswer tag answer) s = .next s := by
  cases hw : s.wait with
  | mem q => simp only [absorb, hw, if_neg (h q hw)]
  | idle | reg q | rpt r => simp only [absorb, hw]

theorem absorb_regAnswer_late {tag : Nat} (answer : Option Word) (h : ∀ q, s.wait = .reg q → q.tag ≠ tag) :
    absorb (.regAnswer tag answer) s = .next s := by
  cases hw : s.wait with
  | reg q => simp only [absorb, hw, if_neg (h q hw)]
  | idle | mem q | rpt r => simp only [absorb, hw]

theorem absorb_sinkTake_pending {r : Record} (hw : s.wait = .rpt r) :
    absorb .sinkTake s = .next (settle (takeRecord r s)) := by
  simp only [absorb, hw]

theorem absorb_sinkTake_nothing (h : ∀ r, s.wait ≠ .rpt r) : absorb .sinkTake s = .next s := by
  cases hw : s.wait with
  | rpt r => exact absurd hw (h r)
  | idle | mem q | reg q => simp only [absorb, hw]

end

/-! ### WALK, WALKR, WALKPC and ENUM begin -/

/-- A request leaves nothing for the sink to take. -/
theorem settle_requestMem (ea : PA) (s : State) : settle (requestMem ea s) = requestMem ea s :=
  settle_of_not_pending _ (by simp)

theorem settle_requestReg (sel : RegSel) (s : State) : settle (requestReg sel s) = requestReg sel s :=
  settle_of_not_pending _ (by simp)

/-- Settles O20: the first request of each walk command, with nothing pending for the sink. -/
theorem walkBegins : Obligations.WalkBegins := by
  unfold Obligations.WalkBegins
  intro x s hw root ea
  refine ⟨?_, ?_, ?_⟩
  · rw [exec_idle _ s hw, begun, latch_commandPacket, walkBegin, walkFetch, settle_requestMem]
    rfl
  · rw [exec_idle _ s hw, begun, latch_commandPacket, settle_requestReg]
    rfl
  · rw [exec_idle _ s hw, begun, latch_commandPacket, settle_requestReg]
    rfl

theorem entryAddress_zero (base : PA) : entryAddress base 0#9 = base := by
  simp [entryAddress]

/-- A table opened without a filter below its cap reads its entry 0 (R200, R201). -/
theorem openTable_reads_entry_zero {s : State} (base : PA) (vprefix : Word) (level : Level) (hfilt : s.filt = false)
    (hcap : s.cap ≠ 0#10) :
    openTable base vprefix level s =
      requestMem base
        { s with
          frames := s.frames.set level { base := base, vprefix := vprefix, index := 0, emitted := 0, truncated := false }
          top := level } := by
  have hpos : s.cap.toNat ≠ 0 := fun h => hcap (BitVec.eq_of_toNat_eq h)
  have hc : capReached s.filt s.cap.toNat 0 = false := by simp [capReached, hpos]
  rw [openTable, firstIndex, hfilt, enumVisit_reads]
  · simp [topFrame, topIndex, entryAddress_zero]
  · simp [topFrame]
  · simpa [topFrame, hfilt] using hc

/-- Settles O21: the root table's frame, and the read of its entry 0. -/
theorem enumBegins : Obligations.EnumBegins := by
  unfold Obligations.EnumBegins
  intro level cap x s hw hcap base
  rw [exec_idle _ s hw, begun, latch_commandPacket, enumBegin, openTable_reads_entry_zero _ _ _ rfl hcap,
    settle_requestMem]
  rfl

/-! ### The step of an idle engine -/

/-- Settles O42: the engine's own move when its turn is due. -/
theorem stepRunsThePacket : Obligations.StepRunsThePacket := by
  unfold Obligations.StepRunsThePacket
  intro due s hdue hw
  rw [step_turnDue_idle hdue hw]
  refine ⟨fun hc => advance_idle_empty hw hc, fun p rest hc => ?_⟩
  rw [advance_idle_packet (s := { s with inputs := due }) hw hc]
  refine ⟨fun i hi => by simp only [runPacket, hi], fun hp hready => ?_⟩
  let s1 : State := { s with cmd := rest, inputs := due }
  have hstep : runPacket p s1 = .next (settle (offer (.rIllegal p.cmdw) (latch p s1))) :=
    begunPacket_illegal hp s1 ▸ runPacket_idle p s1 hw
  refine ⟨_, hstep, ?_⟩
  rw [settle_terminal_withoutRegisters (offer _ (latch p s1)) _ rfl hready rfl]
  simp only [State.withoutRegisters, hw]
  rfl

/-- Settles O44. -/
theorem resetLeavesTheEngineIdle : Obligations.ResetLeavesTheEngineIdle :=
  ⟨(status_idle_iff State.reset).mpr rfl, rfl, rfl, rfl⟩

/-! ### Every step keeps the invariant -/

/-- Settles O45: memory is canonical, nothing has happened, and the idle engine waits for nothing. -/
theorem resetMeetsTheInvariant : Obligations.ResetMeetsTheInvariant :=
  State.PastSound.idle_inv ⟨reset_mem_wf, rfl⟩ rfl

section
variable {s t : State}

theorem describe_sound (p : Perm) : (Record.rPerm (describe p)).sound = true := by
  have hap : ∀ ap : BitVec 2, (apClass ap == .unknown) = false := by decide
  have hsh : ∀ sh : BitVec 2, (shClass sh == .unknown) = false := by decide
  simp [Record.sound, describe, hap, hsh]

theorem begun_inv (i : Instr) (h : s.PastSound) (hw : s.wait = .idle) : (begun i s).Inv := by
  cases i
  case decompose x | decode level x => exact offer_terminal_inv h rfl rfl
  case selroot x => exact offer_terminal_inv h (pageAligned_selectRoot _ _ _) rfl
  case describe x => exact offer_terminal_inv h (describe_sound _) rfl
  case walk x => exact walkBegin_inv _ h rfl
  case walkr x => exact requestReg_inv h rfl (.inl rfl)
  case walkpc x => exact requestReg_inv h rfl (.inr rfl)
  case enum level cap x => exact enumBegin_inv _ _ _ h (by simp [isEnumeration]) (by simp)
  case enumt level cap x => exact enumBegin_inv _ _ _ h (by simp [isEnumeration]) (by simp)
  all_goals exact h.idle_inv hw

theorem begunPacket_inv (p : Packet) (h : s.PastSound) (hw : s.wait = .idle) : (begunPacket p s).Inv := by
  unfold begunPacket
  split
  · exact begun_inv _ h hw
  · exact offer_terminal_inv h rfl rfl

theorem advance_inv (h : s.Inv) (hadv : advance s = .next t) : t.Inv := by
  cases hw : s.wait with
  | idle =>
    cases hc : s.cmd with
    | nil =>
      cases (advance_idle_empty hw hc).symm.trans hadv
      exact h
    | cons p rest =>
      rw [advance_idle_packet hw hc, runPacket_idle p { s with cmd := rest } hw] at hadv
      cases hadv
      exact settle_inv (begunPacket_inv p h.past hw)
  | mem q =>
    cases hlive : s.readerLive with
    | true =>
      cases (advance_mem s q hw hlive).symm.trans hadv
      exact settle_inv (receiveMem_inv _ h hw)
    | false => cases (advance_mem_unanswered hw hlive).symm.trans hadv
  | reg q =>
    cases hlive : s.readerLive with
    | true =>
      cases (advance_reg s q hw hlive).symm.trans hadv
      exact settle_inv (receiveReg_inv _ h hw)
    | false => cases (advance_reg_unanswered hw hlive).symm.trans hadv
  | rpt r =>
    cases hready : s.sinkReady with
    | true =>
      cases (advance_rpt hw hready).symm.trans hadv
      exact settle_inv h
    | false => cases (advance_rpt_stalled hw hready).symm.trans hadv

theorem takeTurn_inv (h : s.Inv) (hturn : takeTurn s = .next t) : t.Inv := by
  cases hadv : advance s with
  | next u =>
    cases (takeTurn_next s u hadv).symm.trans hturn
    exact advance_inv h hadv
  | fault f =>
    cases (takeTurn_fault s f hadv).symm.trans hturn
    exact h
  | refused r => simp [takeTurn, hadv] at hturn

/-- A record that a reset overtakes was taken (R281). -/
theorem resetMidway_inv (h : s.Inv) : (resetMidway s).Inv := by
  cases hw : s.wait with
  | idle => exact resetMidway_idle s hw ▸ State.PastSound.idle_inv h.past rfl
  | mem q | reg q =>
    exact resetMidway_waiting s (by simp [hw]) (by simp [hw]) ▸ State.PastSound.idle_inv h.past rfl
  | rpt r =>
    have hwait := h.wait_sound
    simp only [State.waitSound, hw] at hwait
    obtain ⟨hr, -⟩ := hwait
    have hpast : (logRecord r s).PastSound := h.past.log (e := .record r) hr rfl rfl
    exact resetMidway_pending s r hw ▸ State.PastSound.idle_inv hpast rfl

theorem absorb_inv (i : Input) (h : s.Inv) (habs : absorb i s = .next t) : t.Inv := by
  obtain ⟨hwf, htrace, hwait⟩ := id h
  cases i with
  | turn => exact takeTurn_inv h habs
  | command p | setSink ready | setReader live | registerChange sel value =>
    cases habs
    exact h
  | reset =>
    cases habs
    exact State.PastSound.idle_inv h.past rfl
  | resetMidway =>
    cases habs
    exact resetMidway_inv h
  | memoryChange address value =>
    cases habs
    exact ⟨setByte_wf _ _ _ hwf, htrace, hwait⟩
  | memoryFails address fails =>
    cases habs
    exact ⟨setFailing_wf _ _ _ hwf, htrace, hwait⟩
  | memAnswer tag answer =>
    by_cases hq : ∃ q, s.wait = .mem q ∧ q.tag = tag
    · obtain ⟨q, hw, rfl⟩ := hq
      cases (absorb_memAnswer answer s q hw).symm.trans habs
      exact settle_inv (receiveMem_inv answer h hw)
    · cases (absorb_memAnswer_late answer fun q hw ht => hq ⟨q, hw, ht⟩).symm.trans habs
      exact h
  | regAnswer tag answer =>
    by_cases hq : ∃ q, s.wait = .reg q ∧ q.tag = tag
    · obtain ⟨q, hw, rfl⟩ := hq
      cases (absorb_regAnswer answer s q hw).symm.trans habs
      exact settle_inv (receiveReg_inv answer h hw)
    · cases (absorb_regAnswer_late answer fun q hw ht => hq ⟨q, hw, ht⟩).symm.trans habs
      exact h
  | sinkTake =>
    by_cases hr : ∃ r, s.wait = .rpt r
    · obtain ⟨r, hw⟩ := hr
      cases (absorb_sinkTake_pending hw).symm.trans habs
      exact settle_inv (takeRecord_inv h hw)
    · cases (absorb_sinkTake_nothing fun r hw => hr ⟨r, hw⟩).symm.trans habs
      exact h

end

/-- Settles O46: the engine's own moves, and every input. -/
theorem everyStepKeepsTheInvariant : Obligations.EveryStepKeepsTheInvariant := by
  unfold Obligations.EveryStepKeepsTheInvariant
  intro s t h hstep
  cases hin : s.inputs with
  | nil => exact advance_inv h ((step_no_input s hin).symm.trans hstep)
  | cons i rest => exact absorb_inv (s := { s with inputs := rest }) i h ((step_input s i rest hin).symm.trans hstep)

end Sys2Proof.Machine
end

section
/-!
No operation sees what the registers held before it (O49, O50). Two engines are alike when they agree outside the registers and in
those the operation in progress still reads; each operation keeps them alike, and so does every step, whatever the outside does.
-/
namespace Sys2Proof

theorem Level.succ_pred {level : Level} (h : level ≠ .l0) : level.pred.succ = level := by
  cases level with
  | l0 => exact absurd rfl h
  | _ => rfl

end Sys2Proof

namespace Sys2Proof.Machine

section
variable {s t : State}

/-! ### The registers an operation still reads -/

/-- Two walks of one address at one level of one table. -/
def WalkAlike (s t : State) : Prop := ∃ va level base, WalksAt va level base s ∧ WalksAt va level base t

/-- Two engines that await the register `sel` for WALKR or WALKPC: the address to walk is in `A0` or, once the PC was read, in
`VA`. -/
structure AwaitAlike (sel : RegSel) (s t : State) : Prop where
  op_walk : isEnumeration s.op = false
  op_eq : s.op = t.op
  a0_eq : s.a0 = t.a0
  va_eq : sel ≠ .pc → s.op ≠ 5#4 → s.va = t.va
  t0_eq : sel = .ttbr1El1 → s.t0 = t.t0

/-- Two runs of the enumeration `c` about to open a table at `level`, or in one: their stacks agree from `START` to above it. -/
structure StacksAlike (c : EnumCall) (stack stack' : Level → Frame) (level : Level) : Prop where
  start_le : c.start.toNat ≤ level.toNat
  frames_eq : ∀ l : Level, c.start.toNat ≤ l.toNat → l.toNat < level.toNat → stack l = stack' l

/-- Two runs of one enumeration in one table. -/
structure InTableAlike (c : EnumCall) (stack stack' : Level → Frame) (level : Level) (f : Frame) (s t : State) : Prop where
  stacks_alike : StacksAlike c stack stack' level
  left : InTable c stack level f s
  right : InTable c stack' level f t

def EnumAlike (s t : State) : Prop := ∃ c stack stack' level f, InTableAlike c stack stack' level f s t

/-- Two engines agree in the registers still to be read, by what they wait for (R35). After a terminal record, and when idle, none
is (R20). -/
def LiveAlike (s t : State) : Prop :=
  match s.wait with
  | .idle => True
  | .mem _ => (WalkAlike s t ∨ EnumAlike s t) ∧ s.ea = t.ea
  | .reg q => AwaitAlike q.sel s t
  | .rpt (.wEntry _ _ _ _ _ _) => WalkAlike s t ∧ s.ea = t.ea ∧ s.desc = t.desc
  | .rpt (.eEntry _ _ _ _ _ _ _) => EnumAlike s t ∧ s.desc = t.desc
  | .rpt (.eUnread _ _ _ _) => EnumAlike s t
  | .rpt (.eTableEnd _ _ _ _) => EnumAlike s t
  | .rpt _ => True

/-- Two engines that the outside cannot tell apart, now or later. -/
structure Alike (s t : State) : Prop where
  outside : s.withoutRegisters = t.withoutRegisters
  live : LiveAlike s t

theorem Alike.wait_eq (h : Alike s t) : t.wait = s.wait := (congrArg State.wait h.outside).symm

theorem Alike.cmd_eq (h : Alike s t) : t.cmd = s.cmd := (congrArg State.cmd h.outside).symm

theorem Alike.mem_eq (h : Alike s t) : t.mem = s.mem := (congrArg State.mem h.outside).symm

theorem Alike.regs_eq (h : Alike s t) : t.regs = s.regs := (congrArg State.regs h.outside).symm

theorem Alike.readerLive_eq (h : Alike s t) : t.readerLive = s.readerLive := (congrArg State.readerLive h.outside).symm

theorem Alike.sinkReady_eq (h : Alike s t) : t.sinkReady = s.sinkReady := (congrArg State.sinkReady h.outside).symm

theorem Alike.inputs_eq (h : Alike s t) : t.inputs = s.inputs := (congrArg State.inputs h.outside).symm

theorem alike_of_idle (hout : s.withoutRegisters = t.withoutRegisters) (hw : s.wait = .idle) : Alike s t :=
  ⟨hout, by simp [LiveAlike, hw]⟩

/-! ### Records offered and requests issued -/

theorem offer_terminal_alike {r : Record} (hout : s.withoutRegisters = t.withoutRegisters) (ht : r.terminal = true) :
    Alike (offer r s) (offer r t) := by
  refine ⟨congrArg (offer r) hout, ?_⟩
  cases r
  case wEntry | eEntry | eUnread | eTableEnd => cases ht
  all_goals trivial

theorem requestMem_outside (ea : PA) (hout : s.withoutRegisters = t.withoutRegisters) :
    (requestMem ea s).withoutRegisters = (requestMem ea t).withoutRegisters := by
  show (requestMem ea s.withoutRegisters).withoutRegisters = (requestMem ea t.withoutRegisters).withoutRegisters
  rw [hout]

theorem requestReg_alike {sel : RegSel} (hout : s.withoutRegisters = t.withoutRegisters) (h : AwaitAlike sel s t) :
    Alike (requestReg sel s) (requestReg sel t) :=
  ⟨congrArg (requestReg sel) hout, ⟨h.op_walk, h.op_eq, h.a0_eq, h.va_eq, h.t0_eq⟩⟩

/-! ### The walk -/

/-- What leaves the registers of a walk alone leaves it where it is. -/
theorem WalksAt.transfer {va : Word} {level : Level} {base : PA} (h : WalksAt va level base s) (hop : t.op = s.op)
    (hva : t.va = s.va) (hidx : t.idx = s.idx) (hoff : t.off = s.off) (hlevel : t.level = s.level) (hbase : t.base = s.base) :
    WalksAt va level base t where
  op_walk := hop ▸ h.op_walk
  va_eq := hva ▸ h.va_eq
  idx_eq := hidx ▸ h.idx_eq
  off_eq := hoff ▸ h.off_eq
  level_eq := hlevel ▸ h.level_eq
  base_eq := hbase ▸ h.base_eq

theorem WalksAt.walkFetch_eq {va : Word} {level : Level} {base : PA} (h : WalksAt va level base s) :
    walkFetch s = requestMem (entryAddress base ((decompose va).idx.get level)) s := by
  rw [walkFetch, h.base_eq, h.idx_eq, h.level_eq]

theorem WalksAt.walkReceive_eq {va : Word} {level : Level} {base : PA} (h : WalksAt va level base s) (raw : Word)
    (d : Descriptor) :
    walkReceive raw d s =
      offer (.wEntry level ((decompose va).idx.get level) base s.ea raw (pack d)) { s with raw := raw, desc := d } := by
  rw [walkReceive, ← h.level_eq, ← h.idx_eq, ← h.base_eq]

theorem walkFetch_alike (hout : s.withoutRegisters = t.withoutRegisters) (h : WalkAlike s t) :
    Alike (walkFetch s) (walkFetch t) := by
  obtain ⟨va, level, base, hs, ht⟩ := h
  rw [hs.walkFetch_eq, ht.walkFetch_eq]
  exact ⟨requestMem_outside _ hout,
    .inl ⟨va, level, base, hs.transfer rfl rfl rfl rfl rfl rfl, ht.transfer rfl rfl rfl rfl rfl rfl⟩, rfl⟩

theorem walkBegin_alike (va : Word) (hout : s.withoutRegisters = t.withoutRegisters) (hop : isEnumeration s.op = false)
    (hop' : isEnumeration t.op = false) (h0 : s.t0 = t.t0) (h1 : s.t1 = t.t1) :
    Alike (walkBegin va s) (walkBegin va t) :=
  walkFetch_alike hout ⟨va, .l0, selectRoot va s.t0 s.t1, ⟨hop, rfl, rfl, rfl, rfl, rfl⟩,
    ⟨hop', rfl, rfl, rfl, rfl, by rw [h0, h1]⟩⟩

theorem walkUnreadable_alike (hout : s.withoutRegisters = t.withoutRegisters) (h : WalkAlike s t) (hea : s.ea = t.ea) :
    Alike (walkUnreadable s) (walkUnreadable t) := by
  obtain ⟨va, level, base, hs, ht⟩ := h
  rw [walkUnreadable, walkUnreadable, hs.level_eq, ht.level_eq, hea]
  exact offer_terminal_alike hout rfl

theorem walkReceive_alike (raw : Word) (d : Descriptor) (hout : s.withoutRegisters = t.withoutRegisters)
    (h : WalkAlike s t) (hea : s.ea = t.ea) : Alike (walkReceive raw d s) (walkReceive raw d t) := by
  obtain ⟨va, level, base, hs, ht⟩ := h
  rw [hs.walkReceive_eq, ht.walkReceive_eq, hea]
  exact ⟨congrArg (offer _) hout,
    ⟨va, level, base, hs.transfer rfl rfl rfl rfl rfl rfl, ht.transfer rfl rfl rfl rfl rfl rfl⟩, rfl, rfl⟩

theorem afterWEntry_alike (hout : s.withoutRegisters = t.withoutRegisters) (h : WalkAlike s t) (hea : s.ea = t.ea)
    (hd : s.desc = t.desc) : Alike (afterWEntry s) (afterWEntry t) := by
  obtain ⟨va, level, base, hs, ht⟩ := h
  unfold afterWEntry
  rw [← hd]
  cases s.desc with
  | invalid =>
    rw [hs.level_eq, ht.level_eq, hea]
    exact offer_terminal_alike hout rfl
  | table oa p w =>
    exact walkFetch_alike hout ⟨va, level.succ, oa,
      ⟨hs.op_walk, hs.va_eq, hs.idx_eq, hs.off_eq, congrArg Level.succ hs.level_eq, rfl⟩,
      ⟨ht.op_walk, ht.va_eq, ht.idx_eq, ht.off_eq, congrArg Level.succ ht.level_eq, rfl⟩⟩
  | block oa p =>
    rw [hs.level_eq, ht.level_eq, hs.va_eq, ht.va_eq]
    exact offer_terminal_alike hout rfl
  | page oa p =>
    rw [hs.off_eq, ht.off_eq]
    exact offer_terminal_alike hout rfl

/-- A register answered in WALKR or WALKPC (R177, R178). -/
theorem receiveReg_alike {q : RegReq} (answer : Option Word) (h : Alike s t) (hw : s.wait = .reg q) :
    Alike (receiveReg q.sel answer s) (receiveReg q.sel answer t) := by
  obtain ⟨hout, hlive⟩ := id h
  simp only [LiveAlike, hw] at hlive
  obtain ⟨hop, hopeq, ha0, hva, ht0⟩ := hlive
  cases answer with
  | none => exact offer_terminal_alike hout rfl
  | some v =>
    cases hsel : q.sel with
    | pc => exact requestReg_alike hout ⟨hop, hopeq, ha0, fun _ _ => rfl, nofun⟩
    | ttbr0El1 => exact requestReg_alike hout ⟨hop, hopeq, ha0, fun _ => hva (by simp [hsel]), fun _ => rfl⟩
    | ttbr1El1 =>
      have haddress : (if s.op = 5#4 then s.a0 else s.va) = if t.op = 5#4 then t.a0 else t.va := by
        rw [← hopeq, ha0]
        split
        · rfl
        · next h5 => exact hva (by simp [hsel]) h5
      show Alike (walkBegin _ { s with t1 := v }) (walkBegin _ { t with t1 := v })
      rw [haddress]
      exact walkBegin_alike _ hout hop (hopeq ▸ hop) (ht0 hsel) rfl
    | tcrEl1 | sctlrEl1 => exact h

/-! ### The frame stack of an enumeration -/

section
variable {c : EnumCall} {stack stack' : Level → Frame} {level : Level} {f : Frame}

/-- From `s` to `u` the registers of an enumeration are left alone. -/
def KeepsEnumeration (s u : State) : Prop :=
  u.op = s.op ∧ u.start = s.start ∧ u.filt = s.filt ∧ u.target = s.target ∧ u.cap = s.cap ∧ u.frames = s.frames ∧
    u.top = s.top

theorem InTableAlike.transfer {u v : State} (h : InTableAlike c stack stack' level f s t) (hs : KeepsEnumeration s u)
    (ht : KeepsEnumeration t v) : InTableAlike c stack stack' level f u v := by
  obtain ⟨h1, h2, h3, h4, h5, h6, h7⟩ := hs
  obtain ⟨k1, k2, k3, k4, k5, k6, k7⟩ := ht
  exact ⟨h.stacks_alike, h.left.transfer h1 h2 h3 h4 h5 h6 h7, h.right.transfer k1 k2 k3 k4 k5 k6 k7⟩

theorem keepsEnumeration_offer (r : Record) (s : State) : KeepsEnumeration s (offer r s) :=
  ⟨rfl, rfl, rfl, rfl, rfl, rfl, rfl⟩

theorem keepsEnumeration_logRecord (r : Record) (s : State) : KeepsEnumeration s (logRecord r s) :=
  ⟨rfl, rfl, rfl, rfl, rfl, rfl, rfl⟩

theorem keepsEnumeration_requestMem (ea : PA) (s : State) : KeepsEnumeration s (requestMem ea s) :=
  ⟨rfl, rfl, rfl, rfl, rfl, rfl, rfl⟩

theorem InTableAlike.setTopFrame (h : InTableAlike c stack stack' level f s t) (g : Frame) :
    InTableAlike c stack stack' level g (setTopFrame g s) (setTopFrame g t) :=
  ⟨h.stacks_alike, h.left.setTopFrame g, h.right.setTopFrame g⟩

theorem closeTable_alike (hout : s.withoutRegisters = t.withoutRegisters)
    (h : InTableAlike c stack stack' level f s t) : Alike (closeTable s) (closeTable t) := by
  rw [h.left.closeTable_eq, h.right.closeTable_eq]
  exact ⟨congrArg (offer _) hout,
    c, stack, stack', level, f, h.transfer (keepsEnumeration_offer _ s) (keepsEnumeration_offer _ t)⟩

theorem enumVisit_alike (hout : s.withoutRegisters = t.withoutRegisters)
    (h : InTableAlike c stack stack' level f s t) : Alike (enumVisit s) (enumVisit t) := by
  by_cases hi : f.index < 512
  · cases hc : capReached c.filter.isSome c.cap f.emitted with
    | true =>
      rw [enumVisit_capped s (by rwa [h.left.topFrame_eq]) (by rwa [h.left.capReached_eq]), h.left.topFrame_eq,
        enumVisit_capped t (by rwa [h.right.topFrame_eq]) (by rwa [h.right.capReached_eq]), h.right.topFrame_eq]
      exact closeTable_alike hout (h.setTopFrame _)
    | false =>
      rw [h.left.enumVisit_reads hi hc, h.right.enumVisit_reads hi hc]
      exact ⟨requestMem_outside _ hout, .inr ⟨c, stack, stack', level, f,
        h.transfer (keepsEnumeration_requestMem _ s) (keepsEnumeration_requestMem _ t)⟩, rfl⟩
  · have hi' : 512 ≤ f.index := Nat.le_of_not_lt hi
    rw [enumVisit_exhausted s (by rwa [h.left.topFrame_eq]), enumVisit_exhausted t (by rwa [h.right.topFrame_eq])]
    exact closeTable_alike hout h

theorem enumAdvance_alike (hout : s.withoutRegisters = t.withoutRegisters)
    (h : InTableAlike c stack stack' level f s t) : Alike (enumAdvance s) (enumAdvance t) := by
  rw [h.left.enumAdvance_eq, h.right.enumAdvance_eq]
  exact enumVisit_alike hout (h.setTopFrame _)

/-- The first index of a table is the filter's, or 0 (R201). -/
theorem Enumerates.firstIndex_eq (hs : Enumerates c stack level s) (ht : Enumerates c stack' level t) :
    firstIndex c.filter.isSome s.target level = firstIndex c.filter.isSome t.target level := by
  cases hfilter : c.filter with
  | none => rfl
  | some v => rw [hs.target_eq v hfilter, ht.target_eq v hfilter]

theorem openTable_alike (base : PA) (vprefix : Word) (hout : s.withoutRegisters = t.withoutRegisters)
    (hstacks : StacksAlike c stack stack' level) (hs : Enumerates c stack level s) (ht : Enumerates c stack' level t) :
    Alike (openTable base vprefix level s) (openTable base vprefix level t) := by
  rw [hs.openTable_eq, ht.openTable_eq, hs.firstIndex_eq ht]
  exact enumVisit_alike hout ⟨hstacks, hs.opened _, ht.opened _⟩

/-- Seen from the level below, the innermost table is part of the stack. -/
theorem StacksAlike.push (h : StacksAlike c stack stack' level) (f : Frame) (hl : level ≠ .l3) :
    StacksAlike c (Function.update stack level f) (Function.update stack' level f) level.succ := by
  have hsucc := Level.toNat_succ level hl
  have hle := h.start_le
  refine ⟨by omega, fun l h1 h2 => ?_⟩
  rcases Level.lt_succ_cases hl h2 with rfl | ⟨hne, hlt⟩
  · rw [Function.update_self, Function.update_self]
  · rw [Function.update_of_ne hne, Function.update_of_ne hne, h.frames_eq l h1 hlt]

/-- A table not at `START` stands under one that both stacks hold. -/
theorem StacksAlike.pop (h : StacksAlike c stack stack' level) (hne : level ≠ c.start) :
    level.pred ≠ .l3 ∧ level.pred.succ = level ∧ StacksAlike c stack stack' level.pred ∧
      stack level.pred = stack' level.pred := by
  have hlt : c.start.toNat < level.toNat := lt_of_le_of_ne h.start_le fun heq => hne (Level.toNat_inj _ _ heq).symm
  have h0 : level ≠ .l0 := by
    rintro rfl
    exact Nat.not_lt_zero _ hlt
  have hpred := Level.toNat_pred level h0
  have hle : c.start.toNat ≤ level.pred.toNat := by omega
  refine ⟨?_, Level.succ_pred h0, ⟨hle, fun l h1 h2 => h.frames_eq l h1 (by omega)⟩, h.frames_eq _ hle (by omega)⟩
  intro h3
  have := Level.toNat_le level
  have h3' : level.pred.toNat = 3 := congrArg Level.toNat h3
  omega

/-- Back in the table above, whose frame is the one the stack holds. -/
theorem InTable.toParent (h : InTable c stack level f s) (hl : level.pred ≠ .l3) (hsucc : level.pred.succ = level) :
    InTable c stack level.pred (stack level.pred) { s with top := s.top.pred } := by
  refine InTable.returned (g := f) ?_ hl
  rwa [Function.update_eq_self, hsucc]

end

/-! ### The entries of an enumeration -/

theorem enumUnreadable_alike (hout : s.withoutRegisters = t.withoutRegisters) (h : EnumAlike s t) (hea : s.ea = t.ea) :
    Alike (enumUnreadable s) (enumUnreadable t) := by
  obtain ⟨c, stack, stack', level, f, h⟩ := h
  rw [h.left.enumUnreadable_eq, h.right.enumUnreadable_eq, hea]
  exact ⟨congrArg (offer _) hout,
    c, stack, stack', level, f, h.transfer (keepsEnumeration_offer _ s) (keepsEnumeration_offer _ t)⟩

theorem enumReceive_alike (raw : Word) (d : Descriptor) (hout : s.withoutRegisters = t.withoutRegisters) (h : EnumAlike s t)
    (hea : s.ea = t.ea) : Alike (enumReceive raw d s) (enumReceive raw d t) := by
  obtain ⟨c, stack, stack', level, f, h⟩ := h
  by_cases hd : d = .invalid
  · subst hd
    exact enumAdvance_alike (s := { s with raw := raw, desc := .invalid }) (t := { t with raw := raw, desc := .invalid }) hout
      (h.transfer ⟨rfl, rfl, rfl, rfl, rfl, rfl, rfl⟩ ⟨rfl, rfl, rfl, rfl, rfl, rfl, rfl⟩)
  · rw [h.left.enumReceive_eq raw d hd, h.right.enumReceive_eq raw d hd, hea]
    exact ⟨congrArg (offer _) hout, ⟨c, stack, stack', level, f,
      h.transfer ⟨rfl, rfl, rfl, rfl, rfl, rfl, rfl⟩ ⟨rfl, rfl, rfl, rfl, rfl, rfl, rfl⟩⟩, rfl⟩

theorem afterEEntry_alike (hout : s.withoutRegisters = t.withoutRegisters) (h : EnumAlike s t) (hd : s.desc = t.desc) :
    Alike (afterEEntry s) (afterEEntry t) := by
  obtain ⟨c, stack, stack', level, f, h⟩ := h
  have hcounted := h.setTopFrame { f with emitted := f.emitted + 1 }
  unfold afterEEntry
  rw [← hd, h.left.topFrame_eq, h.right.topFrame_eq, h.left.topChildPrefix_eq, h.right.topChildPrefix_eq, h.left.top_eq,
    h.right.top_eq]
  cases s.desc with
  | table oa p w =>
    by_cases hl : level = .l3
    · subst hl
      exact openTable_alike oa _ hout h.stacks_alike hcounted.left.toEnumerates hcounted.right.toEnumerates
    · exact openTable_alike oa _ hout (h.stacks_alike.push _ hl) (hcounted.left.asParent hl) (hcounted.right.asParent hl)
  | invalid | block oa p | page oa p => exact enumAdvance_alike hout hcounted

/-- A table that is not the root's closed, the loop above it goes on. -/
theorem InTable.afterTableEnd_parent {c : EnumCall} {stack : Level → Frame} {level : Level} {f : Frame}
    (h : InTable c stack level f s) (hne : level ≠ c.start) : afterTableEnd s = enumAdvance { s with top := s.top.pred } := by
  rw [afterTableEnd, if_neg (by rwa [h.top_eq, h.start_eq])]

theorem afterTableEnd_alike (hout : s.withoutRegisters = t.withoutRegisters) (h : EnumAlike s t) :
    Alike (afterTableEnd s) (afterTableEnd t) := by
  obtain ⟨c, stack, stack', level, f, h⟩ := h
  by_cases hroot : level = c.start
  · subst hroot
    rw [afterTableEnd_root h.left, afterTableEnd_root h.right]
    exact offer_terminal_alike hout rfl
  · obtain ⟨hl, hsucc, hstacks, hframe⟩ := h.stacks_alike.pop hroot
    rw [h.left.afterTableEnd_parent hroot, h.right.afterTableEnd_parent hroot]
    exact enumAdvance_alike hout ⟨hstacks, h.left.toParent hl hsucc, hframe ▸ h.right.toParent hl hsucc⟩

/-! ### Records taken, answers received, packets accepted -/

theorem takeRecord_alike {r : Record} (h : Alike s t) (hw : s.wait = .rpt r) : Alike (takeRecord r s) (takeRecord r t) := by
  obtain ⟨hout, hlive⟩ := h
  have hlog : (logRecord r s).withoutRegisters = (logRecord r t).withoutRegisters := congrArg (logRecord r) hout
  simp only [LiveAlike, hw] at hlive
  cases r
  case wEntry =>
    obtain ⟨⟨va, level, base, hs, ht⟩, hea, hd⟩ := hlive
    exact afterWEntry_alike hlog
      ⟨va, level, base, hs.transfer rfl rfl rfl rfl rfl rfl, ht.transfer rfl rfl rfl rfl rfl rfl⟩ hea hd
  case eEntry =>
    obtain ⟨⟨c, stack, stack', level, f, h⟩, hd⟩ := hlive
    exact afterEEntry_alike hlog
      ⟨c, stack, stack', level, f, h.transfer (keepsEnumeration_logRecord _ s) (keepsEnumeration_logRecord _ t)⟩ hd
  case eUnread =>
    obtain ⟨c, stack, stack', level, f, h⟩ := hlive
    exact enumAdvance_alike hlog (h.transfer (keepsEnumeration_logRecord _ s) (keepsEnumeration_logRecord _ t))
  case eTableEnd =>
    obtain ⟨c, stack, stack', level, f, h⟩ := hlive
    exact afterTableEnd_alike hlog
      ⟨c, stack, stack', level, f, h.transfer (keepsEnumeration_logRecord _ s) (keepsEnumeration_logRecord _ t)⟩
  all_goals exact alike_of_idle (congrArg (fun u : State => { u with wait := .idle }) hlog) rfl

theorem drain_alike (n : Nat) : ∀ {s t : State}, Alike s t → Alike (drain n s) (drain n t) := by
  induction n with
  | zero => exact id
  | succ n ih =>
    intro s t h
    by_cases hr : ∃ r, s.wait = .rpt r
    · obtain ⟨r, hw⟩ := hr
      cases hready : s.sinkReady with
      | true =>
        rw [drain_pending n s r hw hready, drain_pending n t r (h.wait_eq.trans hw) (h.sinkReady_eq.trans hready)]
        exact ih (takeRecord_alike h hw)
      | false => rwa [drain_of_stalled _ s hready, drain_of_stalled _ t (h.sinkReady_eq.trans hready)]
    · rwa [drain_of_not_pending _ s fun r hw => hr ⟨r, hw⟩,
        drain_of_not_pending _ t fun r hw => hr ⟨r, h.wait_eq.symm.trans hw⟩]

theorem settle_alike (h : Alike s t) : Alike (settle s) (settle t) := drain_alike 6 h

theorem receiveMem_alike {q : MemReq} (answer : Option Bytes8) (h : Alike s t) (hw : s.wait = .mem q) :
    Alike (receiveMem answer s) (receiveMem answer t) := by
  obtain ⟨hout, hlive⟩ := h
  simp only [LiveAlike, hw] at hlive
  obtain ⟨hwalk | henum, hea⟩ := hlive
  · obtain ⟨va, level, base, hs, ht⟩ := id hwalk
    cases answer with
    | none =>
      rw [receiveMem_none_walk s hs.op_walk, receiveMem_none_walk t ht.op_walk]
      exact walkUnreadable_alike hout hwalk hea
    | some b =>
      rw [receiveMem_some_walk b s hs.op_walk, receiveMem_some_walk b t ht.op_walk, hs.level_eq, ht.level_eq]
      exact walkReceive_alike _ _ hout hwalk hea
  · obtain ⟨c, stack, stack', level, f, hin⟩ := id henum
    cases answer with
    | none =>
      rw [receiveMem_none_enum s hin.left.op_enum, receiveMem_none_enum t hin.right.op_enum]
      exact enumUnreadable_alike hout henum hea
    | some b =>
      rw [receiveMem_some_enum b s hin.left.op_enum, receiveMem_some_enum b t hin.right.op_enum, hin.left.top_eq,
        hin.right.top_eq]
      exact enumReceive_alike _ _ hout henum hea

/-- What ENUM and ENUMT latch is all that the enumeration reads. -/
theorem enumBegin_alike (base vprefix : Word) (level : Level) (hout : s.withoutRegisters = t.withoutRegisters)
    (hop : isEnumeration s.op = true) (hopeq : s.op = t.op) (hcap : s.cap = t.cap) (hfilt : s.filt = t.filt)
    (htarget : s.filt = true → s.target = t.target) :
    Alike (enumBegin base vprefix level s) (enumBegin base vprefix level t) := by
  let c : EnumCall := { start := level, filter := if s.filt then some s.target else none, cap := s.cap.toNat }
  have hisSome : c.filter.isSome = s.filt := by cases hf : s.filt <;> simp [c, hf]
  have hfilter : ∀ v, c.filter = some v → s.filt = true ∧ s.target = v := by
    intro v hv
    cases hf : s.filt <;> simp_all [c]
  exact openTable_alike (c := c) (stack := s.frames.get) (stack' := t.frames.get)
    (s := { s with start := level }) (t := { t with start := level }) _ vprefix hout
    ⟨le_refl _, fun _ h1 h2 => absurd h2 (Nat.not_lt_of_le h1)⟩
    ⟨hop, rfl, hisSome.symm, fun v hv => (hfilter v hv).2, rfl, fun _ _ => rfl⟩
    ⟨hopeq ▸ hop, rfl, hfilt.symm.trans hisSome.symm, fun v hv => (htarget (hfilter v hv).1).symm.trans (hfilter v hv).2,
      congrArg _ hcap.symm, fun _ _ => rfl⟩

/-- From idle engines that agree outside the registers an operation begins alike (R20). -/
theorem begun_alike (i : Instr) (hout : s.withoutRegisters = t.withoutRegisters) (hw : s.wait = .idle) :
    Alike (begun i s) (begun i t) := by
  cases i
  case decompose x | selroot x | decode level x | describe x => exact offer_terminal_alike hout rfl
  case walk x => exact walkBegin_alike _ hout rfl rfl rfl rfl
  case walkr x => exact requestReg_alike hout ⟨rfl, rfl, rfl, fun _ h5 => absurd rfl h5, nofun⟩
  case walkpc x => exact requestReg_alike hout ⟨rfl, rfl, rfl, fun hpc => absurd rfl hpc, nofun⟩
  case enum level cap x =>
    exact enumBegin_alike _ _ _ hout (by simp [isEnumeration]) rfl rfl rfl nofun
  case enumt level cap x =>
    exact enumBegin_alike _ _ _ hout (by simp [isEnumeration]) rfl rfl rfl fun _ => rfl
  all_goals exact alike_of_idle hout hw

theorem begunPacket_alike (p : Packet) (hout : s.withoutRegisters = t.withoutRegisters) (hw : s.wait = .idle) :
    Alike (begunPacket p s) (begunPacket p t) := by
  unfold begunPacket
  split
  · exact begun_alike _ hout hw
  · exact offer_terminal_alike hout rfl

/-! ### Steps and runs -/

/-- Two outcomes alike: both stop for one reason, or both go on alike. -/
inductive OutcomesAlike : Host.Outcome State Fault Refusal → Host.Outcome State Fault Refusal → Prop where
  | next {s t : State} (h : Alike s t) : OutcomesAlike (.next s) (.next t)
  | fault (f : Fault) : OutcomesAlike (.fault f) (.fault f)
  | refused (r : Refusal) : OutcomesAlike (.refused r) (.refused r)

theorem OutcomesAlike.agree {o o' : Host.Outcome State Fault Refusal} (h : OutcomesAlike o o') : Outcome.agree o o' := by
  cases h with
  | next h => exact h.outside
  | fault f | refused r => rfl

theorem exec_idle_alike (i : Instr) (hout : s.withoutRegisters = t.withoutRegisters) (hw : s.wait = .idle) :
    OutcomesAlike (exec i s) (exec i t) := by
  rw [exec_idle i s hw, exec_idle i t ((congrArg State.wait hout).symm.trans hw)]
  exact .next (settle_alike (begun_alike i hout hw))

theorem runPacket_idle_alike (p : Packet) (hout : s.withoutRegisters = t.withoutRegisters) (hw : s.wait = .idle) :
    OutcomesAlike (runPacket p s) (runPacket p t) := by
  rw [runPacket_idle p s hw, runPacket_idle p t ((congrArg State.wait hout).symm.trans hw)]
  exact .next (settle_alike (begunPacket_alike p hout hw))

theorem advance_alike (h : Alike s t) : OutcomesAlike (advance s) (advance t) := by
  cases hw : s.wait with
  | idle =>
    have hw' := h.wait_eq.trans hw
    cases hc : s.cmd with
    | nil =>
      rw [advance_idle_empty hw hc, advance_idle_empty hw' (h.cmd_eq.trans hc)]
      exact .next h
    | cons p rest =>
      rw [advance_idle_packet hw hc, advance_idle_packet hw' (h.cmd_eq.trans hc)]
      exact runPacket_idle_alike p (congrArg (fun u : State => { u with cmd := rest }) h.outside) hw
  | mem q =>
    have hw' := h.wait_eq.trans hw
    cases hlive : s.readerLive with
    | true =>
      rw [advance_mem s q hw hlive, advance_mem t q hw' (h.readerLive_eq.trans hlive), h.mem_eq]
      exact .next (settle_alike (receiveMem_alike _ h hw))
    | false =>
      rw [advance_mem_unanswered hw hlive, advance_mem_unanswered hw' (h.readerLive_eq.trans hlive)]
      exact .fault _
  | reg q =>
    have hw' := h.wait_eq.trans hw
    cases hlive : s.readerLive with
    | true =>
      rw [advance_reg s q hw hlive, advance_reg t q hw' (h.readerLive_eq.trans hlive), h.regs_eq]
      exact .next (settle_alike (receiveReg_alike _ h hw))
    | false =>
      rw [advance_reg_unanswered hw hlive, advance_reg_unanswered hw' (h.readerLive_eq.trans hlive)]
      exact .fault _
  | rpt r =>
    have hw' := h.wait_eq.trans hw
    cases hready : s.sinkReady with
    | true =>
      rw [advance_rpt hw hready, advance_rpt hw' (h.sinkReady_eq.trans hready)]
      exact .next (settle_alike h)
    | false =>
      rw [advance_rpt_stalled hw hready, advance_rpt_stalled hw' (h.sinkReady_eq.trans hready)]
      exact .fault _

theorem takeTurn_alike (h : Alike s t) : OutcomesAlike (takeTurn s) (takeTurn t) := by
  have hadv := advance_alike h
  unfold takeTurn
  generalize advance s = o, advance t = o' at hadv ⊢
  cases hadv with
  | next h' => exact .next h'
  | fault f => exact .next h
  | refused r => exact .refused r

/-- A reset abandons the operation, and with it the registers it would read (R281). -/
theorem engineReset_alike (hout : s.withoutRegisters = t.withoutRegisters) : Alike (engineReset s) (engineReset t) :=
  alike_of_idle (congrArg (fun u : State => { u with wait := .idle }) hout) rfl

theorem resetMidway_alike (h : Alike s t) : Alike (resetMidway s) (resetMidway t) := by
  cases hw : s.wait with
  | idle =>
    rw [resetMidway_idle s hw, resetMidway_idle t (h.wait_eq.trans hw), h.cmd_eq]
    exact engineReset_alike (congrArg (fun u : State => { u with cmd := s.cmd.tail }) h.outside)
  | mem q | reg q =>
    rw [resetMidway_waiting s (by simp [hw]) (by simp [hw]),
      resetMidway_waiting t (by simp [h.wait_eq, hw]) (by simp [h.wait_eq, hw])]
    exact engineReset_alike h.outside
  | rpt r =>
    rw [resetMidway_pending s r hw, resetMidway_pending t r (h.wait_eq.trans hw)]
    exact engineReset_alike (congrArg (logRecord r) h.outside)

/-! ### Changes outside -/

/-- `s` with its CMD channel, its inputs, and its inspected system, reader and sink those of `o`. -/
def State.withOutside (s o : State) : State :=
  { s with
    cmd := o.cmd
    mem := o.mem
    regs := o.regs
    readerLive := o.readerLive
    sinkReady := o.sinkReady
    inputs := o.inputs }

theorem WalkAlike.withOutside (o : State) (h : WalkAlike s t) : WalkAlike (s.withOutside o) (t.withOutside o) := by
  obtain ⟨va, level, base, hs, ht⟩ := h
  exact ⟨va, level, base, hs.transfer rfl rfl rfl rfl rfl rfl, ht.transfer rfl rfl rfl rfl rfl rfl⟩

theorem EnumAlike.withOutside (o : State) (h : EnumAlike s t) : EnumAlike (s.withOutside o) (t.withOutside o) := by
  obtain ⟨c, stack, stack', level, f, h⟩ := h
  exact ⟨c, stack, stack', level, f,
    h.transfer ⟨rfl, rfl, rfl, rfl, rfl, rfl, rfl⟩ ⟨rfl, rfl, rfl, rfl, rfl, rfl, rfl⟩⟩

theorem LiveAlike.withOutside (o : State) (h : LiveAlike s t) : LiveAlike (s.withOutside o) (t.withOutside o) := by
  have hwait : (s.withOutside o).wait = s.wait := rfl
  unfold LiveAlike at h ⊢
  rw [hwait]
  cases hw : s.wait with
  | idle => trivial
  | mem q =>
    rw [hw] at h
    obtain ⟨hregs, hea⟩ := h
    exact ⟨hregs.imp (WalkAlike.withOutside o) (EnumAlike.withOutside o), hea⟩
  | reg q =>
    rw [hw] at h
    exact ⟨h.op_walk, h.op_eq, h.a0_eq, h.va_eq, h.t0_eq⟩
  | rpt r =>
    rw [hw] at h
    cases r
    case wEntry =>
      obtain ⟨hwalk, hea, hd⟩ := h
      exact ⟨hwalk.withOutside o, hea, hd⟩
    case eEntry =>
      obtain ⟨henum, hd⟩ := h
      exact ⟨henum.withOutside o, hd⟩
    case eUnread | eTableEnd => exact EnumAlike.withOutside o h
    all_goals trivial

/-- A change outside the registers, the same for both, keeps two engines alike. -/
theorem Alike.outside_changed (g : State → State) (h : Alike s t) :
    Alike (s.withOutside (g s.withoutRegisters)) (t.withOutside (g t.withoutRegisters)) := by
  obtain ⟨hout, hlive⟩ := h
  rw [← hout]
  exact ⟨congrArg (State.withOutside · _) hout, hlive.withOutside _⟩

theorem absorb_alike (i : Input) (h : Alike s t) : OutcomesAlike (absorb i s) (absorb i t) := by
  cases i with
  | turn => exact takeTurn_alike h
  | command p => exact .next (h.outside_changed (hold p))
  | reset => exact .next (engineReset_alike h.outside)
  | resetMidway => exact .next (resetMidway_alike h)
  | setSink ready => exact .next (h.outside_changed fun u => { u with sinkReady := ready })
  | setReader live => exact .next (h.outside_changed fun u => { u with readerLive := live })
  | memoryChange address value =>
    exact .next (h.outside_changed fun u => { u with mem := u.mem.setByte address value })
  | memoryFails address fails =>
    exact .next (h.outside_changed fun u => { u with mem := u.mem.setFailing address fails })
  | registerChange sel value => exact .next (h.outside_changed fun u => { u with regs := u.regs.set sel value })
  | memAnswer tag answer =>
    by_cases hq : ∃ q, s.wait = .mem q ∧ q.tag = tag
    · obtain ⟨q, hw, rfl⟩ := hq
      rw [absorb_memAnswer answer s q hw, absorb_memAnswer answer t q (h.wait_eq.trans hw)]
      exact .next (settle_alike (receiveMem_alike answer h hw))
    · rw [absorb_memAnswer_late answer fun q hw ht => hq ⟨q, hw, ht⟩,
        absorb_memAnswer_late answer fun q hw ht => hq ⟨q, h.wait_eq.symm.trans hw, ht⟩]
      exact .next h
  | regAnswer tag answer =>
    by_cases hq : ∃ q, s.wait = .reg q ∧ q.tag = tag
    · obtain ⟨q, hw, rfl⟩ := hq
      rw [absorb_regAnswer answer s q hw, absorb_regAnswer answer t q (h.wait_eq.trans hw)]
      exact .next (settle_alike (receiveReg_alike answer h hw))
    · rw [absorb_regAnswer_late answer fun q hw ht => hq ⟨q, hw, ht⟩,
        absorb_regAnswer_late answer fun q hw ht => hq ⟨q, h.wait_eq.symm.trans hw, ht⟩]
      exact .next h
  | sinkTake =>
    by_cases hr : ∃ r, s.wait = .rpt r
    · obtain ⟨r, hw⟩ := hr
      rw [absorb_sinkTake_pending hw, absorb_sinkTake_pending (h.wait_eq.trans hw)]
      exact .next (settle_alike (takeRecord_alike h hw))
    · rw [absorb_sinkTake_nothing fun r hw => hr ⟨r, hw⟩,
        absorb_sinkTake_nothing fun r hw => hr ⟨r, h.wait_eq.symm.trans hw⟩]
      exact .next h

theorem step_alike (h : Alike s t) : OutcomesAlike (step s) (step t) := by
  cases hin : s.inputs with
  | nil =>
    rw [step_no_input s hin, step_no_input t (h.inputs_eq.trans hin)]
    exact advance_alike h
  | cons i rest =>
    rw [step_input s i rest hin, step_input t i rest (h.inputs_eq.trans hin)]
    exact absorb_alike i (h.outside_changed fun u => { u with inputs := rest })

theorem run_alike (n : Nat) : ∀ {s t : State}, Alike s t →
    OutcomesAlike (Sys2Proof.core.run n s) (Sys2Proof.core.run n t) := by
  induction n with
  | zero => exact .next
  | succ n ih =>
    intro s t h
    have hstep : OutcomesAlike (Sys2Proof.core.step s) (Sys2Proof.core.step t) := step_alike h
    simp only [Host.Core.run]
    generalize Sys2Proof.core.step s = o, Sys2Proof.core.step t = o' at hstep ⊢
    cases hstep with
    | next h' => exact ih h'
    | fault f => exact .fault f
    | refused r => exact .refused r

end

/-- Settles O49: on idle engines that agree outside the registers every instruction and packet begins alike. -/
theorem commandsIgnoreOldRegisters : Obligations.CommandsIgnoreOldRegisters := by
  unfold Obligations.CommandsIgnoreOldRegisters
  exact fun s s' hw hout => ⟨fun i => (exec_idle_alike i hout hw).agree, fun p => (runPacket_idle_alike p hout hw).agree⟩

/-- Settles O50: idle engines that agree outside the registers are alike, and runs keep them alike. -/
theorem runsIgnoreOldRegisters : Obligations.RunsIgnoreOldRegisters := by
  unfold Obligations.RunsIgnoreOldRegisters
  exact fun s s' hw hout n => (run_alike n (alike_of_idle hout hw)).agree

end Sys2Proof.Machine
end

section
/-!
The tree of an enumeration (O57): what one index adds to a table's children, then the loop over a table's indices, then the tables
below one another (R28, R29).
-/
namespace Sys2Proof.Machine

/-! ### One index of a table's loop -/

/-- What a visited index may add to its table's children (R28): nothing for an Invalid entry, an unreadable one, or an entry,
which has a table below it when it is a Table. -/
inductive Visited (sub : PA → Word → Nat → TableRun) (level : Level) (base : PA) (index : BitVec 9) :
    Option Child → Prop where
  | invalid : Visited sub level base index none
  | unread : Visited sub level base index (some (.unread level base index (entryAddress base index)))
  | leaf {d : Descriptor} (raw vprefix : Word) (hd : decodeDescriptor raw level = d) (hleaf : d.isLeaf = true) :
      Visited sub level base index (some (.entry level base index (entryAddress base index) raw vprefix d none))
  | table {oa : PA} {p : Perm} {w : Bool} (raw vprefix cp : Word) (n : Nat)
      (hd : decodeDescriptor raw level = .table oa p w) :
      Visited sub level base index
        (some (.entry level base index (entryAddress base index) raw vprefix (.table oa p w) (some (sub oa cp n).node)))

section
variable {read : Reader} {sub : PA → Word → Nat → TableRun} {filt : Bool} {cap : Nat} {level : Level} {base : PA}
  {vprefix : Word} {i : Nat} {rest : List Nat} {emitted : Nat}

/-- Below the cap the loop visits its next index, counts the entry it finds there, and goes on (R200 to R204). -/
theorem enumLoop_visits (hc : capReached filt cap emitted = false) (n : Nat) :
    ∃ child m,
      Visited sub level base (BitVec.ofNat 9 i) child ∧
      let r := enumLoop read sub filt cap level base vprefix rest (emitted + entryCount child.toList) m
      (enumLoop read sub filt cap level base vprefix (i :: rest) emitted n).children = child.toList ++ r.children ∧
        (enumLoop read sub filt cap level base vprefix (i :: rest) emitted n).emitted = r.emitted := by
  cases hb : read n ((entryAddress base (BitVec.ofNat 9 i)).setWidth 64) with
  | none =>
    refine ⟨_, n + 1, .unread, ?_⟩
    simp [enumLoop, hc, hb, entryCount]
  | some b =>
    cases hd : decodeDescriptor (le64 b) level with
    | invalid =>
      refine ⟨_, n + 1, .invalid, ?_⟩
      simp [enumLoop, hc, hb, hd, entryCount]
    | table oa p w =>
      let cp := childPrefix vprefix (BitVec.ofNat 9 i) level
      refine ⟨_, (sub oa cp (n + 1)).requests, .table (le64 b) (recordedPrefix cp) cp (n + 1) hd, ?_⟩
      simp [enumLoop, hc, hb, hd, entryCount, cp]
    | block oa p | page oa p =>
      let cp := childPrefix vprefix (BitVec.ofNat 9 i) level
      refine ⟨_, n + 1, .leaf (le64 b) (recordedPrefix cp) hd rfl, ?_⟩
      simp [enumLoop, hc, hb, hd, entryCount, cp]

/-! ### The children of a table -/

/-- Every entry has an index. -/
theorem entryCount_le_childIndices_length (children : List Child) : entryCount children ≤ (childIndices children).length := by
  induction children with
  | nil => exact le_refl 0
  | cons child rest ih =>
    cases child with
    | unread => exact ih.trans (Nat.le_succ _)
    | entry => exact Nat.succ_le_succ ih

theorem entryCount_append (children rest : List Child) :
    entryCount (children ++ rest) = entryCount children + entryCount rest := by
  induction children with
  | nil => simp [entryCount]
  | cons child tail ih =>
    cases child with
    | unread => exact ih
    | entry =>
      simp only [List.cons_append, entryCount, ih]
      omega

variable {bound left : Nat}

/-- What a visited index adds has the shape of R28, given the shape of the tables below. -/
theorem Visited.childrenShaped {index : BitVec 9} {child : Option Child} {children : List Child}
    (h : Visited sub level base index child)
    (hsub : level ≠ .l3 → ∀ oa cp n, (sub oa cp n).node.shaped bound left level.succ)
    (hrest : childrenShaped bound left level base children) :
    childrenShaped bound left level base (child.toList ++ children) := by
  cases h with
  | invalid => exact hrest
  | unread => exact ⟨rfl, rfl, rfl, hrest⟩
  | leaf raw vprefix hd hleaf =>
    refine ⟨rfl, rfl, rfl, hd.symm, ?_, ?_, hrest⟩
    · rintro rfl
      cases hleaf
    · rintro oa p w rfl
      cases hleaf
  | table raw vprefix cp n hd =>
    exact ⟨rfl, rfl, rfl, hd.symm, ⟨_, _, _, rfl⟩, hsub (decodeDescriptor_table_level hd) _ _ _, hrest⟩

theorem Visited.childIndices_sublist {index : BitVec 9} {child : Option Child} {children : List Child} {indices : List Nat}
    (h : Visited sub level base index child) (hrest : (childIndices children).Sublist indices) :
    (childIndices (child.toList ++ children)).Sublist (index.toNat :: indices) := by
  cases h with
  | invalid => exact hrest.cons _
  | unread | leaf | table => exact hrest.cons_cons _

/-- The loop of a table gives children of the right shape, at some of its indices in their order, and counts the entries. -/
theorem enumLoop_shaped (hsub : level ≠ .l3 → ∀ oa cp n, (sub oa cp n).node.shaped bound left level.succ)
    (indices : List Nat) (hindices : ∀ i ∈ indices, i < 512) :
    ∀ emitted n, let r := enumLoop read sub filt cap level base vprefix indices emitted n
      childrenShaped bound left level base r.children ∧ (childIndices r.children).Sublist indices ∧
        r.emitted = emitted + entryCount r.children := by
  induction indices with
  | nil => exact fun _ _ => ⟨trivial, List.Sublist.refl _, rfl⟩
  | cons i rest ih =>
    intro emitted n r
    cases hc : capReached filt cap emitted with
    | true =>
      have hr : r = _ := enumLoop_capped hc
      rw [hr]
      exact ⟨trivial, List.nil_sublist _, rfl⟩
    | false =>
      obtain ⟨child, m, hvisited, hchildren, hemitted⟩ := enumLoop_visits (read := read) (sub := sub) (level := level)
        (base := base) (vprefix := vprefix) (i := i) (rest := rest) hc n
      obtain ⟨hshaped, hsublist, hcount⟩ :=
        ih (fun j hj => hindices j (List.mem_cons_of_mem _ hj)) (emitted + entryCount child.toList) m
      have hi : (BitVec.ofNat 9 i).toNat = i := by
        have := hindices i List.mem_cons_self
        simp only [BitVec.toNat_ofNat]
        omega
      rw [show r.children = _ from hchildren, show r.emitted = _ from hemitted, entryCount_append, hcount, Nat.add_assoc]
      exact ⟨hvisited.childrenShaped hsub hshaped, hi ▸ hvisited.childIndices_sublist hsublist, rfl⟩

/-- Without a filter the cap bounds the count (R204). -/
theorem enumLoop_emitted_le_cap (indices : List Nat) : ∀ emitted n, emitted ≤ cap →
    (enumLoop read sub false cap level base vprefix indices emitted n).emitted ≤ cap := by
  induction indices with
  | nil => exact fun _ _ h => h
  | cons i rest ih =>
    intro emitted n hle
    cases hc : capReached false cap emitted with
    | true =>
      rw [enumLoop_capped hc]
      exact hle
    | false =>
      obtain ⟨child, m, hvisited, -, hemitted⟩ := enumLoop_visits (read := read) (sub := sub) (level := level)
        (base := base) (vprefix := vprefix) (i := i) (rest := rest) hc n
      have hlt : emitted < cap := by simpa [capReached] using hc
      have hone : entryCount child.toList ≤ 1 := by cases hvisited <;> simp [entryCount]
      rw [hemitted]
      exact ih _ m (by omega)

end

/-! ### The indices of a table, and the bound on its count -/

theorem tableIndices_lt (filter : Option Word) (level : Level) : ∀ i ∈ tableIndices filter level, i < 512 := by
  cases filter with
  | none => simp [tableIndices]
  | some v => simpa [tableIndices] using (indexAt v level).isLt

theorem tableIndices_ascending (filter : Option Word) (level : Level) : (tableIndices filter level).Pairwise (· < ·) := by
  cases filter with
  | none => exact List.pairwise_lt_range
  | some v => exact List.pairwise_singleton _ _

/-- The most entries a table can have (R29). -/
def entryBound (filter : Option Word) (cap : Nat) : Nat := if filter.isSome then 1 else min cap 512

/-- The count of a table keeps to the bound: by its indices, and without a filter by the cap too. -/
theorem enumLoop_emitted_le_bound {read : Reader} {sub : PA → Word → Nat → TableRun} (filter : Option Word) (cap : Nat)
    (level : Level) (base : PA) (vprefix : Word) (n : Nat)
    (hle : (enumLoop read sub filter.isSome cap level base vprefix (tableIndices filter level) 0 n).emitted ≤
      (tableIndices filter level).length) :
    (enumLoop read sub filter.isSome cap level base vprefix (tableIndices filter level) 0 n).emitted ≤
      entryBound filter cap := by
  cases filter with
  | none =>
    refine le_min (enumLoop_emitted_le_cap _ 0 n (Nat.zero_le _)) (hle.trans ?_)
    simp [tableIndices]
  | some v => exact hle

/-! ### The tables below one another -/

theorem enumTable_shaped_succ {read : Reader} {filter : Option Word} {cap left : Nat} {level : Level}
    (hsub : level ≠ .l3 →
      ∀ oa cp n, (enumTable read filter cap left level.succ oa cp n).node.shaped (entryBound filter cap) left level.succ)
    (base : PA) (vprefix : Word) (n : Nat) :
    (enumTable read filter cap (left + 1) level base vprefix n).node.shaped (entryBound filter cap) (left + 1) level := by
  obtain ⟨hshaped, hsublist, hcount⟩ := enumLoop_shaped (read := read) (filt := filter.isSome) (cap := cap) (base := base)
    (vprefix := vprefix) hsub (tableIndices filter level) (tableIndices_lt filter level) 0 n
  rw [Nat.zero_add] at hcount
  refine ⟨rfl, hcount, enumLoop_emitted_le_bound filter cap level base vprefix n ?_,
    (tableIndices_ascending filter level).sublist hsublist, hshaped⟩
  rw [hcount]
  exact (entryCount_le_childIndices_length _).trans hsublist.length_le

theorem enumTable_shaped {read : Reader} {filter : Option Word} {cap : Nat} (left : Nat) :
    ∀ level : Level, level.toNat + left = 4 → ∀ base vprefix n,
      (enumTable read filter cap left level base vprefix n).node.shaped (entryBound filter cap) left level := by
  induction left with
  | zero =>
    intro level hleft
    have := Level.toNat_le level
    omega
  | succ left ih =>
    intro level hleft
    refine enumTable_shaped_succ fun hl => ih level.succ ?_
    have := Level.toNat_succ level hl
    omega

/-- Settles O57, by the levels left below a table. -/
theorem enumerationTreeIsBounded : Obligations.EnumerationTreeIsBounded := by
  unfold Obligations.EnumerationTreeIsBounded
  intro read base vprefix level filter cap
  have := Level.toNat_le level
  exact enumTable_shaped (4 - level.toNat) level (by omega) (tableBaseOf base) vprefix 0

end Sys2Proof.Machine
end

section
/-!
The moves of the engine as a whole: what a move is made of, that none writes the inspected system (O47), and that a ready sink leaves
no record pending after one (O48).
-/
namespace Sys2Proof.Machine

/-! ### What an operation begun leaves alone -/

section
variable {s t u : State}

theorem begun_extends (i : Instr) (s : State) : Extends s (begun i s) := by
  cases i
  case decompose x | selroot x | decode level x | describe x => exact (latch_extends _ s).trans (offer_extends _ _)
  case walk x =>
    let p : Packet := commandPacket 4#4 0#2 0#10 x
    let s1 : State := { latch p s with t0 := x.a1, t1 := x.a2 }
    exact Extends.trans (t := s1) (latch_extends p s) (walkBegin_extends _ s1)
  case walkr x | walkpc x => exact (latch_extends _ s).trans (requestReg_extends _ _)
  case enum level cap x =>
    let p : Packet := commandPacket 7#4 level.bits cap x
    let s1 : State := { latch p s with filt := false }
    exact Extends.trans (t := s1) (latch_extends p s) (enumBegin_extends _ _ _ s1)
  case enumt level cap x =>
    let p : Packet := commandPacket 8#4 level.bits cap x
    let s1 : State := { latch p s with filt := true, target := x.a2 }
    exact Extends.trans (t := s1) (latch_extends p s) (enumBegin_extends _ _ _ s1)
  all_goals exact Extends.refl s

theorem begunPacket_extends (p : Packet) (s : State) : Extends s (begunPacket p s) := by
  unfold begunPacket
  split
  · exact begun_extends _ s
  · exact (latch_extends p s).trans (offer_extends _ _)

/-- The inspected system is as it was, and the events so far stay, with new ones after them. -/
def OnlyReads (s t : State) : Prop := t.mem = s.mem ∧ t.regs = s.regs ∧ ∃ events, t.trace = s.trace ++ events

theorem OnlyReads.refl (s : State) : OnlyReads s s := ⟨rfl, rfl, [], by simp⟩

theorem OnlyReads.trans (h : OnlyReads s t) (k : OnlyReads t u) : OnlyReads s u := by
  obtain ⟨hmem, hregs, es, htrace⟩ := h
  obtain ⟨kmem, kregs, fs, ktrace⟩ := k
  exact ⟨kmem.trans hmem, kregs.trans hregs, es ++ fs, by rw [ktrace, htrace, List.append_assoc]⟩

theorem Extends.onlyReads (h : Extends s t) : OnlyReads s t := by
  obtain ⟨hmem, hregs, -, -, -, -, -, htrace⟩ := h
  exact ⟨hmem, hregs, htrace⟩

theorem settle_onlyReads (s : State) : OnlyReads s (settle s) := (settle_extends s).onlyReads

/-! ### What a move is made of -/

/-- What holds of the state `u` a move from `s` reaches before the sink takes what is then pending. -/
structure Moves (s u : State) : Prop where
  onlyReads : OnlyReads s u
  sinkReady_eq : u.sinkReady = s.sinkReady
  keepsInv : s.Inv → u.Inv

/-- A move of the engine changes nothing, or carries the operation on and has the sink take what is then pending. -/
theorem advance_cases (h : advance s = .next t) : (t = s ∧ s.wait = .idle) ∨ ∃ u, t = settle u ∧ Moves s u := by
  cases hw : s.wait with
  | idle =>
    cases hc : s.cmd with
    | nil =>
      cases (advance_idle_empty hw hc).symm.trans h
      exact .inl ⟨rfl, rfl⟩
    | cons p rest =>
      rw [advance_idle_packet hw hc, runPacket_idle p { s with cmd := rest } hw] at h
      cases h
      have hext := begunPacket_extends p { s with cmd := rest }
      exact .inr ⟨_, rfl, hext.onlyReads, hext.sinkReady_eq, fun hs => begunPacket_inv p hs.past hw⟩
  | mem q =>
    cases hlive : s.readerLive with
    | true =>
      cases (advance_mem s q hw hlive).symm.trans h
      have hext := receiveMem_extends (s.mem.read8 q.address) s
      exact .inr ⟨_, rfl, hext.onlyReads, hext.sinkReady_eq, fun hs => receiveMem_inv _ hs hw⟩
    | false => cases (advance_mem_unanswered hw hlive).symm.trans h
  | reg q =>
    cases hlive : s.readerLive with
    | true =>
      cases (advance_reg s q hw hlive).symm.trans h
      have hext := receiveReg_extends q.sel (s.regs.get q.sel) s
      exact .inr ⟨_, rfl, hext.onlyReads, hext.sinkReady_eq, fun hs => receiveReg_inv _ hs hw⟩
    | false => cases (advance_reg_unanswered hw hlive).symm.trans h
  | rpt r =>
    cases hready : s.sinkReady with
    | true =>
      cases (advance_rpt hw hready).symm.trans h
      exact .inr ⟨s, rfl, OnlyReads.refl s, rfl, id⟩
    | false => cases (advance_rpt_stalled hw hready).symm.trans h

/-- A turn is the engine's own move, or passes when it has none. -/
theorem takeTurn_cases (h : takeTurn s = .next t) : advance s = .next t ∨ t = s ∧ ∃ f, advance s = .fault f := by
  cases hadv : advance s with
  | next u => exact .inl ((takeTurn_next s u hadv).symm.trans h)
  | fault f =>
    cases (takeTurn_fault s f hadv).symm.trans h
    exact .inr ⟨rfl, f, rfl⟩
  | refused r => simp [takeTurn, hadv] at h

/-- The step of an engine whose turn it is. -/
theorem step_turnDue_cases {due : List Input} (hdue : s.turnDue due) (h : step s = .next t) :
    advance { s with inputs := due } = .next t ∨
      t = { s with inputs := due } ∧ ∃ f, advance { s with inputs := due } = .fault f := by
  rcases hdue with ⟨hin, rfl⟩ | hin
  · rw [step_no_input s hin] at h
    exact .inl (hin ▸ h)
  · exact takeTurn_cases ((step_input s _ due hin).symm.trans h)

/-! ### The engine only reads (R67) -/

theorem advance_onlyReads (h : advance s = .next t) : OnlyReads s t := by
  rcases advance_cases h with ⟨rfl, -⟩ | ⟨u, rfl, hmoves⟩
  · exact OnlyReads.refl _
  · exact hmoves.onlyReads.trans (settle_onlyReads u)

theorem takeTurn_onlyReads (h : takeTurn s = .next t) : OnlyReads s t := by
  rcases takeTurn_cases h with hadv | ⟨rfl, -⟩
  · exact advance_onlyReads hadv
  · exact OnlyReads.refl _

theorem resetMidway_onlyReads (s : State) : OnlyReads s (resetMidway s) := by
  cases hw : s.wait with
  | idle => exact resetMidway_idle s hw ▸ ⟨rfl, rfl, [], by simp⟩
  | mem q | reg q => exact resetMidway_waiting s (by simp [hw]) (by simp [hw]) ▸ (engineReset_extends s).onlyReads
  | rpt r =>
    exact resetMidway_pending s r hw ▸ ((logRecord_extends r s).trans (engineReset_extends _)).onlyReads

/-- The outstanding request's answer is received, any other is discarded (R281); so for a register's answer. -/
theorem memAnswer_onlyReads {tag : Nat} {answer : Option Bytes8} (h : absorb (.memAnswer tag answer) s = .next t) :
    OnlyReads s t := by
  by_cases hq : ∃ q, s.wait = .mem q ∧ q.tag = tag
  · obtain ⟨q, hw, rfl⟩ := hq
    cases (absorb_memAnswer answer s q hw).symm.trans h
    exact (receiveMem_extends answer s).onlyReads.trans (settle_onlyReads _)
  · cases (absorb_memAnswer_late answer fun q hw ht => hq ⟨q, hw, ht⟩).symm.trans h
    exact OnlyReads.refl _

theorem regAnswer_onlyReads {tag : Nat} {answer : Option Word} (h : absorb (.regAnswer tag answer) s = .next t) :
    OnlyReads s t := by
  by_cases hq : ∃ q, s.wait = .reg q ∧ q.tag = tag
  · obtain ⟨q, hw, rfl⟩ := hq
    cases (absorb_regAnswer answer s q hw).symm.trans h
    exact (receiveReg_extends q.sel answer s).onlyReads.trans (settle_onlyReads _)
  · cases (absorb_regAnswer_late answer fun q hw ht => hq ⟨q, hw, ht⟩).symm.trans h
    exact OnlyReads.refl _

theorem sinkTake_onlyReads (h : absorb .sinkTake s = .next t) : OnlyReads s t := by
  by_cases hr : ∃ r, s.wait = .rpt r
  · obtain ⟨r, hw⟩ := hr
    cases (absorb_sinkTake_pending hw).symm.trans h
    exact (takeRecord_extends r s).onlyReads.trans (settle_onlyReads _)
  · cases (absorb_sinkTake_nothing fun r hw => hr ⟨r, hw⟩).symm.trans h
    exact OnlyReads.refl _

/-- What absorbing the input `i` may change of the inspected system: its memory when `i` is the outside changing it, its registers
when `i` is the outside changing them, and the events only grow. -/
def ReadsExcept (i : Input) (s t : State) : Prop :=
  ((∀ a b, i ≠ .memoryChange a b) → (∀ a b, i ≠ .memoryFails a b) → t.mem = s.mem) ∧
    ((∀ sel v, i ≠ .registerChange sel v) → t.regs = s.regs) ∧ ∃ events, t.trace = s.trace ++ events

theorem OnlyReads.readsExcept (h : OnlyReads s t) (i : Input) : ReadsExcept i s t := by
  obtain ⟨hmem, hregs, htrace⟩ := h
  exact ⟨fun _ _ => hmem, fun _ => hregs, htrace⟩

theorem absorb_readsExcept {i : Input} (h : absorb i s = .next t) : ReadsExcept i s t := by
  cases i with
  | turn => exact (takeTurn_onlyReads h).readsExcept _
  | memAnswer tag answer => exact (memAnswer_onlyReads h).readsExcept _
  | regAnswer tag answer => exact (regAnswer_onlyReads h).readsExcept _
  | sinkTake => exact (sinkTake_onlyReads h).readsExcept _
  | reset =>
    cases h
    exact (engineReset_extends s).onlyReads.readsExcept _
  | resetMidway =>
    cases h
    exact (resetMidway_onlyReads s).readsExcept _
  | command p | setSink ready | setReader live =>
    cases h
    exact (OnlyReads.refl s).readsExcept _
  | memoryChange address value =>
    cases h
    exact ⟨fun hne _ => absurd rfl (hne address value), fun _ => rfl, [], by simp⟩
  | memoryFails address fails =>
    cases h
    exact ⟨fun _ hne => absurd rfl (hne address fails), fun _ => rfl, [], by simp⟩
  | registerChange sel value =>
    cases h
    exact ⟨fun _ _ => rfl, fun hne => absurd rfl (hne sel value), [], by simp⟩

end

/-- Settles O47: the engine's own moves only read, and each input changes no more than it says. -/
theorem theEngineOnlyReads : Obligations.TheEngineOnlyReads := by
  unfold Obligations.TheEngineOnlyReads
  intro s t hstep
  cases hin : s.inputs with
  | nil =>
    obtain ⟨hmem, hregs, htrace⟩ := advance_onlyReads ((step_no_input s hin).symm.trans hstep)
    exact ⟨fun _ _ => hmem, fun _ => hregs, htrace⟩
  | cons i rest =>
    obtain ⟨hmem, hregs, htrace⟩ := absorb_readsExcept ((step_input s i rest hin).symm.trans hstep)
    refine ⟨fun hchange hfails => hmem (fun a b hi => ?_) (fun a b hi => ?_), fun hreg => hregs fun sel v hi => ?_, htrace⟩
    · exact hchange rest a b (hi ▸ rfl)
    · exact hfails rest a b (hi ▸ rfl)
    · exact hreg rest sel v (hi ▸ rfl)

/-! ### A ready sink leaves nothing pending (R71) -/

section
variable {s : State}

/-- A bound on the records an operation offers in a row from this one on, itself counted (notes/assumptions/4.md): after a table's
end those of the tables it lies in, and `R_ENUM_DONE`; after an entry or an unreadable index at most the ends of four tables more. -/
def Record.inARow : Record → Nat
  | .wEntry _ _ _ _ _ _ => 2
  | .eEntry _ _ _ _ _ _ _ | .eUnread _ _ _ _ => 6
  | .eTableEnd level _ _ _ => level.toNat + 2
  | .rDecomp _ | .rRoot _ | .rDesc _ | .rPerm _ | .rMapped _ _ _ | .rFault _ _ _ | .rAbort _ _ | .rEnumDone
  | .rIllegal _ => 1

theorem Record.inARow_le_six (r : Record) : r.inARow ≤ 6 := by
  cases r
  case eTableEnd level base emitted truncated => have := level.toNat_le; simp only [Record.inARow]; omega
  all_goals simp [Record.inARow]

/-- At most `n` records are offered in a row from `s` on. -/
def State.OffersAtMost (n : Nat) (s : State) : Prop := ∀ r, s.wait = .rpt r → r.inARow ≤ n

theorem offersAtMost_of_not_pending (n : Nat) (h : ∀ r, s.wait ≠ .rpt r) : s.OffersAtMost n := fun r hr => absurd hr (h r)

theorem offer_offersAtMost {n : Nat} {r : Record} (s : State) (h : r.inARow ≤ n) : (offer r s).OffersAtMost n := by
  rintro r' hr
  cases hr
  exact h

theorem State.OffersAtMost.mono {n m : Nat} (h : s.OffersAtMost n) (hle : n ≤ m) : s.OffersAtMost m :=
  fun r hr => (h r hr).trans hle

theorem requestMem_offersAtMost (n : Nat) (ea : PA) (s : State) : (requestMem ea s).OffersAtMost n :=
  offersAtMost_of_not_pending n (by simp)

theorem finish_offersAtMost (n : Nat) (s : State) : (finish s).OffersAtMost n :=
  offersAtMost_of_not_pending n (by simp)

/-- The loop head closes its table at most. -/
theorem enumVisit_offersAtMost (s : State) : (enumVisit s).OffersAtMost (s.top.toNat + 2) := by
  unfold enumVisit
  split
  · exact offer_offersAtMost s (le_refl _)
  · split
    · exact offer_offersAtMost (setTopFrame _ s) (le_refl _)
    · exact requestMem_offersAtMost _ _ s

theorem enumAdvance_offersAtMost (s : State) : (enumAdvance s).OffersAtMost (s.top.toNat + 2) :=
  enumVisit_offersAtMost (setTopFrame _ s)

theorem enumVisit_offersAtMost_five (s : State) : (enumVisit s).OffersAtMost 5 :=
  (enumVisit_offersAtMost s).mono (by have := s.top.toNat_le; omega)

theorem afterWEntry_offersAtMost (s : State) : (afterWEntry s).OffersAtMost 1 := by
  unfold afterWEntry
  split
  · exact offer_offersAtMost _ (le_refl _)
  · exact requestMem_offersAtMost _ _ _
  · exact offer_offersAtMost _ (le_refl _)
  · exact offer_offersAtMost _ (le_refl _)

theorem afterEEntry_offersAtMost (s : State) : (afterEEntry s).OffersAtMost 5 := by
  unfold afterEEntry
  cases s.desc <;> exact enumVisit_offersAtMost_five _

/-- The end of a table is followed by the end of the table it lies in, at the level above, or by `R_ENUM_DONE`. -/
theorem afterTableEnd_offersAtMost (hs : s.stackSound) : (afterTableEnd s).OffersAtMost (s.top.toNat + 1) := by
  unfold afterTableEnd
  split
  · exact offer_offersAtMost s (by simp [Record.inARow])
  · next hne =>
    obtain ⟨-, -, hle, -⟩ := hs
    have hpred : s.top.pred.toNat + 1 = s.top.toNat := by
      refine Level.toNat_pred s.top fun h0 => hne (Level.toNat_inj _ _ ?_)
      rw [h0] at hle ⊢
      exact (Nat.le_zero.mp hle).symm
    exact (enumAdvance_offersAtMost { s with top := s.top.pred }).mono (by simp only; omega)

/-- Each record taken leaves fewer to come. -/
theorem takeRecord_offersAtMost {n : Nat} {r : Record} (h : s.Inv) (hw : s.wait = .rpt r) (hn : r.inARow ≤ n + 1) :
    (takeRecord r s).OffersAtMost n := by
  have hwait := h.wait_sound
  simp only [State.waitSound, hw] at hwait
  obtain ⟨-, hregs⟩ := hwait
  cases r
  case wEntry => exact (afterWEntry_offersAtMost _).mono (Nat.le_of_succ_le_succ hn)
  case eEntry => exact (afterEEntry_offersAtMost _).mono (Nat.le_of_succ_le_succ hn)
  case eUnread => exact (enumVisit_offersAtMost_five _).mono (Nat.le_of_succ_le_succ hn)
  case eTableEnd =>
    obtain ⟨hstack, rfl, -⟩ := hregs
    exact (afterTableEnd_offersAtMost (s := logRecord _ s) hstack).mono (Nat.le_of_succ_le_succ hn)
  all_goals exact finish_offersAtMost n (logRecord _ s)

theorem drain_takes_all (n : Nat) : ∀ {s : State}, s.Inv → s.sinkReady = true → s.OffersAtMost n →
    ∀ r, (drain n s).wait ≠ .rpt r := by
  induction n with
  | zero =>
    intro s _ _ hn r hw
    have hr := hn r hw
    cases r <;> cases hr
  | succ n ih =>
    intro s h hready hn r
    by_cases hp : ∃ r, s.wait = .rpt r
    · obtain ⟨r', hw⟩ := hp
      rw [drain_pending n s r' hw hready]
      exact ih (takeRecord_inv h hw) ((takeRecord_extends r' s).sinkReady_eq.trans hready)
        (takeRecord_offersAtMost h hw (hn r' hw)) r
    · rw [drain_of_not_pending _ s fun r hw => hp ⟨r, hw⟩]
      exact fun hw => hp ⟨r, hw⟩

/-- A ready sink takes every record a sound engine offers before its next request. -/
theorem settle_takes_all (h : s.Inv) (hready : s.sinkReady = true) : ∀ r, (settle s).wait ≠ .rpt r :=
  drain_takes_all 6 h hready fun r _ => r.inARow_le_six

end

/-- Settles O48: no more than six records come in a row, and each is taken. -/
theorem readySinkLeavesNothingPending : Obligations.ReadySinkLeavesNothingPending := by
  unfold Obligations.ReadySinkLeavesNothingPending
  intro due s t hinv hdue hready hstep r
  rcases step_turnDue_cases hdue hstep with hadv | ⟨rfl, f, hadv⟩
  · rcases advance_cases hadv with ⟨rfl, hidle⟩ | ⟨u, rfl, hmoves⟩
    · exact fun hw => nomatch hidle.symm.trans hw
    · exact settle_takes_all (hmoves.keepsInv hinv) (hmoves.sinkReady_eq.trans hready) r
  · intro hw
    cases (advance_rpt hw hready).symm.trans hadv

end Sys2Proof.Machine
end

section
/-!
The inspected memory as the engine reads it: byte order (O10), entry addresses (O11), and a word stored and read back (O15).
-/
namespace Sys2Proof.Machine

/-! ### Byte order (R63) -/

/-- Eight bytes side by side, each shifted to its place: the lowest address lowest. -/
theorem le64_eq_or (b : Bytes8) :
    le64 b =
      b.b0.setWidth 64 ||| (b.b1.setWidth 64 <<< 8) ||| (b.b2.setWidth 64 <<< 16) ||| (b.b3.setWidth 64 <<< 24) |||
        (b.b4.setWidth 64 <<< 32) ||| (b.b5.setWidth 64 <<< 40) ||| (b.b6.setWidth 64 <<< 48) |||
        (b.b7.setWidth 64 <<< 56) := by
  have hwide : le64 b = (b.b7 ++ b.b6 ++ b.b5 ++ b.b4 ++ b.b3 ++ b.b2 ++ b.b1 ++ b.b0).setWidth 64 :=
    (BitVec.setWidth_eq _).symm
  rw [hwide]
  iterate 7 rw [BitVec.setWidth_append_eq_shiftLeft_setWidth_or]
  simp only [BitVec.shiftLeft_or_distrib, ← BitVec.shiftLeft_add, Nat.reduceAdd]
  simp only [BitVec.or_assoc, BitVec.or_comm]

/-- Adjacent bytes of a word, put together, are the wider slice, and in the end the word. -/
theorem le64_bytesOf (w : Word) : le64 (bytesOf w) = w := by
  simp only [le64, bytesOf, BitVec.extractLsb'_append_extractLsb'_eq_extractLsb']
  exact BitVec.extractLsb'_eq_self

/-- Each slice of eight bytes side by side is the byte that stands there. -/
theorem bytesOf_le64 (b : Bytes8) : bytesOf (le64 b) = b := by
  simp (disch := omega) only [bytesOf, le64, BitVec.extractLsb'_append_eq_of_le, BitVec.extractLsb'_append_eq_of_add_le]
  simp

/-- Settles O10: slices put together and taken apart. -/
theorem littleEndianBytes : Obligations.LittleEndianBytes := ⟨le64_eq_or, le64_bytesOf, bytesOf_le64⟩

/-! ### Entry addresses (R66) -/

section
variable {base : PA}

/-- An entry's offset lies within its table. -/
theorem entryOffset_toNat (index : BitVec 9) : (index.setWidth 48 <<< 3 : PA).toNat = index.toNat * 8 := by
  simp only [BitVec.toNat_shiftLeft, BitVec.toNat_setWidth, Nat.shiftLeft_eq]
  omega

/-- A table's entries lie below the next 4 KiB boundary, so the sum does not wrap. -/
theorem entryAddress_toNat (h : pageAligned base = true) (index : BitVec 9) :
    (entryAddress base index).toNat = base.toNat + index.toNat * 8 := by
  rw [pageAligned_iff] at h
  rw [entryAddress, BitVec.toNat_add, entryOffset_toNat]
  omega

/-- An aligned base has no bit below 12, an entry's offset none from 12 on. -/
theorem pageAligned_and_entryOffset (h : pageAligned base = true) (index : BitVec 9) :
    base &&& (index.setWidth 48 <<< 3) = 0#48 := by
  rw [pageAligned, beq_iff_eq] at h
  ext i hi
  by_cases hlow : i < 12
  · have hbase : base.getLsbD i = false := by simpa [hlow] using congrArg (fun b : BitVec 12 => b.getLsbD i) h
    simp [← BitVec.getLsbD_eq_getElem, hbase]
  · have hindex : index.getLsbD (i - 3) = false := BitVec.getLsbD_of_ge _ _ (by omega)
    simp [hindex]

theorem entryAddress_eq_or (h : pageAligned base = true) (index : BitVec 9) :
    entryAddress base index = base ||| (index.setWidth 48 <<< 3) :=
  BitVec.add_eq_or_of_and_eq_zero _ _ (pageAligned_and_entryOffset h index)

theorem entryAddress_upper (h : pageAligned base = true) (index : BitVec 9) :
    (entryAddress base index).extractLsb' 12 36 = base.extractLsb' 12 36 := by
  rw [← BitVec.toNat_inj, BitVec.extractLsb'_toNat, BitVec.extractLsb'_toNat, entryAddress_toNat h]
  rw [pageAligned_iff] at h
  simp only [Nat.shiftRight_eq_div_pow]
  omega

theorem entryAddress_index (h : pageAligned base = true) (index : BitVec 9) :
    (entryAddress base index).extractLsb' 3 9 = index := by
  rw [← BitVec.toNat_inj, BitVec.extractLsb'_toNat, entryAddress_toNat h]
  rw [pageAligned_iff] at h
  simp only [Nat.shiftRight_eq_div_pow]
  omega

end

/-- Settles O11: base and offset share no bit. -/
theorem entryAddressHasNoCarry : Obligations.EntryAddressHasNoCarry :=
  fun _ index h => ⟨entryAddress_eq_or h index, entryAddress_upper h index, entryAddress_index h index,
    entryAddress_aligned h index, entryAddress_toNat h index⟩

/-! ### A word stored and read back (R61) -/

section
variable {m : Memory} {address : Word}

/-- What a stored word does to every byte of the inspected memory. -/
theorem byteAt_setWord (w : Word) (a : Nat) (hm : m.wf = true) (h : address.toNat + 8 ≤ 2 ^ 64) :
    (m.setWord address w).byteAt a =
      if address.toNat ≤ a ∧ a < address.toNat + 8 then some (w.extractLsb' (8 * (a - address.toNat)) 8)
      else m.byteAt a := by
  have hbyte (k : Nat) (hk : k < 8) : (address + BitVec.ofNat 64 k).toNat = address.toNat + k := by
    rw [BitVec.toNat_add, BitVec.toNat_ofNat]
    omega
  unfold Memory.setWord
  rw [byteAt_setByte, byteAt_setByte, byteAt_setByte, byteAt_setByte, byteAt_setByte, byteAt_setByte, byteAt_setByte,
    byteAt_setByte]
  · rw [show (address + 7).toNat = _ from hbyte 7 (by decide), show (address + 6).toNat = _ from hbyte 6 (by decide),
      show (address + 5).toNat = _ from hbyte 5 (by decide), show (address + 4).toNat = _ from hbyte 4 (by decide),
      show (address + 3).toNat = _ from hbyte 3 (by decide), show (address + 2).toNat = _ from hbyte 2 (by decide),
      show (address + 1).toNat = _ from hbyte 1 (by decide)]
    by_cases hin : address.toNat ≤ a ∧ a < address.toNat + 8
    · obtain ⟨k, rfl⟩ := Nat.exists_eq_add_of_le hin.1
      have hk : k < 8 := by omega
      interval_cases k <;> simp [bytesOf]
    · rw [if_neg hin]
      repeat rw [if_neg (by omega)]
  all_goals
    repeat apply setByte_wf
    exact hm

/-- A read where nothing fails and eight bytes are backed answers them. -/
theorem read8_eq_some {b : Bytes8} (hfail : address.toNat ∉ m.failing)
    (h0 : m.byteAt address.toNat = some b.b0) (h1 : m.byteAt (address.toNat + 1) = some b.b1)
    (h2 : m.byteAt (address.toNat + 2) = some b.b2) (h3 : m.byteAt (address.toNat + 3) = some b.b3)
    (h4 : m.byteAt (address.toNat + 4) = some b.b4) (h5 : m.byteAt (address.toNat + 5) = some b.b5)
    (h6 : m.byteAt (address.toNat + 6) = some b.b6) (h7 : m.byteAt (address.toNat + 7) = some b.b7) :
    m.read8 address = some b := by
  simp [Memory.read8, hfail, h0, h1, h2, h3, h4, h5, h6, h7]

theorem setFailing_ceases (m : Memory) (address : Word) : address.toNat ∉ (m.setFailing address false).failing :=
  fun hmem => (mem_removeAddress _ _ _ hmem).2 rfl

end

/-- Settles O15: byte by byte, as the eight bytes are set. -/
theorem readAfterInspectedStore : Obligations.ReadAfterInspectedStore := by
  unfold Obligations.ReadAfterInspectedStore
  intro m address w hm h
  refine ⟨?_, fun a ha => ?_⟩
  · apply read8_eq_some (setFailing_ceases _ _) <;> simp [byteAt_setWord w _ hm h, bytesOf]
  · rw [byteAt_setWord w a hm h, if_neg (by omega)]

end Sys2Proof.Machine
end

section
/-!
A walk at its answers: a descriptor before a sink that does not take (O30), a failed read (O36), and the step that runs the row of a
descriptor word (O43).
-/
namespace Sys2Proof.Machine

/-! ### A walk that waits for a descriptor -/

/-- Settles O30: the walk offers its `W_ENTRY`, and no more until the sink takes it. -/
theorem walkWaitsForTheSink : Obligations.WalkWaitsForTheSink := by
  unfold Obligations.WalkWaitsForTheSink
  intro q raw s hw hop hsink
  have hlevel : currentLevel s = s.level := by simp [currentLevel, hop]
  rw [exec_decodeRow, deliver_awaited _ _ _ s q hw hlevel, hop]
  exact congrArg _ (settle_of_stalled (walkReceive raw _ s) hsink)

/-- Settles O36: the failed read offers a terminal record, which the sink takes. -/
theorem unreadableMemoryEndsAWalk : Obligations.UnreadableMemoryEndsAWalk := by
  unfold Obligations.UnreadableMemoryEndsAWalk
  rintro q s hw ⟨hin, hlive, hsink⟩ hop - hfail
  refine ⟨settle (walkUnreadable s), ?_, settle_terminal_withoutRegisters (walkUnreadable s) _ rfl hsink rfl⟩
  rw [step_no_input s hin, advance_mem s q hw hlive, hfail, receiveMem_none_walk s hop]

/-! ### The row of an answer -/

/-- A word lies in the row it decodes to (R94). -/
theorem decodeRow_wf (level : Level) (raw : Word) : (decodeRow level raw).wf = true := by
  unfold decodeRow
  split
  · next hvalid =>
    cases level with
    | l0 | l3 => exact hvalid
    | l1 | l2 =>
      dsimp only
      split <;> next htype => simpa [Instr.wf] using And.intro hvalid htype
  · next hvalid => simpa [Instr.wf] using hvalid

/-- The step of an engine whose turn it is and that has a move is that move. -/
theorem step_turnDue_next {due : List Input} {s t : State} (hdue : s.turnDue due)
    (h : advance { s with inputs := due } = .next t) : step s = .next t := by
  rcases hdue with ⟨hin, rfl⟩ | hin
  · rwa [step_no_input s hin, ← withInputs_self s [] hin]
  · exact (step_input s _ due hin).trans (takeTurn_next _ t h)

/-- An answer of eight bytes runs the row its word decodes to. -/
theorem exec_answered {q : MemReq} {s : State} (b : Bytes8) (hw : s.wait = .mem q) :
    exec (decodeRow (currentLevel s) (le64 b)) s = .next (settle (receiveMem (some b) s)) :=
  memoryAnswered_eq (some b) s q hw

/-- Settles O43: either way the answer is received at the current level. -/
theorem stepRunsTheDescriptor : Obligations.StepRunsTheDescriptor := by
  unfold Obligations.StepRunsTheDescriptor
  intro q b due s hw
  have hexec := exec_answered (s := { s with inputs := due }) b hw
  refine ⟨decodeRow_wf _ _, fun hdue hlive hread => ?_, fun hin => ?_⟩
  · have hadv := advance_mem { s with inputs := due } q hw hlive
    rw [hread] at hadv
    exact (step_turnDue_next hdue hadv).trans hexec.symm
  · rw [step_input s _ due hin]
    exact (absorb_memAnswer (some b) { s with inputs := due } q hw).trans hexec.symm

end Sys2Proof.Machine
end

section
/-!
The command word and its fields (O1 to O4), and a command offered to a busy engine (O25). A packet is read here by its fields,
`OP`, `LVL`, `CAP` and the reserved bits, where the model reads it by the masks of R112.
-/
namespace Sys2Proof

/-! ### The fields of a command word (R111) -/

/-- The bits of `CMDW` that no field covers, [7:6] and [31:18], are 0 (R111). -/
def reservedClear (c : Cmdw) : Bool := c.extractLsb' 6 2 == 0#2 && c.extractLsb' 18 14 == 0#14

theorem reservedClear_iff (c : Cmdw) :
    reservedClear c = true ↔ c.extractLsb' 6 2 = 0#2 ∧ c.extractLsb' 18 14 = 0#14 := by
  simp [reservedClear]

/-- A command word is its fields and its reserved bits, side by side. -/
theorem cmdw_eq_append (c : Cmdw) :
    c = c.extractLsb' 18 14 ++ cmdCap c ++ c.extractLsb' 6 2 ++ cmdLvl c ++ cmdOp c := by
  simp only [cmdCap, cmdLvl, cmdOp, BitVec.extractLsb'_append_extractLsb'_eq_extractLsb']
  exact BitVec.extractLsb'_eq_self.symm

theorem cmdw_eq_iff (c d : Cmdw) :
    c = d ↔ cmdOp c = cmdOp d ∧ cmdLvl c = cmdLvl d ∧ c.extractLsb' 6 2 = d.extractLsb' 6 2 ∧ cmdCap c = cmdCap d ∧
      c.extractLsb' 18 14 = d.extractLsb' 18 14 := by
  refine ⟨fun h => h ▸ ⟨rfl, rfl, rfl, rfl, rfl⟩, fun ⟨hop, hlvl, hlow, hcap, hhigh⟩ => ?_⟩
  rw [cmdw_eq_append c, cmdw_eq_append d, hop, hlvl, hlow, hcap, hhigh]

/-- A built packet has no reserved bit set (R111). -/
@[simp] theorem reservedClear_commandPacket (op : BitVec 4) (lvl : BitVec 2) (cap : BitVec 10) (x : Operands) :
    reservedClear (commandPacket op lvl cap x).cmdw = true := by
  rw [reservedClear_iff]
  constructor
  · ext i hi
    interval_cases i <;> simp [commandPacket]
  · ext i hi
    have hop : op.getLsbD (18 + i) = false := BitVec.getLsbD_of_ge _ _ (by omega)
    have hlvl : lvl.getLsbD (18 + i - 4) = false := BitVec.getLsbD_of_ge _ _ (by omega)
    have hcap : cap.getLsbD (18 + i - 8) = false := BitVec.getLsbD_of_ge _ _ (by omega)
    simp [commandPacket, hop, hlvl, hcap]

/-- A packet without reserved bits is the one built from its fields. -/
theorem eq_commandPacket {p : Packet} (h : reservedClear p.cmdw = true) :
    p = commandPacket (cmdOp p.cmdw) (cmdLvl p.cmdw) (cmdCap p.cmdw) p.operands := by
  obtain ⟨hlow, hhigh⟩ := (reservedClear_iff _).mp h
  obtain ⟨hlow', hhigh'⟩ := (reservedClear_iff _).mp
    (reservedClear_commandPacket (cmdOp p.cmdw) (cmdLvl p.cmdw) (cmdCap p.cmdw) p.operands)
  have hword : p.cmdw = (commandPacket (cmdOp p.cmdw) (cmdLvl p.cmdw) (cmdCap p.cmdw) p.operands).cmdw := by
    simp [cmdw_eq_iff, hlow, hhigh, hlow', hhigh']
  exact congrArg (Packet.mk · p.a0 p.a1 p.a2) hword

/-! ### The rows of R112 by fields -/

/-- A command word under a mask, slice by slice. -/
theorem cmdMatches_iff (c mask pattern : Cmdw) :
    cmdMatches c mask pattern = true ↔
      cmdOp c &&& cmdOp mask = cmdOp pattern ∧ cmdLvl c &&& cmdLvl mask = cmdLvl pattern ∧
        c.extractLsb' 6 2 &&& mask.extractLsb' 6 2 = pattern.extractLsb' 6 2 ∧
        cmdCap c &&& cmdCap mask = cmdCap pattern ∧
        c.extractLsb' 18 14 &&& mask.extractLsb' 18 14 = pattern.extractLsb' 18 14 := by
  simp only [cmdMatches, beq_iff_eq, cmdw_eq_iff, cmdOp, cmdLvl, cmdCap, BitVec.extractLsb'_and]

/-- The word of a command whose fields are 0: what a row of R112 has for its match word. -/
def opWord (op : BitVec 4) : Cmdw := (commandPacket op 0#2 0#10 ⟨0#64, 0#64, 0#64⟩).cmdw

/-- What the masks of all nine rows have in common: they cover `OP` and the reserved bits. -/
def CoversOp (mask : Cmdw) : Prop :=
  cmdOp mask = BitVec.allOnes 4 ∧ mask.extractLsb' 6 2 = BitVec.allOnes 2 ∧ mask.extractLsb' 18 14 = BitVec.allOnes 14

section
variable {op : BitVec 4} {pattern : Cmdw} (c : Cmdw)

theorem cmdMatches_op_iff {mask : Cmdw} (hmask : CoversOp mask) (hpattern : opWord op = pattern) :
    cmdMatches c mask pattern = true ↔
      reservedClear c = true ∧ cmdOp c = op ∧ cmdLvl c &&& cmdLvl mask = 0#2 ∧ cmdCap c &&& cmdCap mask = 0#10 := by
  obtain ⟨hop, hlow, hhigh⟩ := hmask
  obtain ⟨hlow', hhigh'⟩ := (reservedClear_iff _).mp (reservedClear_commandPacket op 0#2 0#10 ⟨0#64, 0#64, 0#64⟩)
  rw [cmdMatches_iff, ← hpattern, opWord, cmdOp_commandPacket, cmdLvl_commandPacket, cmdCap_commandPacket, hlow', hhigh',
    hop, hlow, hhigh, reservedClear_iff]
  simp only [BitVec.and_allOnes]
  exact ⟨fun ⟨hop, hlvl, hlow, hcap, hhigh⟩ => ⟨⟨hlow, hhigh⟩, hop, hlvl, hcap⟩,
    fun ⟨⟨hlow, hhigh⟩, hop, hlvl, hcap⟩ => ⟨hop, hlvl, hlow, hcap, hhigh⟩⟩

/-- The row of a command without fields. -/
theorem cmdMatches_plain_iff (hpattern : opWord op = pattern) :
    cmdMatches c 0xFFFFFFFF#32 pattern = true ↔
      reservedClear c = true ∧ cmdOp c = op ∧ cmdLvl c = 0#2 ∧ cmdCap c = 0#10 := by
  rw [cmdMatches_op_iff c ⟨rfl, rfl, rfl⟩ hpattern, show cmdLvl 0xFFFFFFFF#32 = BitVec.allOnes 2 from rfl,
    show cmdCap 0xFFFFFFFF#32 = BitVec.allOnes 10 from rfl, BitVec.and_allOnes, BitVec.and_allOnes]

/-- The row of DECODE, whose field is `LVL`. -/
theorem cmdMatches_level_iff (hpattern : opWord op = pattern) :
    cmdMatches c 0xFFFFFFCF#32 pattern = true ↔ reservedClear c = true ∧ cmdOp c = op ∧ cmdCap c = 0#10 := by
  rw [cmdMatches_op_iff c ⟨rfl, rfl, rfl⟩ hpattern, show cmdLvl 0xFFFFFFCF#32 = 0#2 from rfl,
    show cmdCap 0xFFFFFFCF#32 = BitVec.allOnes 10 from rfl, BitVec.and_allOnes]
  simp

/-- The rows of ENUM and ENUMT, whose fields are `LVL` and `CAP`. -/
theorem cmdMatches_levelCap_iff (hpattern : opWord op = pattern) :
    cmdMatches c 0xFFFC00CF#32 pattern = true ↔ reservedClear c = true ∧ cmdOp c = op := by
  rw [cmdMatches_op_iff c ⟨rfl, rfl, rfl⟩ hpattern, show cmdLvl 0xFFFC00CF#32 = 0#2 from rfl,
    show cmdCap 0xFFFC00CF#32 = 0#10 from rfl]
  simp

end

/-! ### A packet's operation by its fields -/

/-- The command that `OP`, `LVL` and `CAP` call for, when no field is set that the command has no use for (R112, R115). -/
def commandOf (op : BitVec 4) (lvl : BitVec 2) (cap : BitVec 10) (x : Operands) : Option Instr :=
  if op = 1#4 ∧ lvl = 0#2 ∧ cap = 0#10 then some (.decompose x)
  else if op = 2#4 ∧ lvl = 0#2 ∧ cap = 0#10 then some (.selroot x)
  else if op = 3#4 ∧ cap = 0#10 then some (.decode (Level.ofBits lvl) x)
  else if op = 4#4 ∧ lvl = 0#2 ∧ cap = 0#10 then some (.walk x)
  else if op = 5#4 ∧ lvl = 0#2 ∧ cap = 0#10 then some (.walkr x)
  else if op = 6#4 ∧ lvl = 0#2 ∧ cap = 0#10 then some (.walkpc x)
  else if op = 7#4 then some (.enum (Level.ofBits lvl) cap x)
  else if op = 8#4 then some (.enumt (Level.ofBits lvl) cap x)
  else if op = 9#4 ∧ lvl = 0#2 ∧ cap = 0#10 then some (.describe x)
  else none

/-- The masks of R112 read the fields and refuse the reserved bits. -/
theorem decodePacket_eq_commandOf (p : Packet) :
    decodePacket p =
      if reservedClear p.cmdw then commandOf (cmdOp p.cmdw) (cmdLvl p.cmdw) (cmdCap p.cmdw) p.operands else none := by
  cases h : reservedClear p.cmdw <;>
    simp only [decodePacket, commandOf, h, true_and, false_and, Bool.false_eq_true, ↓reduceIte,
      cmdMatches_plain_iff (op := 1#4) (pattern := 1#32) _ rfl, cmdMatches_plain_iff (op := 2#4) (pattern := 2#32) _ rfl,
      cmdMatches_level_iff (op := 3#4) (pattern := 3#32) _ rfl, cmdMatches_plain_iff (op := 4#4) (pattern := 4#32) _ rfl,
      cmdMatches_plain_iff (op := 5#4) (pattern := 5#32) _ rfl, cmdMatches_plain_iff (op := 6#4) (pattern := 6#32) _ rfl,
      cmdMatches_levelCap_iff (op := 7#4) (pattern := 7#32) _ rfl,
      cmdMatches_levelCap_iff (op := 8#4) (pattern := 8#32) _ rfl,
      cmdMatches_plain_iff (op := 9#4) (pattern := 9#32) _ rfl]

/-- A built packet's operation is what its fields call for. -/
theorem decodePacket_commandPacket (op : BitVec 4) (lvl : BitVec 2) (cap : BitVec 10) (x : Operands) :
    decodePacket (commandPacket op lvl cap x) = commandOf op lvl cap x := by
  simp [decodePacket_eq_commandOf]

/-- What the fields call for is a command, built from these fields. -/
theorem encode_of_commandOf {op : BitVec 4} {lvl : BitVec 2} {cap : BitVec 10} {x : Operands} {i : Instr}
    (h : commandOf op lvl cap x = some i) : i.wf = true ∧ encode i = .command (commandPacket op lvl cap x) := by
  unfold commandOf at h
  split_ifs at h
  all_goals
    cases h
    simp_all [Instr.wf, encode, Level.bits_ofBits]

/-- The fields call for no command on a reserved `OP`, or where a field is set that the command has no use for (R115): one `OP`
after the other. -/
theorem commandOf_eq_none_iff (op : BitVec 4) (lvl : BitVec 2) (cap : BitVec 10) (x : Operands) :
    commandOf op lvl cap x = none ↔
      (op = 0#4 ∨ 10#4 ≤ op) ∨ (lvl ≠ 0#2 ∧ op ≠ 3#4 ∧ op ≠ 7#4 ∧ op ≠ 8#4) ∨
        (cap ≠ 0#10 ∧ op ≠ 7#4 ∧ op ≠ 8#4) := by
  obtain ⟨n, rfl⟩ : ∃ n : Fin 16, op = BitVec.ofFin n := ⟨op.toFin, rfl⟩
  fin_cases n <;> simp [commandOf, imp_iff_not_or]

/-! ### The row of a descriptor word (R94) -/

/-- The row a word decodes to carries the word and its level. -/
theorem encode_decodeRow (level : Level) (raw : Word) : encode (decodeRow level raw) = .descriptor level raw := by
  unfold decodeRow
  split
  · cases level with
    | l0 | l3 => rfl
    | l1 | l2 =>
      dsimp only
      split <;> rfl
  · rfl

/-- A word that lies in a row decodes to that row. -/
theorem decodeRow_of_wf {i : Instr} {level : Level} {raw : Word} (h : encode i = .descriptor level raw)
    (hwf : i.wf = true) : decodeRow level raw = i := by
  cases i
  case descTableL1L2 =>
    cases h
    cases level <;> simp_all [decodeRow, Instr.wf]
  case descInvalid | descTableL0 | descBlockL1 | descBlockL2 | descPageL3 =>
    cases h
    simp_all [decodeRow, Instr.wf]
  all_goals cases h

/-! ### Decoder and encoder -/

/-- Settles O1: a built packet is read back by its fields, and a word of a row decodes to that row. -/
theorem decodeOfEncodeIsIdentity : Obligations.DecodeOfEncodeIsIdentity := by
  unfold Obligations.DecodeOfEncodeIsIdentity
  intro i hwf
  cases i with
  | decompose x | selroot x | walk x | walkr x | walkpc x | describe x => exact decodePacket_commandPacket _ _ _ x
  | decode level x | enum level cap x | enumt level cap x =>
    refine (decodePacket_commandPacket _ _ _ x).trans ?_
    simp [commandOf]
  | descInvalid | descTableL0 | descTableL1L2 | descBlockL1 | descBlockL2 | descPageL3 =>
    exact congrArg some (decodeRow_of_wf rfl hwf)

/-- Settles O2: a word keeps its row, and a packet that decodes is the one built from its fields. -/
theorem encodeOfDecodeIsIdentity : Obligations.EncodeOfDecodeIsIdentity := by
  unfold Obligations.EncodeOfDecodeIsIdentity
  intro f i h
  cases f with
  | descriptor level raw =>
    cases h
    exact ⟨Machine.decodeRow_wf level raw, encode_decodeRow level raw⟩
  | command p =>
    rw [decode, decodePacket_eq_commandOf] at h
    split at h
    · next hclear =>
      rw [eq_commandPacket hclear]
      exact encode_of_commandOf h
    · cases h

/-- Settles O3: the reserved bits, and then the fields. -/
theorem illegalPacketsAreExactlyThose : Obligations.IllegalPacketsAreExactlyThose := by
  unfold Obligations.IllegalPacketsAreExactlyThose
  intro p
  have hfields := commandOf_eq_none_iff (cmdOp p.cmdw) (cmdLvl p.cmdw) (cmdCap p.cmdw) p.operands
  rw [decodePacket_eq_commandOf]
  split
  · next hclear =>
    obtain ⟨hlow, hhigh⟩ := (reservedClear_iff _).mp hclear
    rw [hfields]
    simp only [hlow, hhigh, ne_eq, not_true, false_or, cmdOp, cmdLvl, cmdCap]
  · next hset =>
    rw [reservedClear_iff, not_and_or] at hset
    exact iff_of_true rfl (.inr (hset.imp_right .inl))

/-- Settles O4: each word is the built packet of its fields. -/
theorem writtenOutWordsDecode : Obligations.WrittenOutWordsDecode := fun x =>
  ⟨decodePacket_commandPacket 1#4 0#2 0#10 x, decodePacket_commandPacket 3#4 1#2 0#10 x,
    decodePacket_commandPacket 4#4 0#2 0#10 x, decodePacket_commandPacket 7#4 3#2 10#10 x,
    decodePacket_commandPacket 9#4 0#2 0#10 x, rfl⟩

end Sys2Proof

namespace Sys2Proof.Machine

/-! ### A command at a busy engine -/

/-- `exec` of a command on a busy engine holds the packet the command is encoded in (R283; notes/assumptions/14.md). -/
theorem exec_command_busy {i : Instr} {p : Packet} {s : State} (h : encode i = .command p) (hw : s.wait ≠ .idle) :
    exec i s = .next (hold p s) := by
  cases i
  case descInvalid | descTableL0 | descTableL1L2 | descBlockL1 | descBlockL2 | descPageL3 => cases h
  all_goals
    cases h
    exact congrArg _ (accept_busy _ _ s hw)

/-- Settles O25: the packet of the command is the one offered. -/
theorem commandsWhileBusyAreHeld : Obligations.CommandsWhileBusyAreHeld := by
  unfold Obligations.CommandsWhileBusyAreHeld
  rintro i p s - hd hw
  obtain ⟨-, henc⟩ := encodeOfDecodeIsIdentity (.command p) i hd
  exact ⟨exec_command_busy henc hw, rfl⟩

end Sys2Proof.Machine
end

section
/-!
The packed form of a decode (R108): its formula and what can be read back from it (O9), the fields DESCRIBE reads from it (O14), and
their classes (O13).
-/
namespace Sys2Proof.Machine

/-! ### Slices in place -/

/-- A slice put back where it was cut is the word under the slice's mask. -/
theorem extractLsb'_shiftLeft_eq_and (raw : Word) (start n : Nat) :
    (raw.extractLsb' start n).setWidth 64 <<< start = raw &&& ((BitVec.allOnes n).setWidth 64 <<< start) := by
  ext i hi
  by_cases h : i < start
  · simp [h]
  · simp [h, show start + (i - start) = i by omega, Bool.and_comm, BitVec.getLsbD_eq_getElem hi]

/-- A slice read where it was put. -/
theorem extractLsb'_shiftLeft_same {n : Nat} (x : BitVec n) {k : Nat} (h : k + n ≤ 64) :
    (x.setWidth 64 <<< k).extractLsb' k n = x := by
  ext i hi
  simp [show k + i < 64 by omega, BitVec.getLsbD_eq_getElem hi]

/-- Nothing is read of a slice that was put elsewhere. -/
theorem extractLsb'_shiftLeft_apart {n : Nat} (x : BitVec n) {k start m : Nat} (h : start + m ≤ k ∨ k + n ≤ start) :
    (x.setWidth 64 <<< k).extractLsb' start m = 0#m := by
  ext i hi
  rcases h with h | h
  · simp [show start + i < k by omega]
  · simp [BitVec.getLsbD_of_ge x (start + i - k) (by omega)]

/-- One bit is a slice of width 1. -/
theorem bitAt_eq_shiftLeft (b : Bool) (n : Nat) : bitAt b n = (BitVec.ofBool b).setWidth 64 <<< n := by
  cases b <;> simp [bitAt]

theorem ofBool_getLsbD (raw : Word) (n : Nat) : BitVec.ofBool (raw.getLsbD n) = raw.extractLsb' n 1 := by
  ext i hi
  simp [show i = 0 by omega]

/-- A page-aligned address is its bits [47:12] in place. -/
theorem setWidth_of_pageAligned {oa : PA} (h : pageAligned oa = true) (w : Nat) :
    oa.setWidth w = (oa.extractLsb' 12 36).setWidth w <<< 12 := by
  ext i hi
  rcases Nat.lt_or_ge i 12 with hlow | hhigh
  · have hbit := congrArg (fun b : BitVec 12 => b.getLsbD i) (beq_iff_eq.mp h)
    simpa [hlow] using hbit
  · simp only [BitVec.getElem_setWidth, BitVec.getElem_shiftLeft, BitVec.getLsbD_extractLsb',
      show ¬ i < 12 by omega, show 12 + (i - 12) = i by omega]
    rcases Nat.lt_or_ge i 48 with h48 | h48
    · simp [show i - 12 < 36 by omega]
    · simp [BitVec.getLsbD_of_ge oa i h48]

/-! ### The formula of R108 -/

/-- The valid bit and the permission slices in place are the bits of the raw word that R108 keeps. -/
theorem packPerm_permOf {raw : Word} (hv : validBit raw = true) :
    1#64 ||| packPerm (permOf raw) = raw &&& 0x00600000000007DD#64 := by
  have hone : 1#64 = (BitVec.ofBool (raw.getLsbD 0)).setWidth 64 <<< 0 := by rw [show raw.getLsbD 0 = true from hv]; rfl
  simp only [packPerm, permOf, bitAt_eq_shiftLeft, hone, ofBool_getLsbD, extractLsb'_shiftLeft_eq_and,
    ← BitVec.and_or_distrib_left]
  rfl

theorem packValid_permOf {raw : Word} (hv : validBit raw = true) (oa : PA) (kind : Kind) (warn : Bool) :
    packValid oa (permOf raw) kind warn =
      (raw &&& 0x00600000000007DD#64) ||| oa.setWidth 64 ||| (kind.code.setWidth 64 <<< 55) ||| bitAt warn 57 := by
  rw [← packPerm_permOf hv, packValid, BitVec.or_assoc 1#64, BitVec.or_comm (oa.setWidth 64), ← BitVec.or_assoc 1#64]

/-- The permission fields of a descriptor that has any (R24, U1). -/
def Descriptor.perm? : Descriptor → Option Perm
  | .invalid => none
  | .table _ p _ => some p
  | .block _ p => some p
  | .page _ p => some p

/-- A valid word's decode has the permission fields of the word (R154), an invalid word's none. -/
theorem decodeDescriptor_perm? (raw : Word) (level : Level) :
    (decodeDescriptor raw level).perm? = if validBit raw then some (permOf raw) else none := by
  cases hv : validBit raw with
  | false => rw [decodeDescriptor_of_not_valid level hv]; rfl
  | true =>
    cases level with
    | l0 => rw [decodeDescriptor_l0 hv]; rfl
    | l1 => rw [decodeDescriptor_l1 hv]; split <;> rfl
    | l2 => rw [decodeDescriptor_l2 hv]; split <;> rfl
    | l3 => rw [decodeDescriptor_l3 hv]; rfl

/-- The formula, for the address, kind and warning of any decode that has permission fields. -/
theorem packValid_of_decodeDescriptor {raw : Word} {level : Level} {d : Descriptor} {p : Perm}
    (hd : decodeDescriptor raw level = d) (hp : d.perm? = some p) (oa : PA) (kind : Kind) (warn : Bool) :
    packValid oa p kind warn =
      (raw &&& 0x00600000000007DD#64) ||| oa.setWidth 64 ||| (kind.code.setWidth 64 <<< 55) ||| bitAt warn 57 := by
  rw [← hd, decodeDescriptor_perm?] at hp
  split at hp
  · next hv =>
    cases hp
    exact packValid_permOf hv oa kind warn
  · cases hp

/-! ### What can be read from the packed form -/

section
variable {oa : PA} (p : Perm) (kind : Kind) (warn : Bool)

/-- The packed form of an aligned descriptor is its fields side by side. -/
theorem packValid_eq_slices (h : pageAligned oa = true) :
    packValid oa p kind warn =
      (BitVec.ofBool true).setWidth 64 <<< 0 ||| (oa.extractLsb' 12 36).setWidth 64 <<< 12 |||
        (p.attrIndex.setWidth 64 <<< 2 ||| p.ap.setWidth 64 <<< 6 ||| p.sh.setWidth 64 <<< 8 |||
          (BitVec.ofBool p.af).setWidth 64 <<< 10 ||| (BitVec.ofBool p.pxn).setWidth 64 <<< 53 |||
          (BitVec.ofBool p.xn).setWidth 64 <<< 54) |||
        kind.code.setWidth 64 <<< 55 ||| (BitVec.ofBool warn).setWidth 64 <<< 57 := by
  rw [packValid, packPerm, setWidth_of_pageAligned h]
  simp only [bitAt_eq_shiftLeft]
  rfl

theorem permOfDD_packValid (h : pageAligned oa = true) : permOfDD (packValid oa p kind warn) = p := by
  rw [packValid_eq_slices p kind warn h]
  simp (disch := omega) [permOfDD, BitVec.extractLsb'_or, extractLsb'_shiftLeft_same, extractLsb'_shiftLeft_apart,
    BitVec.getLsbD_of_ge]

/-- The other fields of an aligned descriptor, read where R108 puts them. -/
theorem packValid_slices (h : pageAligned oa = true) :
    (packValid oa p kind warn).getLsbD 0 = true ∧ (packValid oa p kind warn).extractLsb' 12 36 = oa.extractLsb' 12 36 ∧
      (packValid oa p kind warn).extractLsb' 55 2 = kind.code ∧ (packValid oa p kind warn).getLsbD 57 = warn := by
  rw [packValid_eq_slices p kind warn h]
  simp (disch := omega) [BitVec.extractLsb'_or, extractLsb'_shiftLeft_same, extractLsb'_shiftLeft_apart,
    BitVec.getLsbD_of_ge]

end

/-- The descriptor that a packed form stands for: its fields read where R108 puts them. -/
def unpack (dd : Word) : Descriptor :=
  let oa : PA := (dd.extractLsb' 12 36).setWidth 48 <<< 12
  if dd.getLsbD 0 then
    if dd.extractLsb' 55 2 = Kind.table.code then .table oa (permOfDD dd) (dd.getLsbD 57)
    else if dd.extractLsb' 55 2 = Kind.block.code then .block oa (permOfDD dd)
    else .page oa (permOfDD dd)
  else .invalid

/-- A descriptor with an aligned output address is read back from its packed form. -/
theorem unpack_packValid {oa : PA} (p : Perm) (kind : Kind) (warn : Bool) (h : pageAligned oa = true) :
    unpack (packValid oa p kind warn) =
      if kind.code = Kind.table.code then .table oa p warn
      else if kind.code = Kind.block.code then .block oa p
      else .page oa p := by
  obtain ⟨hvalid, haddress, hkind, hwarn⟩ := packValid_slices p kind warn h
  rw [unpack, permOfDD_packValid p kind warn h, hvalid, haddress, hkind, hwarn, ← setWidth_of_pageAligned h,
    BitVec.setWidth_eq, if_pos rfl]

/-- An address aligned to a larger page is aligned (R153). -/
theorem pageAligned_of_low_zero {oa : PA} {n : Nat} (hn : 12 ≤ n) (h : oa.extractLsb' 0 n = 0#n) :
    pageAligned oa = true := by
  refine beq_iff_eq.mpr (BitVec.eq_of_getLsbD_eq fun i hi => ?_)
  have hbit := congrArg (fun b : BitVec n => b.getLsbD i) h
  simpa [hi, show i < n by omega] using hbit

/-- Nothing is lost of a descriptor that a level can have. -/
theorem unpack_pack {d : Descriptor} {level : Level} (h : d.legalAt level = true) : unpack (pack d) = d := by
  cases d with
  | invalid => rfl
  | table oa p w =>
    simp only [Descriptor.legalAt, Bool.and_eq_true] at h
    exact unpack_packValid p .table w h.1.2
  | page oa p =>
    simp only [Descriptor.legalAt, Bool.and_eq_true] at h
    exact unpack_packValid p .page false h.2
  | block oa p =>
    simp only [Descriptor.legalAt, Bool.and_eq_true, Bool.or_eq_true, beq_iff_eq] at h
    refine unpack_packValid p .block false ?_
    rcases h with ⟨-, h30⟩ | ⟨-, h21⟩
    · exact pageAligned_of_low_zero (by decide) h30
    · exact pageAligned_of_low_zero (by decide) h21

/-- Settles O9: the kept bits with the fields R108 adds, and `unpack` undoes `pack`. -/
theorem packFormulaAndInjectivity : Obligations.PackFormulaAndInjectivity := by
  unfold Obligations.PackFormulaAndInjectivity
  refine ⟨fun raw level hv => ?_, fun raw level oa p w hd => ?_, fun raw level oa p hd => ?_, fun raw level oa p hd => ?_,
    fun d d' level level' hd hd' heq => ?_⟩
  · rw [decodeDescriptor_of_not_valid level hv]
    rfl
  · rw [hd]
    exact packValid_of_decodeDescriptor hd rfl oa .table w
  · rw [hd]
    exact (packValid_of_decodeDescriptor hd rfl oa .block false).trans BitVec.or_zero
  · rw [hd]
    exact (packValid_of_decodeDescriptor hd rfl oa .page false).trans BitVec.or_zero
  · rw [← unpack_pack hd, heq, unpack_pack hd']

/-! ### DESCRIBE -/

/-- DESCRIBE reads the permission fields of the descriptor that a packed form stands for (R109). -/
theorem permOfDD_of_unpack {dd : Word} {p : Perm} (h : (unpack dd).perm? = some p) : permOfDD dd = p := by
  unfold unpack at h
  split_ifs at h
  all_goals cases h
  all_goals rfl

/-- Settles O14: `pack` keeps the decode, which has the permission fields of the raw word. -/
theorem describeOfPackedIsDescribeOfRaw : Obligations.DescribeOfPackedIsDescribeOfRaw := by
  unfold Obligations.DescribeOfPackedIsDescribeOfRaw
  intro raw level hd
  have hvalid : validBit raw = true := eq_true_of_ne_false fun hv => hd (decodeDescriptor_of_not_valid level hv)
  refine permOfDD_of_unpack ?_
  rw [unpack_pack (decodeDescriptor_legalAt raw level), decodeDescriptor_perm?, if_pos hvalid]
  rfl

theorem apClass_code (ap : BitVec 2) : (apClass ap).code = ap.setWidth 3 ∧ apClass ap ≠ .unknown := by
  revert ap
  decide

theorem shClass_code (sh : BitVec 2) : (shClass sh).code = sh.setWidth 3 ∧ shClass sh ≠ .unknown := by
  revert sh
  decide

theorem xnClass_code (xn : Bool) : (xnClass xn).code = BitVec.ofBool xn := by
  cases xn <;> rfl

/-- Settles O13: each class has the code of its field. -/
theorem describeClassifies : Obligations.DescribeClassifies := fun p =>
  ⟨(apClass_code p.ap).1, (shClass_code p.sh).1, xnClass_code p.xn, xnClass_code p.pxn, rfl, rfl, (apClass_code p.ap).2,
    (shClass_code p.sh).2⟩

end Sys2Proof.Machine
end

section
/-!
The streams of the walks and the enumerations: what one index of a table gives, whatever the cap; the stream of an enumeration as its
tree (O56); tables that the cap does not reach (O59); and the one terminal record at the end (O60).
-/
namespace Sys2Proof.Machine

theorem recordsOf_append (es fs : List Event) : recordsOf (es ++ fs) = recordsOf es ++ recordsOf fs := by
  induction es with
  | nil => rfl
  | cons e es ih =>
    cases e with
    | mem | reg => exact ih
    | record r => exact congrArg (r :: ·) ih

theorem childRecords_append (children rest : List Child) :
    childRecords (children ++ rest) = childRecords children ++ childRecords rest := by
  induction children with
  | nil => rfl
  | cons child tail ih =>
    rcases child with _ | ⟨_, _, _, _, _, _, _, _ | t⟩ <;> simp [childRecords, ih]

theorem childrenUntruncated_append (children rest : List Child) :
    childrenUntruncated (children ++ rest) = (childrenUntruncated children && childrenUntruncated rest) := by
  induction children with
  | nil => rfl
  | cons child tail ih =>
    rcases child with _ | ⟨_, _, _, _, _, _, _, _ | t⟩ <;> simp [childrenUntruncated, ih, Bool.and_assoc]

/-! ### One index of a table's loop -/

/-- What one index gives: its events, the child it adds if any, and the number of requests after it. -/
structure IndexRun where
  events : List Event
  child : Option Child
  requests : Nat

/-- The loop of `EnumTable` at one index it visits (R200); neither the filter nor the cap has a part in it. -/
def visitIndex (read : Reader) (sub : PA → Word → Nat → TableRun) (level : Level) (base : PA) (vprefix : Word) (i n : Nat) :
    IndexRun :=
  let index := BitVec.ofNat 9 i
  let ea := entryAddress base index
  match read n (ea.setWidth 64) with
  | none =>
    { events := [memEvent ea, .record (.eUnread level index base ea)]
      child := some (.unread level base index ea)
      requests := n + 1 }
  | some b =>
    let d := decodeDescriptor (le64 b) level
    let cp := childPrefix vprefix index level
    let entry : Event := .record (entryRecord level base vprefix i ea (le64 b) d)
    match d with
    | .invalid => { events := [memEvent ea], child := none, requests := n + 1 }
    | .table oa _ _ =>
      let t := sub oa cp (n + 1)
      { events := memEvent ea :: entry :: t.events
        child := some (.entry level base index ea (le64 b) (recordedPrefix cp) d (some t.node))
        requests := t.requests }
    | .block _ _ | .page _ _ =>
      { events := [memEvent ea, entry]
        child := some (.entry level base index ea (le64 b) (recordedPrefix cp) d none)
        requests := n + 1 }

section
variable {read : Reader} {sub : PA → Word → Nat → TableRun} {filt : Bool} {cap : Nat} {level : Level} {base : PA}
  {vprefix : Word}

/-- Below the cap the loop visits its next index, counts the entry it finds there, and goes on (R200 to R204). -/
theorem enumLoop_cons {i : Nat} {rest : List Nat} {emitted n : Nat} (hc : capReached filt cap emitted = false) :
    let v := visitIndex read sub level base vprefix i n
    let r := enumLoop read sub filt cap level base vprefix rest (emitted + entryCount v.child.toList) v.requests
    enumLoop read sub filt cap level base vprefix (i :: rest) emitted n =
      { r with events := v.events ++ r.events, children := v.child.toList ++ r.children } := by
  cases hb : read n ((entryAddress base (BitVec.ofNat 9 i)).setWidth 64) with
  | none => simp [visitIndex, enumLoop, hc, hb, entryCount]
  | some b =>
    cases hd : decodeDescriptor (le64 b) level <;>
      simp [visitIndex, enumLoop, hc, hb, hd, entryCount, entryRecord]

/-! ### The stream is the tree (R118) -/

/-- The records of an index are those of the child it adds. -/
theorem recordsOf_visitIndex
    (hsub : level ≠ .l3 → ∀ oa cp n, recordsOf (sub oa cp n).events = (sub oa cp n).node.records) (i n : Nat) :
    recordsOf (visitIndex read sub level base vprefix i n).events =
      childRecords (visitIndex read sub level base vprefix i n).child.toList := by
  simp only [visitIndex]
  split
  · rfl
  · split
    · rfl
    · next oa p w hd =>
      simp [recordsOf, memEvent, childRecords, entryRecord, hd, hsub (decodeDescriptor_table_level hd)]
    · rfl
    · rfl

theorem recordsOf_enumLoop
    (hsub : level ≠ .l3 → ∀ oa cp n, recordsOf (sub oa cp n).events = (sub oa cp n).node.records) (indices : List Nat) :
    ∀ emitted n,
      recordsOf (enumLoop read sub filt cap level base vprefix indices emitted n).events =
        childRecords (enumLoop read sub filt cap level base vprefix indices emitted n).children := by
  induction indices with
  | nil => exact fun _ _ => rfl
  | cons i rest ih =>
    intro emitted n
    cases hc : capReached filt cap emitted with
    | true => rw [enumLoop_capped hc]; rfl
    | false => rw [enumLoop_cons hc, recordsOf_append, childRecords_append, recordsOf_visitIndex hsub, ih]

end

/-- A table's records are its children's and then its own end (R118). -/
theorem recordsOf_enumTable {read : Reader} {filter : Option Word} {cap : Nat} (left : Nat) :
    ∀ level : Level, level.toNat + left = 4 → ∀ base vprefix n,
      recordsOf (enumTable read filter cap left level base vprefix n).events =
        (enumTable read filter cap left level base vprefix n).node.records := by
  induction left with
  | zero =>
    intro level hleft
    have := Level.toNat_le level
    omega
  | succ left ih =>
    intro level hleft base vprefix n
    have hsub (hl : level ≠ .l3) := ih level.succ (by have := Level.toNat_succ level hl; omega)
    simp only [enumTable, TableNode.records, recordsOf_append, recordsOf_enumLoop hsub, recordsOf]

theorem recordsOf_enumerate (read : Reader) (base vprefix : Word) (level : Level) (filter : Option Word) (cap : Nat) :
    recordsOf (enumerate read base vprefix level filter cap).events =
      (enumerate read base vprefix level filter cap).node.records ++ [.rEnumDone] := by
  have := Level.toNat_le level
  simp only [enumerate, recordsOf_append, recordsOf_enumTable (4 - level.toNat) level (by omega), recordsOf]

/-- Settles O56: the loop of each table reports its children as it finds them. -/
theorem enumerationStreamIsTheTree : Obligations.EnumerationStreamIsTheTree := recordsOf_enumerate

/-! ### The records of a tree -/

/-- Whether a record says of a table that the cap cut it off (R204). -/
def Record.truncates : Record → Bool
  | .eTableEnd _ _ _ truncated => truncated
  | _ => false

mutual

/-- No record of a tree is terminal, and none says that a table was cut off when no table was. -/
theorem TableNode.records_not_terminal : ∀ t : TableNode, ∀ r ∈ t.records,
    r.terminal = false ∧ (t.untruncated = true → r.truncates = false)
  | .node level base children emitted truncated, r, hr => by
    simp only [TableNode.records, List.mem_append, List.mem_singleton] at hr
    simp only [TableNode.untruncated, Bool.and_eq_true, Bool.not_eq_true']
    rcases hr with hr | rfl
    · exact (childRecords_not_terminal children r hr).imp_right fun h hu => h hu.2
    · exact ⟨rfl, And.left⟩

theorem childRecords_not_terminal : ∀ children : List Child, ∀ r ∈ childRecords children,
    r.terminal = false ∧ (childrenUntruncated children = true → r.truncates = false)
  | [], r, hr => by cases hr
  | .unread _ _ _ _ :: rest, r, hr | .entry _ _ _ _ _ _ _ none :: rest, r, hr => by
    rcases List.mem_cons.mp hr with rfl | hr
    · exact ⟨rfl, fun _ => rfl⟩
    · exact childRecords_not_terminal rest r hr
  | .entry _ _ _ _ _ _ _ (some t) :: rest, r, hr => by
    simp only [childRecords, List.mem_cons, List.mem_append] at hr
    simp only [childrenUntruncated, Bool.and_eq_true]
    rcases hr with rfl | hr | hr
    · exact ⟨rfl, fun _ => rfl⟩
    · exact (TableNode.records_not_terminal t r hr).imp_right fun h hu => h hu.1
    · exact (childRecords_not_terminal rest r hr).imp_right fun h hu => h hu.2

end

/-! ### Tables that the cap does not reach (R204, R211) -/

/-- The cap is not reached at any of so many indices to come: there is a filter, or it leaves room for an entry at each. -/
def RoomFor (filt : Bool) (cap count : Nat) : Prop := filt = false → count ≤ cap

theorem RoomFor.mono {filt : Bool} {cap count count' : Nat} (h : RoomFor filt cap count) (hle : count' ≤ count) :
    RoomFor filt cap count' := fun hfilt => hle.trans (h hfilt)

theorem RoomFor.not_capReached {filt : Bool} {cap emitted count : Nat} (h : RoomFor filt cap (emitted + (count + 1))) :
    capReached filt cap emitted = false := by
  cases filt with
  | true => rfl
  | false =>
    have := h rfl
    simp only [capReached, Bool.not_false, Bool.true_and, decide_eq_false_iff_not]
    omega

theorem entryCount_toList_le_one (child : Option Child) : entryCount child.toList ≤ 1 := by
  rcases child with _ | _ | _ <;> simp [entryCount]

section
variable {read : Reader} {sub : PA → Word → Nat → TableRun} {filt : Bool} {cap cap' : Nat} {level : Level} {base : PA}
  {vprefix : Word}

/-- Two caps that leave room at every index give the same loop. -/
theorem enumLoop_cap_irrelevant (indices : List Nat) : ∀ emitted n,
    RoomFor filt cap (emitted + indices.length) → RoomFor filt cap' (emitted + indices.length) →
      enumLoop read sub filt cap level base vprefix indices emitted n =
        enumLoop read sub filt cap' level base vprefix indices emitted n := by
  induction indices with
  | nil => exact fun _ _ _ _ => rfl
  | cons i rest ih =>
    intro emitted n hroom hroom'
    have hone := entryCount_toList_le_one (visitIndex read sub level base vprefix i n).child
    rw [enumLoop_cons hroom.not_capReached, enumLoop_cons hroom'.not_capReached,
      ih _ _ (hroom.mono (by rw [List.length_cons]; omega)) (hroom'.mono (by rw [List.length_cons]; omega))]

/-- What an index adds has no table that was cut off, when none of the tables below has. -/
theorem visitIndex_untruncated (hsub : ∀ oa cp n, (sub oa cp n).node.untruncated = true) (i n : Nat) :
    childrenUntruncated (visitIndex read sub level base vprefix i n).child.toList = true := by
  simp only [visitIndex]
  split
  · rfl
  · split <;> simp [childrenUntruncated, hsub]

/-- A loop with room at every index is not cut off. -/
theorem enumLoop_untruncated (hsub : ∀ oa cp n, (sub oa cp n).node.untruncated = true) (indices : List Nat) :
    ∀ emitted n, RoomFor filt cap (emitted + indices.length) →
      (enumLoop read sub filt cap level base vprefix indices emitted n).truncated = false ∧
        childrenUntruncated (enumLoop read sub filt cap level base vprefix indices emitted n).children = true := by
  induction indices with
  | nil => exact fun _ _ _ => ⟨rfl, rfl⟩
  | cons i rest ih =>
    intro emitted n hroom
    have hone := entryCount_toList_le_one (visitIndex read sub level base vprefix i n).child
    obtain ⟨htruncated, hchildren⟩ := ih (emitted + entryCount (visitIndex read sub level base vprefix i n).child.toList)
      (visitIndex read sub level base vprefix i n).requests (hroom.mono (by rw [List.length_cons]; omega))
    rw [enumLoop_cons hroom.not_capReached]
    exact ⟨htruncated, by rw [childrenUntruncated_append, visitIndex_untruncated hsub, hchildren]; rfl⟩

end

theorem tableIndices_length_le (filter : Option Word) (level : Level) : (tableIndices filter level).length ≤ 512 := by
  cases filter <;> simp [tableIndices]

section
variable {read : Reader} {filter : Option Word} {cap cap' : Nat}

/-- Room for all the indices of a table is room in every table. -/
theorem RoomFor.tableIndices (h : RoomFor filter.isSome cap 512) (level : Level) :
    RoomFor filter.isSome cap (0 + (Machine.tableIndices filter level).length) :=
  h.mono (by have := tableIndices_length_le filter level; omega)

theorem enumTable_cap_irrelevant (h : RoomFor filter.isSome cap 512) (h' : RoomFor filter.isSome cap' 512) (left : Nat) :
    ∀ level, enumTable read filter cap left level = enumTable read filter cap' left level := by
  induction left with
  | zero => exact fun _ => rfl
  | succ left ih =>
    intro level
    funext base vprefix n
    rw [enumTable, enumTable, ih, enumLoop_cap_irrelevant _ 0 n (h.tableIndices level) (h'.tableIndices level)]

theorem enumTable_untruncated (h : RoomFor filter.isSome cap 512) (left : Nat) :
    ∀ level base vprefix n, (enumTable read filter cap left level base vprefix n).node.untruncated = true := by
  induction left with
  | zero => exact fun _ _ _ _ => rfl
  | succ left ih =>
    intro level base vprefix n
    obtain ⟨htruncated, hchildren⟩ := enumLoop_untruncated (read := read) (level := level) (base := base)
      (vprefix := vprefix) (ih level.succ) (tableIndices filter level) 0 n (h.tableIndices level)
    simp only [enumTable, TableNode.untruncated, htruncated, hchildren, Bool.not_false, Bool.and_true]

/-- The root of a table's tree stands at its level and base. -/
theorem enumTable_node (left : Nat) (level : Level) (base : PA) (vprefix : Word) (n : Nat) :
    ∃ children emitted truncated,
      (enumTable read filter cap left level base vprefix n).node = .node level base children emitted truncated := by
  cases left <;> exact ⟨_, _, _, rfl⟩

variable (base vprefix : Word) (level : Level)

theorem enumerate_cap_irrelevant (h : RoomFor filter.isSome cap 512) (h' : RoomFor filter.isSome cap' 512) :
    enumerate read base vprefix level filter cap = enumerate read base vprefix level filter cap' := by
  rw [enumerate, enumerate, enumTable_cap_irrelevant h h']

theorem enumerate_untruncated (h : RoomFor filter.isSome cap 512) :
    (enumerate read base vprefix level filter cap).node.untruncated = true :=
  enumTable_untruncated h _ _ _ _ _

/-- With room in every table no `E_TABLE_END` says that a table was cut off. -/
theorem enumerate_tableEnd_not_truncated (h : RoomFor filter.isSome cap 512) (level' : Level) (base' : PA)
    (emitted : BitVec 10) (truncated : Bool)
    (hr : Record.eTableEnd level' base' emitted truncated ∈
      recordsOf (enumerate read base vprefix level filter cap).events) :
    truncated = false := by
  rw [recordsOf_enumerate] at hr
  have hr : Record.eTableEnd level' base' emitted truncated ∈
      (enumerate read base vprefix level filter cap).node.records := by simpa using hr
  exact (TableNode.records_not_terminal _ _ hr).2 (enumerate_untruncated base vprefix level h)

theorem enumerate_node (h : RoomFor filter.isSome cap 512) :
    ∃ children emitted, (enumerate read base vprefix level filter cap).node =
      .node level (tableBaseOf base) children emitted false := by
  obtain ⟨children, emitted, truncated, hnode⟩ := enumTable_node (read := read) (filter := filter) (cap := cap)
    (4 - level.toNat) level (tableBaseOf base) vprefix 0
  have huntruncated := enumTable_untruncated (read := read) h (4 - level.toNat) level (tableBaseOf base) vprefix 0
  rw [hnode, TableNode.untruncated, Bool.and_eq_true, Bool.not_eq_true'] at huntruncated
  exact ⟨children, emitted, huntruncated.1 ▸ hnode⟩

end

/-- Settles O59: a cap of 512 leaves room for all indices of a table, and with a filter the cap is not consulted. -/
theorem largeCapsAndFilteredCapsAgree : Obligations.LargeCapsAndFilteredCapsAgree := by
  unfold Obligations.LargeCapsAndFilteredCapsAgree
  intro read base vprefix level target cap cap'
  have hwide {cap : Nat} (hcap : 512 ≤ cap) : RoomFor (none : Option Word).isSome cap 512 := fun _ => hcap
  have hnarrow (cap : Nat) : RoomFor (some target).isSome cap 512 := fun hfilt => by cases hfilt
  exact ⟨fun hcap hcap' => enumerate_cap_irrelevant _ _ _ (hwide hcap) (hwide hcap'),
    fun hcap => ⟨enumerate_untruncated _ _ _ (hwide hcap), enumerate_tableEnd_not_truncated _ _ _ (hwide hcap),
      enumerate_node _ _ _ (hwide hcap)⟩,
    enumerate_cap_irrelevant _ _ _ (hnarrow cap) (hnarrow cap'), enumerate_untruncated _ _ _ (hnarrow cap),
    enumerate_tableEnd_not_truncated _ _ _ (hnarrow cap), enumerate_node _ _ _ (hnarrow cap)⟩

/-! ### The terminal record (R116, R117) -/

/-- A stream ends in a terminal record, and no record before it is terminal. -/
def EndsOnce (events : List Event) : Prop :=
  ∃ (before : List Event) (last : Record), events = before ++ [.record last] ∧ last.terminal = true ∧
    ∀ r ∈ recordsOf before, r.terminal = false

theorem endsOnce_terminal {r : Record} (h : r.terminal = true) : EndsOnce [.record r] :=
  ⟨[], r, rfl, h, by simp [recordsOf]⟩

theorem EndsOnce.prepend {es fs : List Event} (h : EndsOnce fs) (hes : ∀ r ∈ recordsOf es, r.terminal = false) :
    EndsOnce (es ++ fs) := by
  obtain ⟨before, last, rfl, hlast, hbefore⟩ := h
  refine ⟨es ++ before, last, (List.append_assoc _ _ _).symm, hlast, fun r hr => ?_⟩
  rw [recordsOf_append, List.mem_append] at hr
  exact hr.elim (hes r) (hbefore r)

theorem EndsOnce.mem {fs : List Event} (ea : PA) (h : EndsOnce fs) : EndsOnce (memEvent ea :: fs) :=
  h.prepend (es := [memEvent ea]) (by simp [memEvent, recordsOf])

theorem EndsOnce.reg {fs : List Event} (sel : RegSel) (h : EndsOnce fs) : EndsOnce (.reg sel :: fs) :=
  h.prepend (es := [.reg sel]) (by simp [recordsOf])

theorem EndsOnce.record {fs : List Event} {r : Record} (h : EndsOnce fs) (hr : r.terminal = false) :
    EndsOnce (.record r :: fs) :=
  h.prepend (es := [.record r]) (by simpa [recordsOf] using hr)

section
variable {read : Reader} {va : Word}

/-- A walk over these levels, from `level` on, ends once. -/
def WalkEndsOnce (read : Reader) (va : Word) (levels : List Level) : Prop :=
  ∀ base path n, EndsOnce (walkFrom read va levels base path n).1

/-- One level of a walk: below level 3 a Table goes on to the levels that are left, and all else ends it (R170). -/
theorem walkEndsOnce_cons {level : Level} {rest : List Level} (h : level ≠ .l3 → WalkEndsOnce read va rest) :
    WalkEndsOnce read va (level :: rest) := by
  intro base path n
  cases hb : read n ((entryAddress base ((decompose va).idx.get level)).setWidth 64) with
  | none =>
    rw [walkFrom_unread rfl hb]
    exact (endsOnce_terminal rfl).mem _
  | some b =>
    generalize hd : decodeDescriptor (le64 b) level = d
    obtain ⟨path', heq⟩ := walkFrom_read (rest := rest) (path := path) rfl hb hd
    rw [heq]
    refine EndsOnce.mem _ (EndsOnce.record ?_ rfl)
    cases d with
    | table oa p w => exact h (decodeDescriptor_table_level hd) _ _ _
    | invalid | block oa p | page oa p => exact endsOnce_terminal rfl

theorem walk_endsOnce (read : Reader) (va t0 t1 : Word) : EndsOnce (walk read va t0 t1).1 := by
  have hroot : WalkEndsOnce read va [.l0, .l1, .l2, .l3] :=
    walkEndsOnce_cons fun _ => walkEndsOnce_cons fun _ => walkEndsOnce_cons fun _ =>
      walkEndsOnce_cons fun h => absurd rfl h
  exact hroot _ _ _

theorem walkRegisters_endsOnce (read : Reader) (register : RegSel → Option Word) (va : Word) :
    EndsOnce (walkRegisters read register va).1 := by
  unfold walkRegisters
  split
  · exact (endsOnce_terminal rfl).reg _
  · split
    · exact ((endsOnce_terminal rfl).reg _).reg _
    · exact ((walk_endsOnce ..).reg _).reg _

theorem walkProgramCounter_endsOnce (read : Reader) (register : RegSel → Option Word) :
    EndsOnce (walkProgramCounter read register).1 := by
  unfold walkProgramCounter
  split
  · exact (endsOnce_terminal rfl).reg _
  · exact (walkRegisters_endsOnce ..).reg _

end

/-- The tables of an enumeration report no terminal record; `R_ENUM_DONE` follows them. -/
theorem enumerate_endsOnce (read : Reader) (base vprefix : Word) (level : Level) (filter : Option Word) (cap : Nat) :
    EndsOnce (enumerate read base vprefix level filter cap).events := by
  have := Level.toNat_le level
  refine (endsOnce_terminal (r := .rEnumDone) rfl).prepend fun r hr => ?_
  rw [recordsOf_enumTable _ level (by omega)] at hr
  exact (TableNode.records_not_terminal _ r hr).1

/-- Settles O60: operation by operation. -/
theorem oneTerminalRecordEndsEachStream : Obligations.OneTerminalRecordEndsEachStream := by
  unfold Obligations.OneTerminalRecordEndsEachStream
  rintro read register va t0 t1 base vprefix level filter cap events (rfl | rfl | rfl | rfl)
  · exact walk_endsOnce read va t0 t1
  · exact walkRegisters_endsOnce read register va
  · exact walkProgramCounter_endsOnce read register
  · exact enumerate_endsOnce read base vprefix level filter cap

end Sys2Proof.Machine
end

section
/-!
The AddressDecomposer: the slices of an address and the root that bit 55 selects (O5, O6), and the two commands that report them
(O16, O17).
-/
namespace Sys2Proof.Machine

/-! ### The five slices of an address (R130, R132) -/

/-- A slice does not see a mask that is all ones there. -/
theorem extractLsb'_and_of_allOnes (va : Word) {mask : Word} {start n : Nat}
    (h : mask.extractLsb' start n = BitVec.allOnes n) : (va &&& mask).extractLsb' start n = va.extractLsb' start n := by
  rw [BitVec.extractLsb'_and, h, BitVec.and_allOnes]

/-- The bits [63:48] reach no index. -/
theorem indexAt_and_va48Mask (va : Word) (level : Level) : indexAt (va &&& Config.va48Mask) level = indexAt va level :=
  extractLsb'_and_of_allOnes va (by cases level <;> decide)

theorem decompose_and_va48Mask (va : Word) :
    (decompose (va &&& Config.va48Mask)).idx = (decompose va).idx ∧
      (decompose (va &&& Config.va48Mask)).off = (decompose va).off := by
  constructor
  · simp only [decompose, indexAt_and_va48Mask]
  · exact extractLsb'_and_of_allOnes va (by decide)

/-- An index in place is the address under the index's mask. -/
theorem indexAt_shiftLeft_shift (va : Word) (level : Level) :
    (indexAt va level).setWidth 64 <<< Config.shift level = va &&& (0x1FF#64 <<< Config.shift level) :=
  extractLsb'_shiftLeft_eq_and va (Config.shift level) 9

theorem pageOffset_setWidth (va : Word) : (va.extractLsb' 0 12).setWidth 64 = va &&& 0xFFF#64 := by
  simpa using extractLsb'_shiftLeft_eq_and va 0 12

/-- The masks of the five slices together are bits [47:0]. -/
theorem reconstruct_decompose (va : Word) : reconstruct (decompose va) = va &&& Config.va48Mask := by
  have h0 : (decompose va).idx.i0.setWidth 64 <<< 39 = va &&& 0x0000FF8000000000#64 := indexAt_shiftLeft_shift va .l0
  have h1 : (decompose va).idx.i1.setWidth 64 <<< 30 = va &&& 0x0000007FC0000000#64 := indexAt_shiftLeft_shift va .l1
  have h2 : (decompose va).idx.i2.setWidth 64 <<< 21 = va &&& 0x000000003FE00000#64 := indexAt_shiftLeft_shift va .l2
  have h3 : (decompose va).idx.i3.setWidth 64 <<< 12 = va &&& 0x00000000001FF000#64 := indexAt_shiftLeft_shift va .l3
  have hoff : (decompose va).off.setWidth 64 = va &&& 0x0000000000000FFF#64 := pageOffset_setWidth va
  rw [reconstruct, h0, h1, h2, h3, hoff]
  simp only [← BitVec.and_or_distrib_left]
  rfl

/-- An index as a digit of the address. -/
theorem indexAt_toNat (va : Word) (level : Level) :
    (indexAt va level).toNat = va.toNat / 2 ^ Config.shift level % 2 ^ 9 := by
  rw [indexAt, BitVec.extractLsb'_toNat, Nat.shiftRight_eq_div_pow]

/-- The slices are the digits of the address, four of base 512 above one of base 4096. -/
theorem decompose_weighted_sum (va : Word) :
    (decompose va).idx.i0.toNat * 2 ^ 39 + (decompose va).idx.i1.toNat * 2 ^ 30 +
        (decompose va).idx.i2.toNat * 2 ^ 21 + (decompose va).idx.i3.toNat * 2 ^ 12 + (decompose va).off.toNat =
      va.toNat % 2 ^ 48 := by
  simp only [decompose, indexAt_toNat, Config.shift, BitVec.extractLsb'_toNat, Nat.shiftRight_zero]
  omega

/-- Settles O5: the five slices are va's bits [47:0], as masks and as digits. -/
theorem decomposeReconstructs : Obligations.DecomposeReconstructs := by
  unfold Obligations.DecomposeReconstructs
  intro va
  refine ⟨reconstruct_decompose va, decompose_weighted_sum va, fun va' h => ?_⟩
  have hlow : va' &&& Config.va48Mask = va &&& Config.va48Mask := h
  obtain ⟨hidx, hoff⟩ := decompose_and_va48Mask va
  obtain ⟨hidx', hoff'⟩ := decompose_and_va48Mask va'
  rw [hlow] at hidx' hoff'
  exact ⟨hidx'.symm.trans hidx, hoff'.symm.trans hoff⟩

/-! ### The selected root (R134) -/

/-- The mask clears the bits above a physical address, so none is lost in it. -/
theorem tableBaseOf_setWidth (v : Word) : (tableBaseOf v).setWidth 64 = v &&& Config.tpMask := by
  have hlt : (v &&& Config.tpMask).toNat < 2 ^ 48 := by
    rw [BitVec.toNat_and]
    exact Nat.lt_of_le_of_lt Nat.and_le_right (by decide)
  rw [← BitVec.toNat_inj, tableBaseOf, BitVec.toNat_setWidth, BitVec.toNat_setWidth]
  omega

/-- Bit 55 selects, and then the mask is one for both. -/
theorem selectRoot_eq_tableBaseOf (va t0 t1 : Word) : selectRoot va t0 t1 = tableBaseOf (if isKernel va then t1 else t0) :=
  (apply_ite tableBaseOf _ _ _).symm

theorem selectRoot_setWidth (va t0 t1 : Word) :
    (selectRoot va t0 t1).setWidth 64 = if isKernel va then t1 &&& Config.tpMask else t0 &&& Config.tpMask := by
  rw [selectRoot_eq_tableBaseOf, tableBaseOf_setWidth, apply_ite (· &&& Config.tpMask)]

/-- Of the address only bit 55 counts, of the TTBRs only the selected one. -/
theorem selectRoot_unselected {va va' : Word} (h : isKernel va' = isKernel va) (t0 t1 other : Word) :
    selectRoot va' (if isKernel va then other else t0) (if isKernel va then t1 else other) = selectRoot va t0 t1 := by
  simp only [selectRoot, h]
  split <;> rfl

/-- Settles O6: the selection by bit 55, with one mask for both registers. -/
theorem selectRootByBit55 : Obligations.SelectRootByBit55 := fun va t0 t1 =>
  ⟨selectRoot_setWidth va t0 t1, pageAligned_selectRoot va t0 t1, fun _ other h => selectRoot_unselected h t0 t1 other⟩

/-! ### Commands that only report (R116, R133, R136) -/

/-- On an idle engine with a ready sink, an instruction that only offers its terminal record reports it and is over. -/
theorem exec_reports {i : Instr} {p : Packet} {r : Record} {s : State} (hbegun : begun i s = offer r (latch p s))
    (ht : r.terminal = true) (hw : s.wait = .idle) (hr : s.sinkReady = true) :
    ∃ t : State, exec i s = .next t ∧
      t.withoutRegisters = State.withoutRegisters { s with trace := s.trace ++ [.record r] } := by
  refine ⟨settle (offer r (latch p s)), by rw [exec_idle i s hw, hbegun], ?_⟩
  rw [settle_terminal_withoutRegisters (offer r (latch p s)) r rfl hr ht, ← hw]
  rfl

/-- Settles O16: the record is the decomposition of `A0`. -/
theorem decomposeReports : Obligations.DecomposeReports := fun _ => ⟨rfl, fun _ hw hr => exec_reports rfl rfl hw hr⟩

/-- Settles O17: the record is the selected root. -/
theorem selrootReports : Obligations.SelrootReports := by
  unfold Obligations.SelrootReports
  intro x
  refine ⟨rfl, fun s hw hr => ?_⟩
  have hroot : ((if x.a0.getLsbD 55 then x.a2 else x.a1) &&& 0x0000FFFFFFFFF000#64).setWidth 48 =
      selectRoot x.a0 x.a1 x.a2 := (selectRoot_eq_tableBaseOf x.a0 x.a1 x.a2).symm
  rw [hroot]
  exact exec_reports rfl rfl hw hr

end Sys2Proof.Machine
end

section
/-!
What the descriptor decoder answers, used: the properties of `Decode` (O7), the command that reports it (O18), and what a walk does
with a descriptor of each kind while the sink takes its records (O26 to O29).
-/
namespace Sys2Proof.Machine

/-! ### The properties of `Decode` (R156) -/

section
variable {raw : Word}

/-- Only the valid bit makes a descriptor Invalid, at whatever level (R151): every other decode has permission fields. -/
theorem decodeDescriptor_eq_invalid_iff (raw : Word) (level : Level) :
    decodeDescriptor raw level = .invalid ↔ validBit raw = false := by
  refine ⟨fun h => ?_, decodeDescriptor_of_not_valid level⟩
  have hperm := decodeDescriptor_perm? raw level
  rw [h] at hperm
  cases hv : validBit raw with
  | false => rfl
  | true => simp [hv, Descriptor.perm?] at hperm

/-- Levels 1 and 2 read a valid word with type bit 0 as Blocks, each with its own address mask (R152, R153). -/
theorem decodeDescriptor_block (hv : validBit raw = true) (ht : typeBit raw = false) :
    decodeDescriptor raw .l1 = .block (block1Address raw) (permOf raw) ∧
      decodeDescriptor raw .l2 = .block (block2Address raw) (permOf raw) := by
  simp [decodeDescriptor_l1 hv, decodeDescriptor_l2 hv, ht]

/-- Levels 1 and 2 read a valid word with type bit 1 as the same Table (R152, R153). -/
theorem decodeDescriptor_table (hv : validBit raw = true) (ht : typeBit raw = true) {level : Level}
    (hlevel : level = .l1 ∨ level = .l2) :
    decodeDescriptor raw level = .table (tableOrPageAddress raw) (permOf raw) false := by
  rcases hlevel with rfl | rfl
  · rw [decodeDescriptor_l1 hv, if_pos ht]
  · rw [decodeDescriptor_l2 hv, if_pos ht]

/-- A level-1 Block's address mask leaves out bits [29:21] of a level-2 Block's, and no other (R153). -/
theorem block1Address_and_eq_block2Address_and (raw : Word) :
    block1Address raw &&& 0xFFFFC01FFFFF#48 = block2Address raw &&& 0xFFFFC01FFFFF#48 := by
  have hmask : (Config.blk1Mask.setWidth 48 &&& 0xFFFFC01FFFFF#48 : PA) =
      Config.blk2Mask.setWidth 48 &&& 0xFFFFC01FFFFF#48 := by decide
  rw [block1Address, block2Address, BitVec.setWidth_and, BitVec.setWidth_and, BitVec.and_assoc, hmask, BitVec.and_assoc]

/-- Levels 1 and 2 agree on every word but for the address of a Block (R156). -/
theorem decodeDescriptor_l1_l2 (raw : Word) :
    decodeDescriptor raw .l1 = decodeDescriptor raw .l2 ∧ (decodeDescriptor raw .l1).kind ≠ .block ∨
      decodeDescriptor raw .l1 = .block (block1Address raw) (permOf raw) ∧
        decodeDescriptor raw .l2 = .block (block2Address raw) (permOf raw) := by
  cases hv : validBit raw with
  | false => simp [decodeDescriptor_of_not_valid _ hv, Descriptor.kind]
  | true =>
    cases ht : typeBit raw with
    | false => exact .inr (decodeDescriptor_block hv ht)
    | true => simp [decodeDescriptor_table hv ht, Descriptor.kind]

/-- What levels 1 and 2 share, as R156 (h) says it. -/
theorem decodeDescriptor_l1_l2_agree (raw : Word) :
    (decodeDescriptor raw .l1).kind = (decodeDescriptor raw .l2).kind ∧
      ((decodeDescriptor raw .l1).kind = .block →
        ∃ oa1 oa2 : PA, ∃ p : Perm, decodeDescriptor raw .l1 = .block oa1 p ∧ decodeDescriptor raw .l2 = .block oa2 p ∧
          oa1 &&& 0xFFFFC01FFFFF#48 = oa2 &&& 0xFFFFC01FFFFF#48) ∧
      ((decodeDescriptor raw .l1).kind ≠ .block → decodeDescriptor raw .l1 = decodeDescriptor raw .l2) := by
  rcases decodeDescriptor_l1_l2 raw with ⟨heq, hkind⟩ | ⟨h1, h2⟩
  · exact ⟨congrArg Descriptor.kind heq, fun h => absurd h hkind, fun _ => heq⟩
  · refine ⟨by rw [h1, h2]; rfl, fun _ => ?_, fun h => absurd (congrArg Descriptor.kind h1) h⟩
    exact ⟨_, _, _, h1, h2, block1Address_and_eq_block2Address_and raw⟩

end

/-- Settles O7: the decode level by level, each clause by the valid bit and the type bit. -/
theorem decodeProperties : Obligations.DecodeProperties := by
  unfold Obligations.DecodeProperties
  exact fun raw =>
    ⟨fun level hv => decodeDescriptor_of_not_valid level hv, fun hv => congrArg Descriptor.kind (decodeDescriptor_l0 hv),
      fun hv => congrArg Descriptor.kind (decodeDescriptor_l3 hv), fun hv ht => decodeDescriptor_block hv ht,
      fun hv ht _ hlevel => decodeDescriptor_table hv ht hlevel, fun level => decodeDescriptor_eq_invalid_iff raw level,
      fun _ _ _ _ h => decodeDescriptor_table_aligned h, decodeDescriptor_l1_l2_agree raw⟩

/-! ### DECODE (R157) -/

/-- Without `CAP`, a command word is its `OP` and its `LVL` (R111). -/
theorem commandPacket_cmdw_of_cap_zero (op : BitVec 4) (lvl : BitVec 2) (x : Operands) :
    (commandPacket op lvl 0#10 x).cmdw = op.setWidth 32 ||| (lvl.setWidth 32 <<< 4) :=
  BitVec.or_zero

/-- Settles O18: the record is the packed decode of `A0`. -/
theorem decodeReports : Obligations.DecodeReports := by
  unfold Obligations.DecodeReports
  intro level x
  refine ⟨?_, fun s hw hr => exec_reports rfl rfl hw hr⟩
  exact congrArg (fun c => Fetched.command ⟨c, x.a0, x.a1, x.a2⟩) (commandPacket_cmdw_of_cap_zero 3#4 level.bits x)

/-! ### A walk's descriptor, with a ready sink (R170, steps 3 to 6) -/

/-- A ready sink takes a terminal record that is pending, and the operation is over (R261). -/
theorem drain_terminal {n : Nat} {s : State} {r : Record} (hr : s.wait = .rpt r) (h : s.sinkReady = true)
    (ht : r.terminal = true) : drain (n + 1) s = finish (logRecord r s) := by
  rw [drain_pending n s r hr h, takeRecord, afterRecord_terminal r _ ht, drain_of_not_pending _ _ (by simp)]

/-- A walk whose descriptor has been received and the `W_ENTRY` of it taken by the sink. -/
def wEntryTaken (raw : Word) (d : Descriptor) (s : State) : State :=
  logRecord (.wEntry s.level (s.idx.get s.level) s.base s.ea raw (pack d)) (walkReceive raw d s)

theorem wEntryTaken_trace (raw : Word) (d : Descriptor) (s : State) :
    (wEntryTaken raw d s).trace =
      s.trace ++ [.record (.wEntry s.level (s.idx.get s.level) s.base s.ea raw (pack d))] := rfl

section
variable {q : MemReq} {raw : Word} {d : Descriptor} {i : Instr} {s : State}

/-- A walk that waits for the descriptor reports it and goes on as its kind asks for. -/
theorem deliver_walk (raw : Word) (d : Descriptor) (hw : s.wait = .mem q) (hop : isEnumeration s.op = false)
    (hr : s.sinkReady = true) : deliver s.level raw d s = drain 5 (afterWEntry (wEntryTaken raw d s)) := by
  have hlevel : currentLevel s = s.level := by simp [currentLevel, hop]
  rw [deliver_awaited _ raw d s q hw hlevel, hop]
  exact drain_pending 5 (walkReceive raw d s) _ rfl hr

/-- A descriptor after which the walk only offers a terminal record ends it, with two records. -/
theorem exec_walk_ends {r : Record} (hw : s.wait = .mem q) (hop : isEnumeration s.op = false) (hr : s.sinkReady = true)
    (hexec : exec i s = .next (deliver s.level raw d s))
    (hend : (afterWEntry (wEntryTaken raw d s)).wait = .rpt r) (ht : r.terminal = true) :
    ∃ t : State, exec i s = .next t ∧ t.withoutRegisters =
      State.withoutRegisters { s with
        wait := .idle
        trace :=
          s.trace ++ [.record (.wEntry s.level (s.idx.get s.level) s.base s.ea raw (pack d)), .record r] } := by
  obtain ⟨hmem, hregs, hlive, hsink, hin, hcmd, -, -⟩ := afterWEntry_extends (wEntryTaken raw d s)
  obtain ⟨htxn, htrace⟩ := issuedFrom_rpt (afterWEntry_issues (wEntryTaken raw d s)) hend
  refine ⟨_, hexec, ?_⟩
  rw [deliver_walk raw d hw hop hr, drain_terminal hend (hsink.trans hr) ht, finish_withoutRegisters,
    withoutRegisters_eq_iff]
  exact ⟨rfl, hcmd, hmem, hregs, hlive, hsink, hin, htxn, by simp [htrace, wEntryTaken_trace]⟩

/-- After a Table the entry of the level below is read in the table at its output address. -/
theorem exec_walk_descends {oa : PA} {p : Perm} {w : Bool} (hw : s.wait = .mem q) (hop : isEnumeration s.op = false)
    (hr : s.sinkReady = true) (hexec : exec i s = .next (deliver s.level raw (.table oa p w) s)) :
    exec i s = .next (walkFetch { wEntryTaken raw (.table oa p w) s with
      pathLen := s.pathLen + 1, base := oa, level := s.level.succ }) := by
  rw [hexec, deliver_walk raw _ hw hop hr]
  exact congrArg _ (drain_of_not_pending 5 (walkFetch _) (by simp [walkFetch]))

end

/-- Settles O26: an Invalid descriptor is followed by the fault. -/
theorem invalidDescriptorEndsAWalk : Obligations.InvalidDescriptorEndsAWalk := by
  unfold Obligations.InvalidDescriptorEndsAWalk
  exact fun _ _ _ hw hop hr => exec_walk_ends (d := .invalid) hw hop hr rfl rfl rfl

/-- Settles O27: each of the three rows is a Table of its level, and the walk descends. -/
theorem tableDescriptorDescends : Obligations.TableDescriptorDescends := by
  unfold Obligations.TableDescriptorDescends
  intro q raw s hw hop hr level next i hi _ hlevel oa d ea
  obtain ⟨hexec, hnext⟩ : exec i s = .next (deliver level raw d s) ∧ level.succ = next := by
    rcases hi with ⟨rfl, rfl, rfl⟩ | ⟨rfl, rfl, rfl⟩ | ⟨rfl, rfl, rfl⟩ <;> exact ⟨rfl, rfl⟩
  subst hlevel hnext
  rw [exec_walk_descends hw hop hr hexec]
  simp [walkFetch, requestMem, wEntryTaken, logRecord, walkReceive, offer, entryAddress, Config.readLen, oa, d, ea]

/-- Settles O28: each of the two rows is a Block of its level, with the level's offset mask. -/
theorem blockDescriptorMaps : Obligations.BlockDescriptorMaps := by
  unfold Obligations.BlockDescriptorMaps
  intro q raw s hw hop hr level oa offset i hi hlevel
  obtain ⟨hexec, haddress⟩ : exec i s = .next (deliver level raw (.block oa (permOf raw)) s) ∧
      blockAddress oa s.va level = oa ||| offset := by
    rcases hi with ⟨rfl, rfl, rfl, rfl⟩ | ⟨rfl, rfl, rfl, rfl⟩ <;> exact ⟨rfl, rfl⟩
  subst hlevel
  rw [← haddress]
  exact exec_walk_ends hw hop hr hexec rfl rfl

/-- Settles O29: a Page is followed by the mapping, with `OFF` in place. -/
theorem pageDescriptorMaps : Obligations.PageDescriptorMaps := by
  unfold Obligations.PageDescriptorMaps
  intro q raw s hw hop hr hlevel oa
  have hexec : exec (.descPageL3 raw) s = .next (deliver s.level raw (.page oa (permOf raw)) s) := by
    rw [hlevel]
    rfl
  have hmaps := exec_walk_ends hw hop hr hexec rfl rfl
  rwa [hlevel] at hmaps

end Sys2Proof.Machine
end

section
/-!
The table walk: the final address of a block or page (O12), the registers read before a walk begins (O38, O39), the path of a walk
against its outcome (O54), and ENUMT against the walk (O55).
-/
namespace Sys2Proof.Machine

/-! ### Output address and offset (R173, R174) -/

section
variable {n : Nat} {oa : PA}

/-- An address aligned to `2^n` shares no bit with an offset of `n` bits. -/
theorem aligned_and_offset (h : oa.extractLsb' 0 n = 0#n) (off : BitVec n) : oa &&& off.setWidth 48 = 0#48 := by
  ext i hi
  rcases Nat.lt_or_ge i n with hlow | hhigh
  · have hbit : oa.getLsbD i = false := by simpa [hlow] using congrArg (fun b : BitVec n => b.getLsbD i) h
    simp [← BitVec.getLsbD_eq_getElem, hbit]
  · simp [BitVec.getLsbD_of_ge off i hhigh]

/-- So the offset is added to the address without a carry. -/
theorem aligned_or_offset_toNat (h : oa.extractLsb' 0 n = 0#n) (hn : n ≤ 48) (off : BitVec n) :
    (oa ||| off.setWidth 48).toNat = oa.toNat + off.toNat := by
  have hoff : (off.setWidth 48).toNat = off.toNat := BitVec.toNat_setWidth_of_le hn
  rw [← BitVec.add_eq_or_of_and_eq_zero _ _ (aligned_and_offset h off),
    BitVec.toNat_add_of_and_eq_zero (aligned_and_offset h off), hoff]

end

/-- The low bits of an address, as a number. -/
theorem extractLsb'_zero_toNat (va : Word) (n : Nat) : (va.extractLsb' 0 n).toNat = va.toNat % 2 ^ n := by
  rw [BitVec.extractLsb'_toNat, Nat.shiftRight_zero]

/-- The block offset mask of a level keeps the bits below its shift. -/
theorem and_blockOffsetMask (va : Word) (level : Level) :
    va &&& blockOffsetMask level = (va.extractLsb' 0 (Config.shift level)).setWidth 64 := by
  have hslice := extractLsb'_shiftLeft_eq_and va 0 (Config.shift level)
  rw [BitVec.shiftLeft_zero, BitVec.shiftLeft_zero] at hslice
  rw [hslice]
  cases level <;> rfl

theorem shift_le_48 (level : Level) : Config.shift level ≤ 48 := by cases level <;> decide

/-- The offset of a block as a physical address. -/
theorem blockOffset_eq (va : Word) (level : Level) :
    (va &&& blockOffsetMask level).setWidth 48 = (va.extractLsb' 0 (Config.shift level)).setWidth 48 := by
  rw [and_blockOffsetMask, BitVec.setWidth_setWidth_of_le _ (by decide)]

theorem blockAddress_eq (oa : PA) (va : Word) (level : Level) :
    blockAddress oa va level = oa ||| (va.extractLsb' 0 (Config.shift level)).setWidth 48 := by
  rw [blockAddress, blockOffset_eq]

/-- A Block's output address is aligned to the size of its block (R153). -/
theorem decodeDescriptor_block_aligned {raw : Word} {level : Level} {oa : PA} {p : Perm}
    (h : decodeDescriptor raw level = .block oa p) : oa.extractLsb' 0 (Config.shift level) = 0#(Config.shift level) := by
  have hlegal := decodeDescriptor_legalAt raw level
  rw [h] at hlegal
  rcases decodeDescriptor_block_level h with rfl | rfl
  · show oa.extractLsb' 0 30 = 0#30
    simpa [Descriptor.legalAt] using hlegal
  · show oa.extractLsb' 0 21 = 0#21
    simpa [Descriptor.legalAt] using hlegal

/-- A Page is met at level 3 only, its output address page-aligned (R152, R153). -/
theorem decodeDescriptor_page_legal {raw : Word} {level : Level} {oa : PA} {p : Perm}
    (h : decodeDescriptor raw level = .page oa p) : level = .l3 ∧ oa.extractLsb' 0 12 = 0#12 := by
  have hlegal := decodeDescriptor_legalAt raw level
  simpa [h, Descriptor.legalAt, pageAligned] using hlegal

/-- Settles O12: output address and offset are apart, for a Block at its level's shift and for a Page at 12. -/
theorem finalAddressKeepsOffset : Obligations.FinalAddressKeepsOffset := by
  unfold Obligations.FinalAddressKeepsOffset
  refine ⟨rfl, rfl, fun raw va va' level oa p hd => ?_, fun raw va oa p hd => ?_⟩
  · have haligned := decodeDescriptor_block_aligned hd
    refine ⟨rfl, ?_, ?_, fun hva => ?_⟩
    · rw [blockOffset_eq]
      exact aligned_and_offset haligned _
    · rw [blockAddress_eq, aligned_or_offset_toNat haligned (shift_le_48 level), extractLsb'_zero_toNat]
    · have hlow : va.extractLsb' 0 (Config.shift level) = va'.extractLsb' 0 (Config.shift level) := by
        rwa [← BitVec.toNat_inj, extractLsb'_zero_toNat, extractLsb'_zero_toNat]
      rw [blockAddress_eq, blockAddress_eq, hlow]
  · obtain ⟨-, haligned⟩ := decodeDescriptor_page_legal hd
    refine ⟨rfl, aligned_and_offset haligned _, ?_⟩
    rw [pageAddress, aligned_or_offset_toNat haligned (by decide)]
    exact congrArg _ (extractLsb'_zero_toNat va 12)

/-! ### The registers of WALKR and WALKPC (R177, R178) -/

/-- A live reader's answer to a register request is received in the next step. -/
theorem step_reg_responsive {q : RegReq} {s : State} (hs : s.responsive) (hw : s.wait = .reg q) :
    step s = .next (settle (receiveReg q.sel (s.regs.get q.sel) s)) := by
  obtain ⟨hin, hlive, -⟩ := hs
  rw [step_no_input s hin, advance_reg s q hw hlive]

theorem settle_walkBegin (va : Word) (s : State) : settle (walkBegin va s) = walkBegin va s :=
  settle_requestMem _ { s with va := va, base := _, idx := _, off := _, level := .l0, pathLen := 0 }

/-- Settles O38: the abort is a terminal record, which the sink takes. -/
theorem unavailableRegisterAborts : Obligations.UnavailableRegisterAborts := by
  unfold Obligations.UnavailableRegisterAborts
  intro q s hw hs hnone
  have hstep := step_reg_responsive hs hw
  obtain ⟨-, -, hsink⟩ := hs
  rw [hnone] at hstep
  exact ⟨settle (raiseAbort q.sel s), hstep, settle_terminal_withoutRegisters (raiseAbort q.sel s) _ rfl hsink rfl⟩

/-- Settles O39: register by register, what the answer makes the engine request next. -/
theorem registersAreReadInOrder : Obligations.RegistersAreReadInOrder := by
  unfold Obligations.RegistersAreReadInOrder
  intro tag v s hs
  refine ⟨fun hw hv => ?_, fun hw hv => ?_, fun hw hv => ?_⟩
  · rw [step_reg_responsive hs hw, SysRegs.get, hv]
    exact congrArg _ (settle_requestReg _ { s with va := v })
  · rw [step_reg_responsive hs hw, SysRegs.get, hv]
    exact congrArg _ (settle_requestReg _ { s with t0 := v })
  · rw [step_reg_responsive hs hw, SysRegs.get, hv]
    exact congrArg _ (settle_walkBegin _ { s with t1 := v })

/-! ### The requests among events -/

theorem requestsOf_append (es fs : List Event) : requestsOf (es ++ fs) = requestsOf es ++ requestsOf fs := by
  induction es with
  | nil => rfl
  | cons e es ih =>
    cases e with
    | mem a length => exact congrArg (a :: ·) ih
    | reg | record => exact ih

@[simp] theorem requestsOf_memEvent (ea : PA) (es : List Event) :
    requestsOf (memEvent ea :: es) = ea.setWidth 64 :: requestsOf es := rfl

@[simp] theorem requestsOf_record (r : Record) (es : List Event) : requestsOf (.record r :: es) = requestsOf es := rfl

@[simp] theorem recordsOf_memEvent (ea : PA) (es : List Event) : recordsOf (memEvent ea :: es) = recordsOf es := rfl

@[simp] theorem recordsOf_record (r : Record) (es : List Event) : recordsOf (.record r :: es) = r :: recordsOf es := rfl

/-! ### The path of a walk and its outcome (R172) -/

/-- The path entry of the word a walk reads at a level (R26). -/
def entryRead (va : Word) (level : Level) (base : PA) (b : Bytes8) : PathEntry :=
  let index := (decompose va).idx.get level
  { level := level, index := index, tableBase := base, entryAddress := entryAddress base index, raw := le64 b,
    descriptor := decodeDescriptor (le64 b) level }

/-- What follows a level's entry, with its result: the levels below a Table, or the end of the walk (R170, steps 4 to 6). -/
def walkRest (read : Reader) (va : Word) (level : Level) (rest : List Level) (ea : PA) (path : List PathEntry) (n : Nat) :
    Descriptor → List Event × WalkResult
  | .invalid => ([.record (.rFault level .invalidEntry ea)], .fault level .invalidEntry ea path)
  | .table oa _ _ => walkFrom read va rest oa path n
  | .block oa _ =>
    ([.record (.rMapped (blockAddress oa va level) level .block)], .mapped (blockAddress oa va level) path)
  | .page oa _ =>
    ([.record (.rMapped (pageAddress oa (decompose va).off) .l3 .page)],
      .mapped (pageAddress oa (decompose va).off) path)

/-- How a walk that ends at a level ends: its result and its last record, with a path of the length the outcome calls for. -/
inductive EndsAt (level : Level) : WalkResult → Record → Prop where
  | mapped {pa : PA} {path : List PathEntry} {k : Kind}
      (hkind : (k = .block ∧ (level = .l1 ∨ level = .l2)) ∨ (k = .page ∧ level = .l3))
      (hlength : path.length = level.toNat + 1) : EndsAt level (.mapped pa path) (.rMapped pa level k)
  | invalid {path : List PathEntry} {e : PathEntry} (hinvalid : e.descriptor = .invalid)
      (hlength : (path ++ [e]).length = level.toNat + 1) :
      EndsAt level (.fault level .invalidEntry e.entryAddress (path ++ [e])) (.rFault level .invalidEntry e.entryAddress)
  | unreadable {ea : PA} {path : List PathEntry} (hlength : path.length = level.toNat) :
      EndsAt level (.fault level .unreadableMemory ea path) (.rFault level .unreadableMemory ea)

/-- The levels of a path are 0, 1, 2, ... in order. -/
def InOrder (path : List PathEntry) : Prop := path.map (fun e => e.level.toNat) = List.range path.length

theorem InOrder.snoc {path : List PathEntry} {e : PathEntry} (h : InOrder path) (he : e.level.toNat = path.length) :
    InOrder (path ++ [e]) := by
  rw [InOrder, List.map_append, h, List.length_append, List.length_singleton, List.range_succ, List.map_singleton, he]

/-- What is left of a walk after `path` agrees with its outcome: it adds entries to the path, reports them and then the outcome, and
requests one word for each and one for a read that fails. -/
def PathAgrees (path : List PathEntry) (r : List Event × WalkResult) : Prop :=
  ∃ (level : Level) (last : Record) (entries : List PathEntry), EndsAt level r.2 last ∧ r.2.path = path ++ entries ∧
    InOrder r.2.path ∧ recordsOf r.1 = entries.map PathEntry.record ++ [last] ∧
    path.length + (requestsOf r.1).length = level.toNat + 1

/-- A walk that ends without another request. -/
theorem pathAgrees_end {path : List PathEntry} {result : WalkResult} {last : Record} {level : Level}
    (h : EndsAt level result last) (hpath : result.path = path) (horder : InOrder path)
    (hlength : path.length = level.toNat + 1) : PathAgrees path ([.record last], result) :=
  ⟨level, last, [], h, by simp [hpath], hpath ▸ horder, rfl, hlength⟩

/-- A level's entry read and reported, before the rest of the walk. -/
theorem PathAgrees.prepend {path : List PathEntry} {e : PathEntry} {r : List Event × WalkResult} (ea : PA)
    (h : PathAgrees (path ++ [e]) r) : PathAgrees path (memEvent ea :: .record e.record :: r.1, r.2) := by
  obtain ⟨level, last, entries, hends, hpath, horder, hrecords, hrequests⟩ := h
  refine ⟨level, last, e :: entries, hends, by simp [hpath], horder, by simp [hrecords], ?_⟩
  simp only [List.length_append, List.length_singleton] at hrequests
  simp only [requestsOf_memEvent, requestsOf_record, List.length_cons]
  omega

section
variable {read : Reader} {va : Word} {level : Level} {rest : List Level} {base : PA} {path : List PathEntry} {n : Nat}

/-- The read fails, and the walk ends with the path it has (R253). -/
theorem walkFrom_unread_eq {ea : PA} (hea : entryAddress base ((decompose va).idx.get level) = ea)
    (hb : read n (ea.setWidth 64) = none) :
    walkFrom read va (level :: rest) base path n =
      ([memEvent ea, .record (.rFault level .unreadableMemory ea)], .fault level .unreadableMemory ea path) := by
  subst hea
  rw [walkFrom, hb]

/-- The read is answered: its entry, and what the descriptor asks for. -/
theorem walkFrom_read_eq {b : Bytes8} {d : Descriptor} {e : PathEntry} (he : entryRead va level base b = e)
    (hb : read n (e.entryAddress.setWidth 64) = some b) (hd : decodeDescriptor (le64 b) level = d) :
    let r := walkRest read va level rest e.entryAddress (path ++ [e]) (n + 1) d
    walkFrom read va (level :: rest) base path n = (memEvent e.entryAddress :: .record e.record :: r.1, r.2) := by
  subst he
  simp only [entryRead] at hb
  rw [walkFrom, hb]
  cases d <;> simp only [hd, walkRest, entryRead]

/-- From `level` on, a walk over these levels agrees with its outcome. -/
def WalkAgrees (read : Reader) (va : Word) (level : Level) (levels : List Level) : Prop :=
  ∀ base path n, path.length = level.toNat → InOrder path → PathAgrees path (walkFrom read va levels base path n)

/-- After the entry of a level: only a Table, which is not met at level 3, goes on. -/
theorem walkRest_agrees {b : Bytes8} {d : Descriptor} {e : PathEntry} (he : entryRead va level base b = e)
    (hd : decodeDescriptor (le64 b) level = d) (hlength : (path ++ [e]).length = level.toNat + 1)
    (horder : InOrder (path ++ [e])) (h : level ≠ .l3 → WalkAgrees read va level.succ rest) :
    PathAgrees (path ++ [e]) (walkRest read va level rest e.entryAddress (path ++ [e]) n d) := by
  cases d with
  | invalid =>
    have hinvalid : e.descriptor = .invalid := he ▸ hd
    exact pathAgrees_end (.invalid hinvalid hlength) rfl horder hlength
  | table oa p w =>
    have hl := decodeDescriptor_table_level hd
    exact h hl oa _ n (hlength.trans (Level.toNat_succ level hl).symm) horder
  | block oa p =>
    exact pathAgrees_end (.mapped (.inl ⟨rfl, decodeDescriptor_block_level hd⟩) hlength) rfl horder hlength
  | page oa p =>
    obtain ⟨rfl, -⟩ := decodeDescriptor_page_legal hd
    exact pathAgrees_end (.mapped (.inr ⟨rfl, rfl⟩) hlength) rfl horder hlength

/-- One level of a walk: a read that fails ends it, and an answered one adds its entry to the path. -/
theorem walkAgrees_cons (h : level ≠ .l3 → WalkAgrees read va level.succ rest) :
    WalkAgrees read va level (level :: rest) := by
  intro base path n hlength horder
  cases hb : read n ((entryAddress base ((decompose va).idx.get level)).setWidth 64) with
  | none =>
    rw [walkFrom_unread_eq rfl hb]
    exact ⟨level, _, [], .unreadable hlength, (List.append_nil path).symm, horder, rfl, congrArg (· + 1) hlength⟩
  | some b =>
    generalize he : entryRead va level base b = e
    have hlevel : e.level.toNat = path.length := he ▸ hlength.symm
    rw [walkFrom_read_eq he (he ▸ hb) rfl]
    exact (walkRest_agrees he rfl (by simp [hlength]) (horder.snoc hlevel) h).prepend _

end

theorem walk_agrees (read : Reader) (va t0 t1 : Word) : PathAgrees [] (walk read va t0 t1) := by
  have hroot : WalkAgrees read va .l0 [.l0, .l1, .l2, .l3] :=
    walkAgrees_cons fun _ => walkAgrees_cons fun _ => walkAgrees_cons fun _ => walkAgrees_cons (absurd rfl)
  exact hroot _ [] 0 rfl rfl

/-- Settles O54: the three ways a walk ends, with as many entries as its path holds. -/
theorem walkPathMatchesItsOutcome : Obligations.WalkPathMatchesItsOutcome := by
  unfold Obligations.WalkPathMatchesItsOutcome
  intro read va t0 t1 r
  obtain ⟨level, last, entries, hends, hpath, horder, hrecords, hrequests⟩ : PathAgrees [] r := walk_agrees read va t0 t1
  rw [List.nil_append] at hpath
  rw [List.length_nil, Nat.zero_add] at hrequests
  refine ⟨⟨last, by rw [hpath, hrecords], ?_⟩, horder⟩
  generalize r.2 = result at hends
  cases hends with
  | mapped hkind hlength => exact .inl ⟨_, _, level, _, rfl, rfl, hkind, hlength, hrequests⟩
  | invalid hinvalid hlength =>
    exact .inr (.inl ⟨level, _, _, rfl, rfl, hlength, ⟨_, List.getLast?_concat, hinvalid, rfl⟩, hrequests⟩)
  | unreadable hlength => exact .inr (.inr ⟨level, _, _, rfl, rfl, hlength, hrequests⟩)

/-! ### ENUMT and the walk (R179) -/

/-- A table base is a value in TTBR format of itself. -/
theorem tableBaseOf_tableBaseOf (v : Word) : tableBaseOf ((tableBaseOf v).setWidth 64) = tableBaseOf v := by
  rw [tableBaseOf_setWidth, tableBaseOf, tableBaseOf, BitVec.and_assoc, BitVec.and_self]

section
variable {read : Reader} {va : Word} {cap : Nat} {level : Level} {rest : List Level} {left : Nat}

/-- With a filter a table's requests are those of the target's index, whatever the cap (R201, R204). -/
theorem requestsOf_enumTable_filtered (base : PA) (vprefix : Word) (n : Nat) :
    requestsOf (enumTable read (some va) cap (left + 1) level base vprefix n).events =
      requestsOf (visitIndex read (enumTable read (some va) cap left level.succ) level base vprefix
        (indexAt va level).toNat n).events := by
  have hc : capReached true cap 0 = false := rfl
  simp [enumTable, tableIndices, enumLoop_cons hc, enumLoop, requestsOf_append, requestsOf]

theorem decompose_idx_get (va : Word) (level : Level) : (decompose va).idx.get level = indexAt va level := by
  cases level <;> rfl

/-- From a table of `level` on, the filtered enumeration and the walk over these levels make the same requests. -/
def ReadsAlike (read : Reader) (va : Word) (cap left : Nat) (level : Level) (levels : List Level) : Prop :=
  ∀ base vprefix path n,
    requestsOf (enumTable read (some va) cap left level base vprefix n).events =
      requestsOf (walkFrom read va levels base path n).1

/-- Both read the entry of the target's index, and then, below a Table, its table (R170, R200). -/
theorem readsAlike_cons (h : level ≠ .l3 → ReadsAlike read va cap left level.succ rest) :
    ReadsAlike read va cap (left + 1) level (level :: rest) := by
  intro base vprefix path n
  have hea : entryAddress base ((decompose va).idx.get level) = entryAddress base (indexAt va level) := by
    rw [decompose_idx_get]
  rw [requestsOf_enumTable_filtered]
  cases hb : read n ((entryAddress base (indexAt va level)).setWidth 64) with
  | none =>
    rw [walkFrom_unread hea hb]
    simp [visitIndex, hb]
  | some b =>
    generalize hd : decodeDescriptor (le64 b) level = d
    obtain ⟨path', heq⟩ := walkFrom_read (rest := rest) (path := path) hea hb hd
    rw [heq]
    cases d with
    | table oa p w =>
      simp [visitIndex, hb, hd, walkTail, h (decodeDescriptor_table_level hd) oa _ path' (n + 1)]
    | invalid | block oa p | page oa p => simp [visitIndex, hb, hd, walkTail]

theorem readsAlike_root : ReadsAlike read va cap 4 .l0 [.l0, .l1, .l2, .l3] :=
  readsAlike_cons fun _ => readsAlike_cons fun _ => readsAlike_cons fun _ => readsAlike_cons (absurd rfl)

end

/-- Settles O55: level by level, from the root both select. -/
theorem targetedEnumerationReadsTheWalk : Obligations.TargetedEnumerationReadsTheWalk := by
  unfold Obligations.TargetedEnumerationReadsTheWalk
  intro read va t0 t1 vprefix cap
  have hroot : tableBaseOf ((selectRoot va t0 t1).setWidth 64) = selectRoot va t0 t1 := by
    rw [selectRoot_eq_tableBaseOf, tableBaseOf_tableBaseOf]
  simp only [enumerate, requestsOf_append, hroot]
  exact (List.append_nil _).trans (readsAlike_root (selectRoot va t0 t1) vprefix [] 0)

end Sys2Proof.Machine
end

section
/-!
The work of an enumeration: how many tables it closes and how many entries it reads (R209, O58).
-/
namespace Sys2Proof.Machine

/-! ### The tables among events -/

theorem tablesOf_append (es fs : List Event) : tablesOf (es ++ fs) = tablesOf es + tablesOf fs := by
  induction es with
  | nil => simp [tablesOf]
  | cons e es ih =>
    rcases e with _ | _ | r
    · exact ih
    · exact ih
    · cases r
      case eTableEnd =>
        simp only [List.cons_append, tablesOf, ih]
        omega
      all_goals exact ih

/-- How many tables can hang together, `left` of them one below the other, when each has at most `c` tables under it (R209). -/
def tableBound (c left : Nat) : Nat := ((List.range left).map (c ^ ·)).sum

theorem tableBound_succ (c left : Nat) : tableBound c (left + 1) = c * tableBound c left + 1 := by
  simp only [tableBound, List.sum_range_succ', Nat.pow_zero, Nat.succ_eq_add_one, pow_succ', List.sum_map_mul_left]
  exact Nat.add_comm _ _

/-! ### The tables an enumeration closes (R209) -/

section
variable {read : Reader} {sub : PA → Word → Nat → TableRun} {filt : Bool} {cap : Nat} {level : Level} {base : PA}
  {vprefix : Word} {bound : Nat}

/-- What holds of a loop that stops, and goes on holding with one more index before it, holds of every loop (R200). -/
theorem enumLoop_induction {P : List Nat → Nat → LoopRun → Prop}
    (stop : ∀ indices emitted n truncated, P indices emitted ⟨[], [], emitted, truncated, n⟩)
    (visit : ∀ i rest emitted n r,
      let v := visitIndex read sub level base vprefix i n
      P rest (emitted + entryCount v.child.toList) r →
        P (i :: rest) emitted { r with events := v.events ++ r.events, children := v.child.toList ++ r.children })
    (indices : List Nat) :
    ∀ emitted n, P indices emitted (enumLoop read sub filt cap level base vprefix indices emitted n) := by
  induction indices with
  | nil => exact fun emitted n => stop [] emitted n false
  | cons i rest ih =>
    intro emitted n
    cases hc : capReached filt cap emitted with
    | true =>
      rw [enumLoop_capped hc]
      exact stop _ _ _ _
    | false =>
      rw [enumLoop_cons hc]
      exact visit _ _ _ _ _ (ih _ _)

/-- Below an index there are tables only if it adds an entry. -/
theorem tablesOf_visitIndex_le (hsub : ∀ oa cp n, tablesOf (sub oa cp n).events ≤ bound) (i n : Nat) :
    tablesOf (visitIndex read sub level base vprefix i n).events ≤
      entryCount (visitIndex read sub level base vprefix i n).child.toList * bound := by
  simp only [visitIndex]
  split
  · simp [tablesOf, memEvent]
  · split
    · simp [tablesOf, memEvent]
    · simpa [tablesOf, memEvent, entryRecord, entryCount] using hsub _ _ _
    · simp [tablesOf, memEvent, entryRecord]
    · simp [tablesOf, memEvent, entryRecord]

theorem tablesOf_enumLoop_le (hsub : ∀ oa cp n, tablesOf (sub oa cp n).events ≤ bound) (indices : List Nat)
    (emitted n : Nat) :
    tablesOf (enumLoop read sub filt cap level base vprefix indices emitted n).events + emitted * bound ≤
      (enumLoop read sub filt cap level base vprefix indices emitted n).emitted * bound := by
  refine enumLoop_induction (P := fun _ emitted r => tablesOf r.events + emitted * bound ≤ r.emitted * bound) ?_ ?_
    indices emitted n
  · exact fun _ _ _ _ => (Nat.zero_add _).le
  · intro i _ emitted m r v hrest
    have hvisit : tablesOf v.events ≤ entryCount v.child.toList * bound := tablesOf_visitIndex_le hsub i m
    rw [Nat.add_mul] at hrest
    simp only [tablesOf_append]
    omega

/-- Each index adds at most one entry. -/
theorem enumLoop_emitted_le_length (indices : List Nat) (emitted n : Nat) :
    (enumLoop read sub filt cap level base vprefix indices emitted n).emitted ≤ emitted + indices.length := by
  refine enumLoop_induction (P := fun indices emitted r => r.emitted ≤ emitted + indices.length) ?_ ?_ indices emitted n
  · exact fun _ _ _ _ => Nat.le_add_right _ _
  · intro i rest emitted m r v hrest
    have hone := entryCount_toList_le_one v.child
    simp only [List.length_cons]
    omega

/-! ### The entries an enumeration reads (R209) -/

/-- An index costs its own read and those of the table below it. -/
theorem requestsOf_visitIndex_length_le
    (hsub : ∀ oa cp n, (requestsOf (sub oa cp n).events).length ≤ bound * tablesOf (sub oa cp n).events) (i n : Nat) :
    (requestsOf (visitIndex read sub level base vprefix i n).events).length ≤
      bound * tablesOf (visitIndex read sub level base vprefix i n).events + 1 := by
  simp only [visitIndex]
  split
  · simp [requestsOf]
  · split
    · simp [requestsOf]
    · simpa [tablesOf, memEvent, requestsOf, entryRecord] using hsub _ _ _
    · simp [requestsOf]
    · simp [requestsOf]

theorem requestsOf_enumLoop_length_le
    (hsub : ∀ oa cp n, (requestsOf (sub oa cp n).events).length ≤ bound * tablesOf (sub oa cp n).events)
    (indices : List Nat) (emitted n : Nat) :
    (requestsOf (enumLoop read sub filt cap level base vprefix indices emitted n).events).length ≤
      bound * tablesOf (enumLoop read sub filt cap level base vprefix indices emitted n).events + indices.length := by
  refine enumLoop_induction
    (P := fun indices _ r => (requestsOf r.events).length ≤ bound * tablesOf r.events + indices.length) ?_ ?_
    indices emitted n
  · exact fun _ _ _ _ => Nat.zero_le _
  · intro i _ _ m r v hrest
    have hvisit : (requestsOf v.events).length ≤ bound * tablesOf v.events + 1 := requestsOf_visitIndex_length_le hsub i m
    rw [tablesOf_append, requestsOf_append, List.length_append, List.length_cons, Nat.mul_add]
    omega

end

/-- How many indices a table's loop visits at most (R201). -/
def indexCount (filter : Option Word) : Nat := if filter.isSome then 1 else 512

theorem tableIndices_length (filter : Option Word) (level : Level) :
    (tableIndices filter level).length = indexCount filter := by
  cases filter <;> simp [tableIndices, indexCount]

section
variable {read : Reader} {filter : Option Word} {cap : Nat}

theorem tablesOf_enumTable_le (left : Nat) : ∀ level base vprefix n,
    tablesOf (enumTable read filter cap left level base vprefix n).events ≤ tableBound (entryBound filter cap) left := by
  induction left with
  | zero => exact fun _ _ _ _ => Nat.zero_le _
  | succ left ih =>
    intro level base vprefix n
    let r := enumLoop read (enumTable read filter cap left level.succ) filter.isSome cap level base vprefix
      (tableIndices filter level) 0 n
    have htables : tablesOf r.events + 0 * _ ≤ r.emitted * tableBound (entryBound filter cap) left :=
      tablesOf_enumLoop_le (ih level.succ) (tableIndices filter level) 0 n
    have hlength : r.emitted ≤ 0 + (tableIndices filter level).length := enumLoop_emitted_le_length _ 0 n
    rw [Nat.zero_add] at hlength
    have hemitted : r.emitted ≤ entryBound filter cap := enumLoop_emitted_le_bound filter cap level base vprefix n hlength
    rw [Nat.zero_mul, Nat.add_zero] at htables
    rw [enumTable, tablesOf_append, tableBound_succ]
    exact Nat.succ_le_succ (htables.trans (Nat.mul_le_mul_right _ hemitted))

theorem requestsOf_enumTable_length_le (left : Nat) : ∀ level base vprefix n,
    (requestsOf (enumTable read filter cap left level base vprefix n).events).length ≤
      indexCount filter * tablesOf (enumTable read filter cap left level base vprefix n).events := by
  induction left with
  | zero => exact fun _ _ _ _ => Nat.zero_le _
  | succ left ih =>
    intro level base vprefix n
    simp only [enumTable, tablesOf_append, requestsOf_append, requestsOf, tablesOf, List.append_nil]
    refine (requestsOf_enumLoop_length_le (ih level.succ) (tableIndices filter level) 0 n).trans ?_
    rw [tableIndices_length]
    exact le_refl _

variable (base vprefix : Word) (level : Level)

/-- `R_ENUM_DONE` closes no table and reads nothing. -/
theorem enumerate_work_le :
    let t := enumerate read base vprefix level filter cap
    tablesOf t.events ≤ tableBound (entryBound filter cap) (4 - level.toNat) ∧
      (requestsOf t.events).length ≤ indexCount filter * tablesOf t.events := by
  simp only [enumerate, tablesOf_append, requestsOf_append, requestsOf, tablesOf, List.append_nil, Nat.add_zero]
  exact ⟨tablesOf_enumTable_le _ _ _ _ _, requestsOf_enumTable_length_le _ _ _ _ _⟩

end

/-- Settles O58: with a filter each table has one index, so at most one table under it. -/
theorem enumerationWorkIsBounded : Obligations.EnumerationWorkIsBounded := by
  unfold Obligations.EnumerationWorkIsBounded
  intro read base vprefix level cap target wide narrow
  obtain ⟨htables, hrequests⟩ := enumerate_work_le (read := read) (filter := none) (cap := cap) base vprefix level
  obtain ⟨htables', hrequests'⟩ :=
    enumerate_work_le (read := read) (filter := some target) (cap := cap) base vprefix level
  have hone : tableBound (entryBound (some target) cap) (4 - level.toNat) = 4 - level.toNat := by
    simp [tableBound, entryBound]
  rw [hone] at htables'
  exact ⟨htables, hrequests, htables', hrequests'.trans ((Nat.one_mul _).le.trans htables')⟩

end Sys2Proof.Machine
end

section
/-!
The enumerations at their requests: how ENUM with cap 0 and ENUMT begin (O22, O23), and what the engine does with the answer for an
entry, by its kind (O31 to O34, O37).
-/
namespace Sys2Proof.Machine

/-! ### ENUM and ENUMT begin (R204, R210, R211) -/

/-- The first index a table is read at: the target's with a filter, 0 without (R201). -/
def openingIndex (level : Level) (s : State) : BitVec 9 := if s.filt then indexAt s.target level else 0#9

theorem firstIndex_eq_openingIndex (level : Level) (s : State) :
    firstIndex s.filt s.target level = (openingIndex level s).toNat := by
  cases hfilt : s.filt <;> simp [firstIndex, openingIndex, hfilt]

/-- A table opened with a filter, or below its cap, reads its first entry. -/
theorem openTable_reads {s : State} (h : s.filt = true ∨ s.cap ≠ 0#10) (base : PA) (vprefix : Word) (level : Level) :
    openTable base vprefix level s =
      requestMem (entryAddress base (openingIndex level s))
        { s with
          frames := s.frames.set level ⟨base, vprefix, (openingIndex level s).toNat, 0, false⟩
          top := level } := by
  have hc : capReached s.filt s.cap.toNat 0 = false := by
    rcases h with hfilt | hcap
    · simp [capReached, hfilt]
    · have hpos : s.cap.toNat ≠ 0 := fun h0 => hcap (BitVec.eq_of_toNat_eq h0)
      simp [capReached, hpos]
  rw [openTable, firstIndex_eq_openingIndex, enumVisit_reads]
  · simp [topFrame, topIndex]
  · simpa [topFrame] using (openingIndex level s).isLt
  · simpa [topFrame] using hc

/-- A table opened without a filter and with cap 0 closes unread (R204). -/
theorem openTable_capped {s : State} (hfilt : s.filt = false) (hcap : s.cap = 0#10) (base : PA) (vprefix : Word)
    (level : Level) :
    openTable base vprefix level s =
      offer (.eTableEnd level base 0#10 true)
        { s with frames := s.frames.set level ⟨base, vprefix, 0, 0, true⟩, top := level } := by
  rw [openTable, firstIndex, hfilt, enumVisit_capped]
  · simp [closeTable, setTopFrame, topFrame]
  · simp [topFrame]
  · simp [capReached, topFrame, hcap]

/-- The root's `E_TABLE_END` and `R_ENUM_DONE` are taken, and the enumeration is over (R200). -/
theorem drain_closes_root {n : Nat} {level : Level} {base : PA} {emitted : BitVec 10} {truncated : Bool} {s : State}
    (htop : s.top = s.start) (hr : s.sinkReady = true) :
    (drain (n + 1 + 1) (offer (.eTableEnd level base emitted truncated) s)).withoutRegisters =
      State.withoutRegisters { s with
        wait := .idle
        trace := s.trace ++ [.record (.eTableEnd level base emitted truncated), .record .rEnumDone] } := by
  generalize hrec : Record.eTableEnd level base emitted truncated = r
  have hdone : takeRecord r (offer r s) = offer .rEnumDone (logRecord r (offer r s)) := by
    subst hrec
    exact if_pos htop
  rw [drain_pending (n + 1) (offer r s) r rfl hr, hdone,
    drain_terminal (s := offer .rEnumDone (logRecord r (offer r s))) rfl hr rfl, finish_withoutRegisters,
    withoutRegisters_eq_iff]
  exact ⟨rfl, rfl, rfl, rfl, rfl, rfl, rfl, rfl, by simp⟩

/-- Settles O22: the root table closes at once. -/
theorem enumWithCapZeroReadsNothing : Obligations.EnumWithCapZeroReadsNothing := by
  unfold Obligations.EnumWithCapZeroReadsNothing
  intro level x s hw hr base
  refine ⟨_, exec_idle _ s hw, ?_⟩
  rw [begun, latch_commandPacket, enumBegin, openTable_capped rfl rfl]
  refine Eq.trans (drain_closes_root (n := 4) rfl hr) ?_
  rw [← hw]
  rfl

/-- Settles O23: with a filter the cap is not consulted, and the first index is the target's. -/
theorem enumtBegins : Obligations.EnumtBegins := by
  unfold Obligations.EnumtBegins
  intro level cap x s hw base index ea
  rw [exec_idle _ s hw, begun, latch_commandPacket, enumBegin, openTable_reads (.inl rfl), settle_requestMem]
  rfl

/-! ### An entry of an enumeration, with a ready sink (R200) -/

/-- The enumeration an engine is in, read off its registers. -/
def callOf (s : State) : EnumCall :=
  { start := s.start, filter := if s.filt then some s.target else none, cap := s.cap.toNat }

theorem callOf_filter_eq_none {s : State} (h : s.filt = false) : (callOf s).filter = none := by simp [callOf, h]

/-- An engine that enumerates is in its innermost table. -/
theorem inTable_callOf {s : State} (hop : isEnumeration s.op = true) :
    InTable (callOf s) s.frames.get s.top (topFrame s) s where
  op_enum := hop
  start_eq := rfl
  filt_eq := by cases hfilt : s.filt <;> simp [callOf, hfilt]
  target_eq v hv := by
    cases hfilt : s.filt with
    | false => simp [callOf, hfilt] at hv
    | true => simpa [callOf, hfilt] using hv
  cap_eq := rfl
  below _ _ := rfl
  top_eq := rfl
  frame_eq := rfl

section
variable {c : EnumCall} {stack : Level → Frame} {level : Level} {f : Frame} {s : State}

/-- With an index left and the cap not reached, the next entry of the table is read. -/
theorem InTable.enumAdvance_reads (h : InTable c stack level f s) (hc : c.filter = none) (hi : f.index + 1 < 512)
    (hcap : f.emitted < c.cap) :
    enumAdvance s =
      requestMem (entryAddress f.base (BitVec.ofNat 9 (f.index + 1)))
        (Machine.setTopFrame { f with index := f.index + 1 } s) := by
  rw [h.enumAdvance_eq, hc]
  exact (h.setTopFrame _).enumVisit_reads hi (by simp [capReached, hcap])

/-- With an index left and the cap reached, the table closes, truncated (R204). -/
theorem InTable.enumAdvance_capped (h : InTable c stack level f s) (hc : c.filter = none) (hi : f.index + 1 < 512)
    (hcap : c.cap ≤ f.emitted) :
    enumAdvance s =
      offer (.eTableEnd level f.base (BitVec.ofNat 10 f.emitted) true)
        (Machine.setTopFrame { f with index := f.index + 1, truncated := true } s) := by
  have hnext : InTable c stack level { f with index := f.index + 1 } _ := h.setTopFrame _
  rw [h.enumAdvance_eq, hc, nextIndex, if_neg (by decide), enumVisit_capped, (hnext.setTopFrame _).closeTable_eq]
  · simp
  · simpa using hi
  · rw [hnext.capReached_eq]
    simpa [capReached, hc] using hcap

/-- An enumeration whose entry has been received and the `E_ENTRY` of it taken by the sink. -/
def eEntryTaken (level : Level) (f : Frame) (raw : Word) (d : Descriptor) (s : State) : State :=
  let r := entryRecord level f.base f.vprefix f.index s.ea raw d
  logRecord r (offer r { s with raw := raw, desc := d })

theorem eEntryTaken_trace (level : Level) (f : Frame) (raw : Word) (d : Descriptor) (s : State) :
    (eEntryTaken level f raw d s).trace = s.trace ++ [.record (entryRecord level f.base f.vprefix f.index s.ea raw d)] :=
  rfl

theorem InTable.eEntryTaken (h : InTable c stack level f s) (raw : Word) (d : Descriptor) :
    InTable c stack level f (Machine.eEntryTaken level f raw d s) :=
  h.transfer rfl rfl rfl rfl rfl rfl rfl

end

section
variable {f : Frame} {q : MemReq} {raw : Word} {d : Descriptor} {s : State}

/-- An enumeration that waits for a descriptor word receives it. -/
theorem deliver_enum (raw : Word) (d : Descriptor) (hw : s.wait = .mem q) (hop : isEnumeration s.op = true) :
    deliver s.top raw d s = settle (enumReceive raw d s) := by
  have hlevel : currentLevel s = s.top := by simp [currentLevel, hop]
  rw [deliver_awaited _ raw d s q hw hlevel, hop]
  rfl

/-- A descriptor that is not Invalid is reported before the enumeration goes on. -/
theorem exec_enum_entry (hw : s.wait = .mem q) (hop : isEnumeration s.op = true) (hr : s.sinkReady = true)
    (hf : topFrame s = f) (hd : decodeDescriptor raw s.top = d) (hv : d ≠ .invalid) :
    exec (decodeRow s.top raw) s = .next (drain 5 (afterEEntry (eEntryTaken s.top f raw d s))) := by
  subst hf
  rw [exec_decodeRow, hd, deliver_enum raw d hw hop, (inTable_callOf hop).enumReceive_eq raw d hv]
  exact congrArg _ (drain_pending 5 (offer _ { s with raw := raw, desc := d }) _ rfl hr)

/-- A Block or a Page is reported and counted. -/
theorem exec_enum_leaf (hw : s.wait = .mem q) (hop : isEnumeration s.op = true) (hr : s.sinkReady = true)
    (hf : topFrame s = f) (hd : decodeDescriptor raw s.top = d) (hleaf : d.isLeaf = true) :
    exec (decodeRow s.top raw) s =
      .next (drain 5 (enumAdvance (setTopFrame { f with emitted := f.emitted + 1 } (eEntryTaken s.top f raw d s)))) := by
  have hs : InTable (callOf s) s.frames.get s.top f (eEntryTaken s.top f raw d s) :=
    (hf ▸ inTable_callOf hop).eEntryTaken raw d
  rw [exec_enum_entry hw hop hr hf hd (by rintro rfl; cases hleaf), hs.afterEEntry_leaf hleaf]

end

theorem Descriptor.isLeaf_of_kind {d : Descriptor} (h : d.kind = .block ∨ d.kind = .page) : d.isLeaf = true := by
  cases d <;> simp [Descriptor.kind, Descriptor.isLeaf] at h ⊢

/-- A Table's output address is masked alike at every level (R153). -/
theorem decodeDescriptor_of_kind_table {raw : Word} {level : Level} (h : (decodeDescriptor raw level).kind = .table) :
    ∃ p w, decodeDescriptor raw level = .table (tableOrPageAddress raw) p w := by
  cases hv : validBit raw with
  | false => simp [decodeDescriptor_of_not_valid level hv, Descriptor.kind] at h
  | true => cases hk : kindOf raw level <;> simp [decodeDescriptor, hv, hk, Descriptor.kind] at h ⊢

/-- However many records the sink would take, a request leaves it none. -/
theorem drain_requestMem (n : Nat) (ea : PA) (s : State) : drain n (requestMem ea s) = requestMem ea s :=
  drain_of_not_pending n _ (by simp)

/-! ### The answer for an entry, by its kind -/

/-- Settles O31: an Invalid entry leaves only its word and descriptor behind. -/
theorem enumerationSkipsInvalid : Obligations.EnumerationSkipsInvalid := by
  unfold Obligations.EnumerationSkipsInvalid
  intro q raw s hw hop hfilt f hi hcap ea
  have hs := (inTable_callOf hop).transfer (t := { s with raw := raw, desc := .invalid }) rfl rfl rfl rfl rfl rfl rfl
  rw [exec, execDescInvalid, deliver_enum raw _ hw hop, enumReceive,
    hs.enumAdvance_reads (callOf_filter_eq_none hfilt) hi hcap, settle_requestMem]
  rfl

/-- Settles O32: the leaf is counted, and the loop reads its next entry. -/
theorem enumerationEmitsLeaves : Obligations.EnumerationEmitsLeaves := by
  unfold Obligations.EnumerationEmitsLeaves
  intro q raw s hw hop hfilt hr f hi hcap d hkind ea cp
  have hf : InTable (callOf s) s.frames.get s.top f s := inTable_callOf hop
  have hs := (hf.eEntryTaken raw d).setTopFrame { f with emitted := f.emitted + 1 }
  rw [exec_enum_leaf (f := f) (d := d) hw hop hr rfl rfl (Descriptor.isLeaf_of_kind hkind),
    hs.enumAdvance_reads (callOf_filter_eq_none hfilt) hi hcap, drain_requestMem, setTopFrame_setTopFrame]
  simp only [requestMem, setTopFrame_trace, eEntryTaken_trace, List.append_assoc]
  rfl

/-- Settles O33: the leaf is counted, and the root table closes. -/
theorem capClosesTheRootTable : Obligations.CapClosesTheRootTable := by
  unfold Obligations.CapClosesTheRootTable
  intro q raw s hw hop hfilt hr htop f hi hcap d hkind cp
  have hf : InTable (callOf s) s.frames.get s.top f s := inTable_callOf hop
  have hs := (hf.eEntryTaken raw d).setTopFrame { f with emitted := f.emitted + 1 }
  refine ⟨_, exec_enum_leaf (f := f) (d := d) hw hop hr rfl rfl (Descriptor.isLeaf_of_kind hkind), ?_⟩
  rw [hs.enumAdvance_capped (callOf_filter_eq_none hfilt) hi hcap.ge]
  refine Eq.trans (drain_closes_root (n := 3) htop hr) ((withoutRegisters_eq_iff _ _).mpr ?_)
  refine ⟨rfl, rfl, rfl, rfl, rfl, rfl, rfl, rfl, ?_⟩
  simp only [setTopFrame_trace, eEntryTaken_trace, List.append_assoc]
  rfl

/-- Settles O34: the Table is counted, and the table below it opened. -/
theorem enumerationOpensTables : Obligations.EnumerationOpensTables := by
  unfold Obligations.EnumerationOpensTables
  intro q raw s hw hop hr hopen _ d hkind f oa next first ea cp
  obtain ⟨p, w, hd⟩ := decodeDescriptor_of_kind_table hkind
  have hs := (inTable_callOf hop).eEntryTaken raw d
  rw [exec_enum_entry hw hop hr rfl rfl (by simp [hd]), hs.afterEEntry_table hd, openTable_reads (by exact hopen),
    drain_requestMem]
  simp only [requestMem, setTopFrame_trace, eEntryTaken_trace, List.append_assoc]
  rfl

/-- Settles O37: the index is reported as unreadable, and the loop reads its next entry. -/
theorem unreadableEntryIsFlagged : Obligations.UnreadableEntryIsFlagged := by
  unfold Obligations.UnreadableEntryIsFlagged
  rintro q s hw ⟨hin, hlive, hr⟩ hop hfilt hfail f hi hcap ea
  have hs := inTable_callOf hop
  have htaken (r : Record) : InTable (callOf s) s.frames.get s.top f (logRecord r (offer r s)) :=
    hs.transfer rfl rfl rfl rfl rfl rfl rfl
  rw [step_no_input s hin, advance_mem s q hw hlive, hfail, receiveMem_none_enum s hop, hs.enumUnreadable_eq, settle,
    drain_pending 5 (offer _ s) _ rfl hr, takeRecord, afterRecord,
    (htaken _).enumAdvance_reads (callOf_filter_eq_none hfilt) hi hcap, drain_requestMem]
  simp only [requestMem, setTopFrame_trace, logRecord_trace, offer_trace, List.append_assoc]
  rfl

end Sys2Proof.Machine
end

section
/-!
The permission formatter as a command: what DESCRIBE reports of its operand (O19).
-/
namespace Sys2Proof.Machine

/-- Settles O19: the record is the description of the permission fields of `A0`, which are its six slices (R109, R230). -/
theorem describeReports : Obligations.DescribeReports := by
  unfold Obligations.DescribeReports
  intro x
  refine ⟨rfl, fun s hw hr => ?_⟩
  exact exec_reports (r := .rPerm (describe (permOfDD x.a0))) rfl rfl hw hr

end Sys2Proof.Machine
end

section
/-!
Reset and the hang (O35, O40, O41): a word nobody waits for, a reset between two moves and inside one, and the engine's own move,
which does not see the inputs due after it.
-/
namespace Sys2Proof.Machine

/-! ### What nobody waits for -/

/-- Settles O35: whatever its row, the word is delivered to no request. -/
theorem unawaitedDescriptorsAreDiscarded : Obligations.UnawaitedDescriptorsAreDiscarded := by
  unfold Obligations.UnawaitedDescriptorsAreDiscarded
  intro level raw s hw
  rw [exec_decodeRow, deliver_unawaited _ _ _ s hw]

/-! ### Reset (R281) -/

section
variable {s : State} {rest : List Input}

/-- Between two moves a reset leaves an idle engine, and its events, requests and packets as they were. -/
theorem step_reset (hin : s.inputs = .reset :: rest) :
    ∃ t, step s = .next t ∧ t.wait = .idle ∧ t.mem = s.mem ∧ t.regs = s.regs ∧ t.inputs = rest ∧ t.txn = s.txn ∧
      t.trace = s.trace ∧ t.cmd = s.cmd :=
  ⟨_, step_input s .reset rest hin, rfl, rfl, rfl, rfl, rfl, rfl, rfl⟩

theorem step_resetMidway (hin : s.inputs = .resetMidway :: rest) :
    step s = .next (resetMidway { s with inputs := rest }) :=
  step_input s .resetMidway rest hin

/-- Of the move a reset falls into, only its first transaction is left: the packet accepted or the record taken. -/
theorem resetMidway_leaves (s : State) :
    (s.wait = .idle → (resetMidway s).trace = s.trace ∧ (resetMidway s).cmd = s.cmd.tail) ∧
      (s.wait ≠ .idle → (resetMidway s).cmd = s.cmd ∧
        (∀ r, s.wait = .rpt r → (resetMidway s).trace = s.trace ++ [.record r]) ∧
        ((∀ r, s.wait ≠ .rpt r) → (resetMidway s).trace = s.trace)) := by
  cases hw : s.wait with
  | idle => simp [resetMidway_idle s hw]
  | mem q | reg q => simp [resetMidway_waiting s (by simp [hw]) (by simp [hw])]
  | rpt r => simp [resetMidway_pending s r hw]

/-- An idle engine whose turn is due accepts a WALK and issues the read of its first descriptor. -/
theorem step_turn_walk {p : Packet} {x : Operands} {queue : List Packet} (hw : s.wait = .idle)
    (hp : decodePacket p = some (.walk x)) (hcmd : s.cmd = p :: queue) (hin : s.inputs = .turn :: rest) :
    let ea : Word := (selectRoot x.a0 x.a1 x.a2 + ((x.a0.extractLsb' 39 9).setWidth 48 <<< 3)).setWidth 64
    ∃ t, step s = .next t ∧ t.wait = .mem { address := ea, length := 8#8, tag := s.txn } ∧ t.txn = s.txn + 1 ∧
      t.trace = s.trace ++ [.mem ea 8#8] ∧ t.cmd = queue ∧ t.inputs = rest := by
  obtain ⟨-, hpacket⟩ := stepRunsThePacket rest s (.inr hin) hw
  obtain ⟨hrun, -⟩ := hpacket p queue hcmd
  obtain ⟨hwalk, -, -⟩ := walkBegins x { s with cmd := queue, inputs := rest } hw
  exact ⟨_, (hrun _ hp).trans hwalk, rfl, rfl, rfl, rfl, rfl⟩

end

/-- Settles O40: by the two kinds of reset, by the two kinds of answer, and step by step along the run. -/
theorem resetAbandonsTheOperation : Obligations.ResetAbandonsTheOperation := by
  unfold Obligations.ResetAbandonsTheOperation
  refine ⟨fun rest s hin => ?_, fun tag more a v s => ⟨fun hq hin => ?_, fun hq hin => ?_⟩, ?_⟩
  · rcases hin with hin | hin
    · obtain ⟨t, hstep, hidle, hmem, hregs, hinputs, htxn, htrace, hcmd⟩ := step_reset hin
      refine ⟨t, hstep, hidle, (status_idle_iff t).mpr hidle, hmem, hregs, hinputs, htxn, fun _ => ⟨htrace, hcmd⟩,
        fun hin' => ?_⟩
      simp [hin] at hin'
    · obtain ⟨hidle, hmem, hregs, -, -, hinputs, htxn⟩ := resetMidway_outside { s with inputs := rest }
      refine ⟨_, step_resetMidway hin, hidle, (status_idle_iff _).mpr hidle, hmem, hregs, hinputs, htxn, fun hin' => ?_,
        fun _ => resetMidway_leaves { s with inputs := rest }⟩
      simp [hin] at hin'
  · exact (step_input s _ more hin).trans (absorb_memAnswer_late a hq)
  · exact (step_input s _ more hin).trans (absorb_regAnswer_late v hq)
  · intro x y p p' rest a more s hw hp hp' hcmd hin ea
    obtain ⟨t, hturn, -, htxn, htrace, hcmd₁, hin₁⟩ := step_turn_walk hw hp hcmd hin
    obtain ⟨r, hreset, hidle, -, -, hin₂, htxn', htrace', hcmd₂⟩ := step_reset hin₁
    obtain ⟨u, hturn', hwait, -, htrace'', hcmd₃, hin₃⟩ := step_turn_walk hidle hp' (hcmd₂.trans hcmd₁) hin₂
    rw [htxn', htxn] at hwait
    have hlate : step u = .next { u with inputs := more } := by
      refine (step_input u _ more hin₃).trans (absorb_memAnswer_late a fun q hq => ?_)
      cases hwait.symm.trans hq
      exact Nat.succ_ne_self s.txn
    refine ⟨{ u with inputs := more }, ?_, hwait, ?_, hcmd₃, rfl⟩
    · rw [core_run_succ 3 hturn, core_run_succ 2 hreset, core_run_succ 1 hturn', core_run_succ 0 hlate]
      rfl
    · simp [htrace'', htrace', htrace, ea]

/-! ### The engine's own move does not see the inputs -/

section
variable (inputs : List Input)

@[simp] theorem withInputs_desc (s : State) : (s.withInputs inputs).desc = s.desc := rfl

theorem enumVisit_withInputs (s : State) : enumVisit (s.withInputs inputs) = (enumVisit s).withInputs inputs := by
  unfold enumVisit
  simp only [apply_ite (State.withInputs inputs)]
  rfl

theorem enumAdvance_withInputs (s : State) : enumAdvance (s.withInputs inputs) = (enumAdvance s).withInputs inputs :=
  enumVisit_withInputs inputs (setTopFrame _ s)

theorem openTable_withInputs (base : PA) (vprefix : Word) (level : Level) (s : State) :
    openTable base vprefix level (s.withInputs inputs) = (openTable base vprefix level s).withInputs inputs :=
  enumVisit_withInputs inputs { s with frames := _, top := level }

theorem enumReceive_withInputs (raw : Word) (d : Descriptor) (s : State) :
    enumReceive raw d (s.withInputs inputs) = (enumReceive raw d s).withInputs inputs := by
  cases d with
  | invalid => exact enumAdvance_withInputs inputs { s with raw := raw, desc := .invalid }
  | table oa p w | block oa p | page oa p => rfl

theorem afterWEntry_withInputs (s : State) : afterWEntry (s.withInputs inputs) = (afterWEntry s).withInputs inputs := by
  unfold afterWEntry
  rw [withInputs_desc]
  cases s.desc <;> rfl

theorem afterEEntry_withInputs (s : State) : afterEEntry (s.withInputs inputs) = (afterEEntry s).withInputs inputs := by
  unfold afterEEntry
  rw [withInputs_desc]
  cases s.desc with
  | table oa p w => exact openTable_withInputs inputs oa _ _ (setTopFrame _ s)
  | invalid | block oa p | page oa p => exact enumAdvance_withInputs inputs (setTopFrame _ s)

theorem afterTableEnd_withInputs (s : State) :
    afterTableEnd (s.withInputs inputs) = (afterTableEnd s).withInputs inputs := by
  unfold afterTableEnd
  rw [apply_ite (State.withInputs inputs), ← enumAdvance_withInputs]
  rfl

theorem takeRecord_withInputs (r : Record) (s : State) :
    takeRecord r (s.withInputs inputs) = (takeRecord r s).withInputs inputs := by
  cases r
  case wEntry => exact afterWEntry_withInputs inputs (logRecord _ s)
  case eEntry => exact afterEEntry_withInputs inputs (logRecord _ s)
  case eUnread => exact enumAdvance_withInputs inputs (logRecord _ s)
  case eTableEnd => exact afterTableEnd_withInputs inputs (logRecord _ s)
  all_goals rfl

theorem drain_withInputs (n : Nat) : ∀ s : State, drain n (s.withInputs inputs) = (drain n s).withInputs inputs := by
  induction n with
  | zero => exact fun _ => rfl
  | succ n ih =>
    intro s
    by_cases hr : ∃ r, s.wait = .rpt r
    · obtain ⟨r, hw⟩ := hr
      cases hready : s.sinkReady with
      | true => rw [drain_pending n s r hw hready, drain_pending n (s.withInputs inputs) r hw hready, takeRecord_withInputs, ih]
      | false => rw [drain_of_stalled _ s hready, drain_of_stalled _ (s.withInputs inputs) hready]
    · have hn : ∀ r, s.wait ≠ .rpt r := fun r hw => hr ⟨r, hw⟩
      rw [drain_of_not_pending _ s hn, drain_of_not_pending _ (s.withInputs inputs) hn]

theorem settle_withInputs (s : State) : settle (s.withInputs inputs) = (settle s).withInputs inputs :=
  drain_withInputs inputs 6 s

theorem receiveMem_withInputs (answer : Option Bytes8) (s : State) :
    receiveMem answer (s.withInputs inputs) = (receiveMem answer s).withInputs inputs := by
  cases answer with
  | none =>
    simp only [receiveMem, apply_ite (State.withInputs inputs)]
    rfl
  | some b =>
    simp only [receiveMem, apply_ite (State.withInputs inputs), ← enumReceive_withInputs]
    rfl

theorem receiveReg_withInputs (sel : RegSel) (answer : Option Word) (s : State) :
    receiveReg sel answer (s.withInputs inputs) = (receiveReg sel answer s).withInputs inputs := by
  cases answer with
  | none => rfl
  | some v => cases sel <;> rfl

theorem begun_withInputs (i : Instr) (s : State) : begun i (s.withInputs inputs) = (begun i s).withInputs inputs := by
  cases i
  case enum level cap x =>
    let p : Packet := commandPacket 7#4 level.bits cap x
    exact openTable_withInputs inputs _ _ level { latch p s with filt := false, start := level }
  case enumt level cap x =>
    let p : Packet := commandPacket 8#4 level.bits cap x
    exact openTable_withInputs inputs _ _ level { latch p s with filt := true, target := x.a2, start := level }
  all_goals rfl

theorem begunPacket_withInputs (p : Packet) (s : State) :
    begunPacket p (s.withInputs inputs) = (begunPacket p s).withInputs inputs := by
  unfold begunPacket
  split
  · exact begun_withInputs inputs _ s
  · rfl

variable {s : State}

/-- A move the engine has, it has whatever is due after it, and leaves that due. -/
theorem advance_withInputs_next {t : State} (h : advance s = .next t) :
    advance (s.withInputs inputs) = .next (t.withInputs inputs) := by
  cases hw : s.wait with
  | idle =>
    cases hc : s.cmd with
    | nil =>
      cases (advance_idle_empty hw hc).symm.trans h
      exact advance_idle_empty hw hc
    | cons p queue =>
      rw [advance_idle_packet hw hc, runPacket_idle p { s with cmd := queue } hw] at h
      cases h
      rw [advance_idle_packet (s := s.withInputs inputs) hw hc, ← settle_withInputs, ← begunPacket_withInputs]
      exact runPacket_idle p _ hw
  | mem q =>
    cases hlive : s.readerLive with
    | true =>
      cases (advance_mem s q hw hlive).symm.trans h
      rw [advance_mem (s.withInputs inputs) q hw hlive, ← settle_withInputs, ← receiveMem_withInputs]
      rfl
    | false => cases (advance_mem_unanswered hw hlive).symm.trans h
  | reg q =>
    cases hlive : s.readerLive with
    | true =>
      cases (advance_reg s q hw hlive).symm.trans h
      rw [advance_reg (s.withInputs inputs) q hw hlive, ← settle_withInputs, ← receiveReg_withInputs]
      rfl
    | false => cases (advance_reg_unanswered hw hlive).symm.trans h
  | rpt r =>
    cases hready : s.sinkReady with
    | true =>
      cases (advance_rpt hw hready).symm.trans h
      rw [advance_rpt (s := s.withInputs inputs) hw hready, settle_withInputs]
    | false => cases (advance_rpt_stalled hw hready).symm.trans h

end

/-! ### The engine hangs where nothing answers it (R286, R287) -/

/-- The engine waits for a reader that does not answer or for a sink that does not take, and `f` names what it waits for. -/
inductive Hangs (s : State) : Fault → Prop where
  | mem (q : MemReq) (hw : s.wait = .mem q) (hlive : s.readerLive = false) : Hangs s .memoryUnanswered
  | reg (q : RegReq) (hw : s.wait = .reg q) (hlive : s.readerLive = false) : Hangs s .registerUnanswered
  | rpt (r : Record) (hw : s.wait = .rpt r) (hready : s.sinkReady = false) : Hangs s .sinkStalled

section
variable {s : State}

theorem Hangs.advance_eq {f : Fault} (h : Hangs s f) : advance s = .fault f := by
  cases h with
  | mem q hw hlive => exact advance_mem_unanswered hw hlive
  | reg q hw hlive => exact advance_reg_unanswered hw hlive
  | rpt r hw hready => exact advance_rpt_stalled hw hready

/-- What is due after it does not help an engine that hangs. -/
theorem Hangs.withInputs (inputs : List Input) {f : Fault} (h : Hangs s f) : Hangs (s.withInputs inputs) f := by
  cases h with
  | mem q hw hlive => exact .mem q hw hlive
  | reg q hw hlive => exact .reg q hw hlive
  | rpt r hw hready => exact .rpt r hw hready

/-- The engine has a move, or it hangs. -/
theorem advance_next_or_hangs (s : State) : (∃ t, advance s = .next t) ∨ ∃ f, Hangs s f := by
  cases hw : s.wait with
  | idle => exact .inl (advance_idle_next hw)
  | mem q =>
    cases hlive : s.readerLive with
    | true => exact .inl ⟨_, advance_mem s q hw hlive⟩
    | false => exact .inr ⟨_, .mem q hw hlive⟩
  | reg q =>
    cases hlive : s.readerLive with
    | true => exact .inl ⟨_, advance_reg s q hw hlive⟩
    | false => exact .inr ⟨_, .reg q hw hlive⟩
  | rpt r =>
    cases hready : s.sinkReady with
    | true => exact .inl ⟨_, advance_rpt hw hready⟩
    | false => exact .inr ⟨_, .rpt r hw hready⟩

theorem advance_withInputs_fault (inputs : List Input) {f : Fault} (h : advance s = .fault f) :
    advance (s.withInputs inputs) = .fault f := by
  rcases advance_next_or_hangs s with ⟨t, ht⟩ | ⟨g, hg⟩
  · cases ht.symm.trans h
  · cases hg.advance_eq.symm.trans h
    exact (hg.withInputs inputs).advance_eq

theorem takeTurn_answers_next (s : State) : ∃ t, takeTurn s = .next t := by
  rcases advance_next_or_hangs s with ⟨t, ht⟩ | ⟨f, hf⟩
  · exact ⟨t, takeTurn_next s t ht⟩
  · exact ⟨s, takeTurn_fault s f hf.advance_eq⟩

/-- Every input is absorbed. -/
theorem absorb_answers_next (i : Input) (s : State) : ∃ t, absorb i s = .next t := by
  cases i with
  | turn => exact takeTurn_answers_next s
  | memAnswer tag answer =>
    by_cases hq : ∃ q, s.wait = .mem q ∧ q.tag = tag
    · obtain ⟨q, hw, rfl⟩ := hq
      exact ⟨_, absorb_memAnswer answer s q hw⟩
    · exact ⟨s, absorb_memAnswer_late answer fun q hw ht => hq ⟨q, hw, ht⟩⟩
  | regAnswer tag answer =>
    by_cases hq : ∃ q, s.wait = .reg q ∧ q.tag = tag
    · obtain ⟨q, hw, rfl⟩ := hq
      exact ⟨_, absorb_regAnswer answer s q hw⟩
    · exact ⟨s, absorb_regAnswer_late answer fun q hw ht => hq ⟨q, hw, ht⟩⟩
  | sinkTake =>
    by_cases hr : ∃ r, s.wait = .rpt r
    · obtain ⟨r, hw⟩ := hr
      exact ⟨_, absorb_sinkTake_pending hw⟩
    · exact ⟨s, absorb_sinkTake_nothing fun r hw => hr ⟨r, hw⟩⟩
  | command p | reset | resetMidway | setSink ready | setReader live | memoryChange address value
  | memoryFails address fails | registerChange sel value => exact ⟨_, rfl⟩

/-- A step answers a next state, but where no input is due and the engine hangs. -/
theorem step_next_or_hangs (s : State) : (∃ t, step s = .next t) ∨ s.inputs = [] ∧ ∃ f, Hangs s f := by
  cases hin : s.inputs with
  | nil =>
    rw [step_no_input s hin]
    exact (advance_next_or_hangs s).imp_right fun h => ⟨rfl, h⟩
  | cons i rest =>
    rw [step_input s i rest hin]
    exact .inl (absorb_answers_next i _)

theorem Hangs.step_eq {f : Fault} (h : Hangs s f) (hin : s.inputs = []) : step s = .fault f :=
  (step_no_input s hin).trans h.advance_eq

end

/-- Settles O41: the engine's own move does not see the turn, and it has one but where it hangs. -/
theorem theEngineHangsExactlyWhenUnanswered : Obligations.TheEngineHangsExactlyWhenUnanswered := by
  unfold Obligations.TheEngineHangsExactlyWhenUnanswered
  refine ⟨fun rest s hin => ?_, fun s hin => ?_, fun s => ?_⟩
  · rw [step_input s .turn rest hin, step_no_input { s with inputs := [] } rfl]
    exact ⟨fun t h => takeTurn_next _ _ (advance_withInputs_next (s := { s with inputs := [] }) rest h),
      fun f h => takeTurn_fault _ f (advance_withInputs_fault (s := { s with inputs := [] }) rest h)⟩
  · exact ⟨fun q hw hlive => (Hangs.mem q hw hlive).step_eq hin, fun q hw hlive => (Hangs.reg q hw hlive).step_eq hin,
      fun r hw hready => (Hangs.rpt r hw hready).step_eq hin⟩
  · refine (step_next_or_hangs s).imp_right fun ⟨hin, f, hf⟩ => ⟨hin, ?_⟩
    have hstep := hf.step_eq hin
    cases hf with
    | mem q hw hlive => exact .inl ⟨q, hw, hlive, hstep⟩
    | reg q hw hlive => exact .inr (.inl ⟨q, hw, hlive, hstep⟩)
    | rpt r hw hready => exact .inr (.inr ⟨r, hw, hready, hstep⟩)

end Sys2Proof.Machine
end
